-- ==== Sys2Proof/Word.lean ====
section
/-! DEFINITION. The word types of KDC: byte values are 8 bits and wrap modulo 256 (R7); the header-table
word is 16 bits (R76) and a FAT field is 32 bits (R106). Counts, cursors, distances and codes are plain
naturals (R7), so they need no type of their own. -/

namespace Sys2Proof

/-- A byte value (R7). -/
abbrev Byte := BitVec 8

/-- A header-table word W (R76). -/
abbrev Word16 := BitVec 16

/-- A FAT field (R106). -/
abbrev Word32 := BitVec 32

end Sys2Proof
end

