-- ==== Sys2Proof/Config.lean ====
section
/-! DEFINITION. The fixed parameters of R6, each under the spec's own name. They are `@[simp]`, so that a
proof sees the numbers. The two named parameters that a model may vary (R8) are tables of functions a test
could show wrong, so they stand in files that a later repair can mend: PLANE_ORDER_TABLE is
`Sys2Proof.Machine.planeOrderTable` (Machine/Operands.lean) and MACRO_MAP is `Sys2Proof.macroMap`
(Decode.lean). -/

namespace Sys2Proof

/-- The operations a header-table word can select (R124, R303); `refused` is R312. MACRO_MAP maps k16 and wsel
to one of them. -/
inductive TableOp where
  | mLbr | mPrd | mPbr | mMrd | mLit | mNib | mRmr | mRle | refused
  deriving DecidableEq, Repr

end Sys2Proof

namespace Sys2Proof.Config

/-- LS_HDR_LEN (R6): the opaque archive header. -/
@[simp] abbrev lsHdrLen : Nat := 16
/-- LS_DICT_LEN (R6). -/
@[simp] abbrev lsDictLen : Nat := 256
/-- LS_DICT_BASE (R6): the archive offset of the dictionary. -/
@[simp] abbrev lsDictBase : Nat := 16
/-- LS_FAT_BASE (R6): the archive offset of the first FAT record. -/
@[simp] abbrev lsFatBase : Nat := 272
/-- LS_REC_LEN (R6): three big-endian u32. -/
@[simp] abbrev lsRecLen : Nat := 12
/-- LS_LIT_LIMIT (R6): codes below it are literals. -/
@[simp] abbrev lsLitLimit : Nat := 256
/-- LS_MIN_MATCH (R6). -/
@[simp] abbrev lsMinMatch : Nat := 3
/-- TF_SEL_OFF (R6): the plane-order selector byte. -/
@[simp] abbrev tfSelOff : Nat := 7
/-- TF_N_OFF (R6): the header-table entry count. -/
@[simp] abbrev tfNOff : Nat := 9
/-- TF_HT_BASE (R6): the first header-table byte. -/
@[simp] abbrev tfHtBase : Nat := 10
/-- TF_OUT_LEN (R6). -/
@[simp] abbrev tfOutLen : Nat := 1920
/-- TF_SEC_LEN (R6): bytes per section. -/
@[simp] abbrev tfSecLen : Nat := 640
/-- TF_ROW_LEN (R6): bytes per plane row, and the number of rows. -/
@[simp] abbrev tfRowLen : Nat := 80
/-- TF_PLANE_LEN (R6): bytes per plane memory. -/
@[simp] abbrev tfPlaneLen : Nat := 6400

end Sys2Proof.Config
end

