-- ==== Sys2Proof/Syntax.lean ====
section
/-! DEFINITION. The instructions of KDC: one constructor of `Instr` per row of spec/opcode_table.json. Operands
are the raw encoded fields in the order of the assembler form of R130; what each field is read as (a count, a
distance, a selector) is the meaning's business. -/

namespace Sys2Proof

/-- One constructor per row of spec/opcode_table.json. -/
inductive Instr where
  /-- MAC i (R300): execute the header-table word of index `i`. -/
  | mac (i : BitVec 5)
  /-- LBR n, d (R241): linear back-reference, count n+3, distance d. -/
  | lbr (n : BitVec 4) (d : Byte)
  /-- PRD s, c (R243): plane read, no transform, count c+2. -/
  | prd (s : BitVec 2) (c : Byte)
  /-- PRDN s, c (R244): plane read, complement. -/
  | prdn (s : BitVec 2) (c : Byte)
  /-- PRDL s, c (R245): plane read, rotate left 1. -/
  | prdl (s : BitVec 2) (c : Byte)
  /-- PRDR s, c (R246): plane read, rotate right 1. -/
  | prdr (s : BitVec 2) (c : Byte)
  /-- PBR n, c (R251): plane back-reference, distance n+1, count c+2. -/
  | pbr (n : BitVec 4) (c : Byte)
  /-- MRD s, k, c (R253): masked plane read with the mask of cache slot k; s ≠ 3. -/
  | mrd (s k : BitVec 2) (c : Byte)
  /-- MRDI s, m, c (R254): masked plane read with the immediate mask m. -/
  | mrdi (s : BitVec 2) (m c : Byte)
  /-- PAIR n, v1, v2 (R256): the pair repeated n+1 times. -/
  | pair (n : BitVec 4) (v1 v2 : Byte)
  /-- LIT n, b0, …, bn (R258): n+1 literal bytes. A list shorter than n+1 is a literal run that the end of
  the stream cuts off (R211); it is not well-formed, and only `cutLiteral` makes it. -/
  | lit (n : BitVec 4) (bs : List Byte)
  /-- NIB n, v (R263): the nibble pair of v repeated n+1 times. -/
  | nib (n : BitVec 4) (v : Byte)
  /-- RMR s, k, c (R267): masked plane read with the rotating mask of cache slot k; s ≠ 3. -/
  | rmr (s k : BitVec 2) (c : Byte)
  /-- RMRI s, m, c (R268): masked plane read with the rotating immediate mask m. -/
  | rmri (s : BitVec 2) (m c : Byte)
  /-- RLE r, v (R272): r copies of v, 2 ≤ r ≤ 97; the command byte is r + 0x9E (R130, R131). -/
  | rle (r v : Byte)
  /-- M.LBR (R304): the word 0xHH2n. -/
  | mLbr (n : BitVec 4) (whi : Byte)
  /-- M.PRD (R305): the word 0xHH3n, with plane selector s and transform t. -/
  | mPrd (s t : BitVec 2) (whi : Byte)
  /-- M.PBR (R306): the word 0xHH4n. -/
  | mPbr (n : BitVec 4) (whi : Byte)
  /-- M.MRD (R307): the word 0xHH5n with s ≠ 3. -/
  | mMrd (s k : BitVec 2) (whi : Byte)
  /-- M.LIT (R308): the word 0xHH7x; the low nibble x is ignored. -/
  | mLit (x : BitVec 4) (whi : Byte)
  /-- M.NIB (R309): the word 0xHH8n. -/
  | mNib (n : BitVec 4) (whi : Byte)
  /-- M.RMR (R310): the word 0xHH9n with s ≠ 3. -/
  | mRmr (s k : BitVec 2) (whi : Byte)
  /-- M.RLE (R311): the word 0xHHLL with LL = r + 0x9E ≥ 0xA0. -/
  | mRle (r whi : Byte)
  /-- M.REFUSED (R312): a word to which no source gives a meaning. -/
  | mRefused (wlo whi : Byte)
  /-- LITC c (R165): emit DICT[c]. -/
  | litc (c : Byte)
  /-- MATCH d, l (R166): copy l bytes from distance d; l ≥ 3 (R130). -/
  | matchSym (dist len : Nat)
  /-- FAT.SENTINEL (R143): the record with CLEN = 0. -/
  | fatSentinel
  /-- ENTRY.VERBATIM (R148): a record with CLEN = ULEN ≠ 0. -/
  | entryVerbatim (clen off : Word32)
  /-- ENTRY.CODED (R169): a record with CLEN ≠ 0 and CLEN ≠ ULEN. -/
  | entryCoded (clen ulen off : Word32)
  deriving DecidableEq, Repr

end Sys2Proof
end

