-- ==== Sys2Proof/WellFormed.lean ====
section
/-! DEFINITION. The encoding space of each instruction, and which terms of `Instr` an encoding stands for (R120,
R124, R106). Every well-formed instruction has exactly one encoding, and every decoder answers only well-formed
instructions. -/

namespace Sys2Proof

/-- The formats of spec/opcode_table.json: the four encoding spaces of R100 and R106. -/
inductive Space where
  /-- "tfdce-cmd": a command byte of the opcode stream and its operand bytes (R110). -/
  | command
  /-- "tfdce-macro-word": a 16-bit header-table word (R123). -/
  | tableWord
  /-- "ls11-symbol": a bit string of an entry's slice (R101). -/
  | symbol
  /-- "ls11-fat-record": a record of the archive's FAT (R106). -/
  | fatRecord
  deriving DecidableEq, Repr

/-- The format column of spec/opcode_table.json. -/
def Instr.space : Instr → Space
  | .mac _ => .command
  | .lbr _ _ => .command
  | .prd _ _ => .command
  | .prdn _ _ => .command
  | .prdl _ _ => .command
  | .prdr _ _ => .command
  | .pbr _ _ => .command
  | .mrd _ _ _ => .command
  | .mrdi _ _ _ => .command
  | .pair _ _ _ => .command
  | .lit _ _ => .command
  | .nib _ _ => .command
  | .rmr _ _ _ => .command
  | .rmri _ _ _ => .command
  | .rle _ _ => .command
  | .mLbr _ _ => .tableWord
  | .mPrd _ _ _ => .tableWord
  | .mPbr _ _ => .tableWord
  | .mMrd _ _ _ => .tableWord
  | .mLit _ _ => .tableWord
  | .mNib _ _ => .tableWord
  | .mRmr _ _ _ => .tableWord
  | .mRle _ _ => .tableWord
  | .mRefused _ _ => .tableWord
  | .litc _ => .symbol
  | .matchSym _ _ => .symbol
  | .fatSentinel => .fatRecord
  | .entryVerbatim _ _ => .fatRecord
  | .entryCoded _ _ _ => .fatRecord

/-- The low byte of a header-table word that R312 refuses: k16 in {0, 1, 6}, or k16 in {5, 9} with wsel = 3. -/
def refusedWlo (wlo : Byte) : Bool :=
  wlo.toNat < 0x20 || (0x60 ≤ wlo.toNat && wlo.toNat < 0x70) ||
    (0x5C ≤ wlo.toNat && wlo.toNat < 0x60) || (0x9C ≤ wlo.toNat && wlo.toNat < 0xA0)

/-- The check of each constructor's fields, rule by rule. -/
def Instr.wellFormed : Instr → Bool
  | .mac _ => true
  | .lbr _ _ => true
  | .prd _ _ => true
  | .prdn _ _ => true
  | .prdl _ _ => true
  | .prdr _ _ => true
  | .pbr _ _ => true
  | .mrd s _ _ => s != 3
  | .mrdi _ _ _ => true
  | .pair _ _ _ => true
  | .lit n bs => bs.length == n.toNat + 1
  | .nib _ _ => true
  | .rmr s _ _ => s != 3
  | .rmri _ _ _ => true
  | .rle r _ => 2 ≤ r.toNat && r.toNat ≤ 97
  | .mLbr _ _ => true
  | .mPrd _ _ _ => true
  | .mPbr _ _ => true
  | .mMrd s _ _ => s != 3
  | .mLit _ _ => true
  | .mNib _ _ => true
  | .mRmr s _ _ => s != 3
  | .mRle r _ => 2 ≤ r.toNat && r.toNat ≤ 97
  | .mRefused wlo _ => refusedWlo wlo
  | .litc _ => true
  | .matchSym _ len => Config.lsMinMatch ≤ len
  | .fatSentinel => true
  | .entryVerbatim clen _ => clen != 0
  | .entryCoded clen ulen _ => clen != 0 && clen != ulen

end Sys2Proof
end

