-- ==== Sys2Proof/Decode.lean ====
section
/-! DEFINITION. The decoders of the four encoding spaces (R100, R106), total on any input and rejecting by name,
and after them the encoder, written from the same tables (R101, R106, R120, R124, R130). Stream decoders answer
the instruction and what is left of their input. -/

namespace Sys2Proof

/-- Why an input is no encoding. -/
inductive DecodeError where
  /-- The input is empty. -/
  | noInput
  /-- An operand byte, a literal byte or a byte of a FAT record is missing (R121, R143). -/
  | missingBytes
  /-- The bits end inside a code (R170). -/
  | cutCode
  /-- Input is left after the one instruction asked for. -/
  | leftOver
  deriving DecidableEq, Repr

/-! ### Fields -/

/-- n4 = cmd[3:0] (R12, R112); w4 = wlo[3:0] (R302). -/
def lowNibble (b : Byte) : BitVec 4 := b.extractLsb' 0 4

/-- sel = cmd[3:2] (R12); wsel = wlo[3:2] (R302). -/
def selField (b : Byte) : BitVec 2 := b.extractLsb' 2 2

/-- k = cmd[1:0] (R12); wk = wlo[1:0] (R302). -/
def lowPair (b : Byte) : BitVec 2 := b.extractLsb' 0 2

/-- The fill count cmd − 0x9E of RLE and M.RLE (R111, R272, R311). -/
def fillCount (b : Byte) : Byte := b - 0x9E

/-- k16 = ((wlo >> 3) & 0x1E) >> 1 (R123, R302). -/
def subIndex (wlo : Byte) : BitVec 4 := (((wlo >>> 3) &&& 0x1E) >>> 1).extractLsb' 0 4

/-- A FAT field from its four bytes, most significant first (R11, R75). -/
def be32 (b0 b1 b2 b3 : Byte) : Word32 := (b0 ++ b1 : BitVec 16) ++ (b2 ++ b3 : BitVec 16)

/-! ### TF-DCE commands (R110, R120 to R122) -/

/-- The fixed operand bytes a command byte asks for (R121): none for MAC and LIT, whose literal bytes are no
fixed operands (R211); two for MRDI, PAIR and RMRI; one for every other command. -/
def operandCount (cmd : Byte) : Nat :=
  if cmd.toNat < 0x20 then 0
  else if cmd.toNat < 0x5C then 1
  else if cmd.toNat < 0x70 then 2
  else if cmd.toNat < 0x80 then 0
  else if cmd.toNat < 0x9C then 1
  else if cmd.toNat < 0xA0 then 2
  else 1

/-- A command with one operand byte. -/
def withByte (rest : List Byte) (f : Byte → Instr) : Except DecodeError (Instr × List Byte) :=
  match rest with
  | b1 :: rest' => .ok (f b1, rest')
  | [] => .error .missingBytes

/-- A command with two operand bytes, in stream order (R122). -/
def withTwoBytes (rest : List Byte) (f : Byte → Byte → Instr) : Except DecodeError (Instr × List Byte) :=
  match rest with
  | b1 :: b2 :: rest' => .ok (f b1 b2, rest')
  | _ => .error .missingBytes

/-- PRD, PRDN, PRDL and PRDR by k = cmd[1:0] (R120). -/
def planeReadOf (s k : BitVec 2) (c : Byte) : Instr :=
  if k = 0 then .prd s c else if k = 1 then .prdn s c else if k = 2 then .prdl s c else .prdr s c

/-- The primary opcode map (R120): the twelve ranges, in order, cover all 256 command bytes. -/
def decodeCommand (cmd : Byte) (rest : List Byte) : Except DecodeError (Instr × List Byte) :=
  let n := lowNibble cmd
  let s := selField cmd
  let k := lowPair cmd
  if cmd.toNat < 0x20 then .ok (.mac (cmd.extractLsb' 0 5), rest)
  else if cmd.toNat < 0x30 then withByte rest (.lbr n)
  else if cmd.toNat < 0x40 then withByte rest (planeReadOf s k)
  else if cmd.toNat < 0x50 then withByte rest (.pbr n)
  else if cmd.toNat < 0x5C then withByte rest (.mrd s k)
  else if cmd.toNat < 0x60 then withTwoBytes rest (.mrdi k)
  else if cmd.toNat < 0x70 then withTwoBytes rest (.pair n)
  else if cmd.toNat < 0x80 then
    if rest.length < n.toNat + 1 then .error .missingBytes
    else .ok (.lit n (rest.take (n.toNat + 1)), rest.drop (n.toNat + 1))
  else if cmd.toNat < 0x90 then withByte rest (.nib n)
  else if cmd.toNat < 0x9C then withByte rest (.rmr s k)
  else if cmd.toNat < 0xA0 then withTwoBytes rest (.rmri k)
  else withByte rest (.rle (fillCount cmd))

/-- Decode one command from the bytes of the stream. -/
def decodeBytes : List Byte → Except DecodeError (Instr × List Byte)
  | [] => .error .noInput
  | cmd :: rest => decodeCommand cmd rest

/-- The literal run of a LIT whose literals the end of the stream cuts off: LIT alternates a read and an emit,
so the literals that are there still count (R211). No other command is left of a cut one. -/
def cutLiteral (cmd : Byte) (rest : List Byte) : Option Instr :=
  if 0x70 ≤ cmd.toNat ∧ cmd.toNat < 0x80 ∧ rest.length < (lowNibble cmd).toNat + 1 then
    some (.lit (lowNibble cmd) rest)
  else none

/-- What the dispatch loop executes for a command byte and the stream bytes after it (R211, R212): the decoded
command, or the cut literal run; nothing when a fixed operand is missing. -/
def streamInstr (cmd : Byte) (rest : List Byte) : Option Instr :=
  match decodeCommand cmd rest with
  | .ok (i, _) => some i
  | .error _ => cutLiteral cmd rest

/-! ### TF-DCE header-table words (R123, R124) -/

/-- MACRO_MAP (R124, R303; decision D27, a named parameter of R8): the operation that k16 and wsel select. -/
def macroMap (k16 : BitVec 4) (wsel : BitVec 2) : TableOp :=
  if k16.toNat ≥ 0xA then .mRle
  else if k16 = 0x2 then .mLbr
  else if k16 = 0x3 then .mPrd
  else if k16 = 0x4 then .mPbr
  else if k16 = 0x5 then (if wsel = 3 then .refused else .mMrd)
  else if k16 = 0x7 then .mLit
  else if k16 = 0x8 then .mNib
  else if k16 = 0x9 then (if wsel = 3 then .refused else .mRmr)
  else .refused

/-- The operation a header-table word's low byte selects. -/
def tableOp (wlo : Byte) : TableOp := macroMap (subIndex wlo) (selField wlo)

/-- Decode a header-table word: total, since the words without a meaning have a row of their own (R312). -/
def decodeTableEntry (wlo whi : Byte) : Instr :=
  match tableOp wlo with
  | .mLbr => .mLbr (lowNibble wlo) whi
  | .mPrd => .mPrd (selField wlo) (lowPair wlo) whi
  | .mPbr => .mPbr (lowNibble wlo) whi
  | .mMrd => .mMrd (selField wlo) (lowPair wlo) whi
  | .mLit => .mLit (lowNibble wlo) whi
  | .mNib => .mNib (lowNibble wlo) whi
  | .mRmr => .mRmr (selField wlo) (lowPair wlo) whi
  | .mRle => .mRle (fillCount wlo) whi
  | .refused => .mRefused wlo whi

/-! ### LS11 symbols (R101 to R105, R160 to R164) -/

/-- The three registers one getCode leaves: ACC_A, CNT and ACC_B (R38). -/
structure CodeRead where
  accA : Nat
  cnt : Nat
  accB : Nat
  deriving DecidableEq, Repr

/-- The code value ACC_A + ACC_B (R162). -/
def CodeRead.value (c : CodeRead) : Nat := c.accA + c.accB

/-- getCode, phase A (R161): accumulate bits until a 0 has been read; answers ACC_A, CNT and the bits left. -/
def readUnary (acc cnt : Nat) : List Bool → Option (Nat × Nat × List Bool)
  | [] => none
  | b :: bits =>
    if b then readUnary (acc * 2 + b.toNat) (cnt + 1) bits
    else some (acc * 2 + b.toNat, cnt + 1, bits)

/-- getCode, phase B (R162): accumulate exactly `count` more bits. -/
def readBinary (acc : Nat) : Nat → List Bool → Option (Nat × List Bool)
  | 0, bits => some (acc, bits)
  | _ + 1, [] => none
  | count + 1, b :: bits => readBinary (acc * 2 + b.toNat) count bits

/-- getCode (R161, R162); none when the bits run out inside the code (R170). -/
def readCode (bits : List Bool) : Option (CodeRead × List Bool) :=
  match readUnary 0 0 bits with
  | none => none
  | some (accA, cnt, bits') =>
    match readBinary 0 cnt bits' with
    | none => none
    | some (accB, bits'') => some (⟨accA, cnt, accB⟩, bits'')

/-- A symbol whose codes have been read completely (R164, R167). -/
structure SymbolRead where
  /-- The first code (CODE). -/
  first : CodeRead
  /-- The length code of a match. -/
  second : Option CodeRead
  /-- The bits after the symbol. -/
  rest : List Bool
  deriving DecidableEq, Repr

/-- The symbol step's reading (R164): one code for a literal, two for a match, both before any effect (R167). -/
def readSymbol (bits : List Bool) : Option SymbolRead :=
  match readCode bits with
  | none => none
  | some (c, bits') =>
    if c.value < Config.lsLitLimit then some ⟨c, none, bits'⟩
    else
      match readCode bits' with
      | none => none
      | some (l, bits'') => some ⟨c, some l, bits''⟩

/-- The instruction of a symbol: LITC below 256 (R103), else MATCH with DIST = c − 256 and LEN = l + 3 (R104). -/
def SymbolRead.instr (r : SymbolRead) : Instr :=
  match r.second with
  | none => .litc (BitVec.ofNat 8 r.first.value)
  | some l => .matchSym (r.first.value - Config.lsLitLimit) (l.value + Config.lsMinMatch)

/-! ### FAT records (R106, R142, R143) -/

/-- Read one FAT record: CLEN, and unless it is 0 (the sentinel, of which only these four bytes are read, R143)
ULEN and OFF; and the bytes left. -/
def readFatRecord : List Byte → Except DecodeError ((Word32 × Word32 × Word32) × List Byte)
  | c0 :: c1 :: c2 :: c3 :: rest =>
    if be32 c0 c1 c2 c3 = 0 then .ok ((0, 0, 0), rest)
    else
      match rest with
      | u0 :: u1 :: u2 :: u3 :: o0 :: o1 :: o2 :: o3 :: rest' =>
        .ok ((be32 c0 c1 c2 c3, be32 u0 u1 u2 u3, be32 o0 o1 o2 o3), rest')
      | _ => .error .missingBytes
  | _ => .error .missingBytes

/-- The row of a record: the sentinel (R143), a verbatim entry or a coded one (R145). -/
def recordInstr (clen ulen off : Word32) : Instr :=
  if clen = 0 then .fatSentinel
  else if clen = ulen then .entryVerbatim clen off
  else .entryCoded clen ulen off

/-! ### One decoder for all four spaces -/

/-- An encoded instruction, tagged with its space. -/
inductive Encoded where
  | command (bytes : List Byte)
  | tableWord (wlo whi : Byte)
  | symbol (bits : List Bool)
  | fatRecord (bytes : List Byte)
  deriving DecidableEq, Repr

/-- The space of an encoding. -/
def Encoded.space : Encoded → Space
  | .command _ => .command
  | .tableWord _ _ => .tableWord
  | .symbol _ => .symbol
  | .fatRecord _ => .fatRecord

/-- Decode exactly one instruction. -/
def decode : Encoded → Except DecodeError Instr
  | .command bytes =>
    match decodeBytes bytes with
    | .ok (i, []) => .ok i
    | .ok (_, _ :: _) => .error .leftOver
    | .error e => .error e
  | .tableWord wlo whi => .ok (decodeTableEntry wlo whi)
  | .symbol bits =>
    match readSymbol bits with
    | none => .error .cutCode
    | some r => if r.rest = [] then .ok r.instr else .error .leftOver
  | .fatRecord bytes =>
    match readFatRecord bytes with
    | .ok ((clen, ulen, off), []) => .ok (recordInstr clen ulen off)
    | .ok (_, _ :: _) => .error .leftOver
    | .error e => .error e

/-! ### The encoder -/

/-- A byte from its high and its low nibble. -/
def nibbles (hi lo : BitVec 4) : Byte := hi ++ lo

/-- The byte {hi4, ss, kk}. -/
def nibblePairs (hi : BitVec 4) (s k : BitVec 2) : Byte := hi ++ (s ++ k : BitVec 4)

/-- The command or table byte of a fill count (R130: 0x9E + r). -/
def fillByte (r : Byte) : Byte := r + 0x9E

/-- The four bytes of a FAT field, most significant first (R75). -/
def bytesBE (v : Word32) : List Byte :=
  [v.extractLsb' 24 8, v.extractLsb' 16 8, v.extractLsb' 8 8, v.extractLsb' 0 8]

/-- The low `width` bits of a natural, most significant first (R77). -/
def natBits : Nat → Nat → List Bool
  | 0, _ => []
  | width + 1, v => v.testBit width :: natBits width v

/-- CNT of a code: the j + 1 with 2^(j+1) − 2 ≤ c ≤ 2^(j+2) − 3 (R102). -/
def codeCnt (c : Nat) : Nat := (c + 2).log2

/-- The encoding of a code (R102): j ones and a zero, then c − (2^(j+1) − 2) in j + 1 bits. -/
def encodeCode (c : Nat) : List Bool :=
  List.replicate (codeCnt c - 1) true ++ false :: natBits (codeCnt c) (c + 2 - 2 ^ codeCnt c)

/-- The encoding of an instruction (R101, R106, R120, R124, R130). -/
def encode : Instr → Encoded
  | .mac i => .command [(0#3 ++ i : Byte)]
  | .lbr n d => .command [nibbles 0x2 n, d]
  | .prd s c => .command [nibblePairs 0x3 s 0, c]
  | .prdn s c => .command [nibblePairs 0x3 s 1, c]
  | .prdl s c => .command [nibblePairs 0x3 s 2, c]
  | .prdr s c => .command [nibblePairs 0x3 s 3, c]
  | .pbr n c => .command [nibbles 0x4 n, c]
  | .mrd s k c => .command [nibblePairs 0x5 s k, c]
  | .mrdi s m c => .command [nibblePairs 0x5 3 s, m, c]
  | .pair n v1 v2 => .command [nibbles 0x6 n, v1, v2]
  | .lit n bs => .command (nibbles 0x7 n :: bs)
  | .nib n v => .command [nibbles 0x8 n, v]
  | .rmr s k c => .command [nibblePairs 0x9 s k, c]
  | .rmri s m c => .command [nibblePairs 0x9 3 s, m, c]
  | .rle r v => .command [fillByte r, v]
  | .mLbr n whi => .tableWord (nibbles 0x2 n) whi
  | .mPrd s t whi => .tableWord (nibblePairs 0x3 s t) whi
  | .mPbr n whi => .tableWord (nibbles 0x4 n) whi
  | .mMrd s k whi => .tableWord (nibblePairs 0x5 s k) whi
  | .mLit x whi => .tableWord (nibbles 0x7 x) whi
  | .mNib n whi => .tableWord (nibbles 0x8 n) whi
  | .mRmr s k whi => .tableWord (nibblePairs 0x9 s k) whi
  | .mRle r whi => .tableWord (fillByte r) whi
  | .mRefused wlo whi => .tableWord wlo whi
  | .litc c => .symbol (encodeCode c.toNat)
  | .matchSym dist len =>
    .symbol (encodeCode (dist + Config.lsLitLimit) ++ encodeCode (len - Config.lsMinMatch))
  | .fatSentinel => .fatRecord (bytesBE 0)
  | .entryVerbatim clen off => .fatRecord (bytesBE clen ++ bytesBE clen ++ bytesBE off)
  | .entryCoded clen ulen off => .fatRecord (bytesBE clen ++ bytesBE ulen ++ bytesBE off)

/-! ### The numbering of the opcode table -/

/-- The longest command, in bytes: LIT with sixteen literals (R121). -/
def longestCommand : Nat := 17

/-- The stream bytes of an instruction whose bits are `w`, the command byte first and every bit from `nbits` on
zero. -/
def wordBytes (nbits w : Nat) : List Byte :=
  (List.range longestCommand).map fun i => BitVec.ofNat 8 (w % 2 ^ nbits / 256 ^ i)

/-- What the decoder of the fetched space, the opcode stream, reads from those bytes. The header-table words, the
LS11 symbols and the FAT records are no part of that space (log entry 12). -/
def decodeTableWord (nbits w : Nat) : Option Instr :=
  match decodeBytes (wordBytes nbits w) with
  | .ok (i, _) => some i
  | .error _ => none

end Sys2Proof
end

