-- ==== Sys2Proof/Machine/State.lean ====
section
/-! DEFINITION. The state of KDC as plain data: one record per engine, every named register, array and flag of
R31 to R51 with its reset value, and the reasons a step can stop. A field's docstring cites the rule that names
it. -/

namespace Sys2Proof.Machine

/-! ### Memories -/

/-- An address space as (address, byte) pairs: addresses strictly rising, no entry 0. An unlisted address reads
0, the reset value of every writable cell (R37, R46, R47). -/
abbrev Memory := List Host.Cell

/-- A byte buffer: its length and its bytes. -/
structure Buffer where
  len : Nat
  cells : Memory
  deriving DecidableEq, Repr

/-! ### The LS11 engine -/

/-- LS_MODE (R51). -/
inductive LsMode where
  | decode | count
  deriving DecidableEq, Repr

/-- Where the call stands in the phases of R140. -/
inductive LsPhase where
  /-- R451 and R141 are to be executed. -/
  | start
  /-- The FAT record of index |FAT| is to be read (R142, R143). -/
  | fat
  /-- The FAT is to be validated (R144). -/
  | validate
  /-- The entry of index |LS_ENTRIES| is to be dispatched (R145), or the result written (R147). -/
  | entries
  /-- The symbol loop of a coded entry is running (R169). -/
  | symbols
  /-- The call has ended (R147). -/
  | ended
  deriving DecidableEq, Repr

/-- A FAT record (R36, R106). -/
structure FatRec where
  clen : Word32
  ulen : Word32
  off : Word32
  deriving DecidableEq, Repr

/-- The kind of an entry result (R40). -/
inductive EntryKind where
  | verbatim | coded
  deriving DecidableEq, Repr

/-- One element of LS_ENTRIES (R40). -/
structure EntryResult where
  data : Buffer
  kind : EntryKind
  produced : Nat
  short : Bool
  oob : Bool
  deriving DecidableEq, Repr

/-- LS_STATUS (R40). -/
inductive LsStatus where
  | ok | fault
  deriving DecidableEq, Repr

/-- LS_FAULT (R40, R402). -/
inductive LsFault where
  | none | hdrShort | fatTrunc | fatRange
  deriving DecidableEq, Repr

/-- The transient registers of R38. -/
structure LsRegs where
  accA : Nat
  cnt : Nat
  accB : Nat
  code : Nat
  dist : Nat
  len : Nat
  deriving DecidableEq, Repr

/-- The state of the LS11 engine. -/
structure Ls11 where
  /-- IN, the archive (R33); its length is L. -/
  input : Buffer
  /-- LS_MODE (R51). -/
  mode : LsMode
  /-- The phase of R140 the call is in. -/
  phase : LsPhase
  /-- HDR (R34). -/
  hdr : Memory
  /-- DICT (R35). -/
  dict : Memory
  /-- FAT (R36). -/
  fat : List FatRec
  /-- CLEN, ULEN and OFF of the current entry (R142, R145). -/
  cur : FatRec
  /-- BC, the bit cursor (R31). -/
  bc : Nat
  /-- EOUT; its length is ULEN (R37). -/
  eout : Memory
  /-- EP, the output cursor (R37). -/
  ep : Nat
  /-- ESHORT (R39). -/
  eshort : Bool
  /-- EOOB (R39). -/
  eoob : Bool
  /-- The transient registers (R38). -/
  regs : LsRegs
  /-- LS_STATUS (R40). -/
  status : LsStatus
  /-- LS_FAULT (R40). -/
  fault : LsFault
  /-- LS_FAULT_REC (R40). -/
  faultRec : Nat
  /-- LS_COUNT (R40). -/
  count : Nat
  /-- LS_ENTRIES (R40). -/
  entries : List EntryResult
  deriving DecidableEq, Repr

/-! ### The TF-DCE engine -/

/-- Whether the initialisation of R452 is still to be executed. -/
inductive TfPhase where
  | start | run
  deriving DecidableEq, Repr

/-- STATUS (R48, R405). -/
inductive TfStatus where
  | running | done | trunc | refused
  deriving DecidableEq, Repr

/-- PO[0..2] (R43). -/
structure PlaneOrder where
  o0 : BitVec 2
  o1 : BitVec 2
  o2 : BitVec 2
  deriving DecidableEq, Repr

/-- PC[0..3] (R44). -/
structure PatternCache where
  s0 : Byte
  s1 : Byte
  s2 : Byte
  s3 : Byte
  deriving DecidableEq, Repr

/-- PM[0..3] (R46): four address spaces of 6400 cells. -/
structure Planes where
  m0 : Memory
  m1 : Memory
  m2 : Memory
  m3 : Memory
  deriving DecidableEq, Repr

/-- The transient registers of R49; wlo and whi are the bytes of W. -/
structure TfRegs where
  cmd : Byte
  b1 : Byte
  b2 : Byte
  wm : Byte
  ra : Nat
  c : Nat
  d : Nat
  w : Word16
  deriving DecidableEq, Repr

/-- TF_REFUSE (R50). -/
structure TfRefuse where
  cmd : Byte
  offset : Nat
  wlo : Byte
  deriving DecidableEq, Repr

/-- The result registers of R50. -/
structure TfResult where
  out : Buffer
  emitted : Nat
  order : PlaneOrder
  status : TfStatus
  oob : Bool
  refuse : TfRefuse
  deriving DecidableEq, Repr

/-- The state of the TF-DCE engine. -/
structure TfDce where
  /-- IN, the face record (R41); its length is L. -/
  input : Buffer
  /-- Whether R452 is still to be executed. -/
  phase : TfPhase
  /-- SELB (R42). -/
  selb : Byte
  /-- N (R42). -/
  n : Byte
  /-- PO (R43). -/
  po : PlaneOrder
  /-- PC (R44). -/
  pc : PatternCache
  /-- PM (R46). -/
  pm : Planes
  /-- OUT (R47). -/
  out : Memory
  /-- P, the output cursor (R47). -/
  p : Nat
  /-- SP, the stream pointer (R32). -/
  sp : Nat
  /-- OOBF (R48). -/
  oobf : Bool
  /-- STATUS (R48). -/
  status : TfStatus
  /-- The transient registers (R49). -/
  regs : TfRegs
  /-- The result registers (R50). -/
  result : TfResult
  deriving DecidableEq, Repr

/-! ### The machine -/

/-- The two engines (R1). -/
inductive Engine where
  | ls11 | tfdce
  deriving DecidableEq, Repr

/-- The whole machine: both engines, which share no state (R30), and whose call the next step advances. -/
structure State where
  engine : Engine
  ls : Ls11
  tf : TfDce
  deriving DecidableEq, Repr

/-- Why the machine stops with a fault. -/
inductive Fault where
  /-- Raised by ENTRY.VERBATIM and ENTRY.CODED when the slice IN[OFF .. OFF+CLEN) does not lie inside IN: an
  address that does not exist (R72). R144 has rejected such a record before any entry is dispatched, so no run
  reaches it (log entry 10). Safe: the model stops where it has no byte to read. -/
  | inputRange
  deriving DecidableEq, Repr

/-- Why the machine answers no meaning. -/
inductive Refusal where
  /-- The instruction has no meaning yet. No arm of `exec` answers it in this model. Safe. -/
  | notModelled (mnemonic : String)
  deriving DecidableEq, Repr

/-! ### Reset (R450 to R453) -/

/-- An empty buffer. -/
def Buffer.empty : Buffer := ⟨0, []⟩

/-- The transient registers at the start of a symbol (R451). -/
def LsRegs.zero : LsRegs := ⟨0, 0, 0, 0, 0, 0⟩

/-- The transient registers at the start of an opcode (R49, R452). -/
def TfRegs.zero : TfRegs := ⟨0, 0, 0, 0, 0, 0, 0, 0⟩

/-- The default plane order TF_ORDER_DEFAULT (R6, R203). -/
def PlaneOrder.default : PlaneOrder := ⟨0, 2, 1⟩

/-- TF_CACHE_INIT (R6, R44). -/
def PatternCache.initial : PatternCache := ⟨0x00, 0xFF, 0x55, 0xAA⟩

/-- Every plane cell 0 (R46). -/
def Planes.empty : Planes := ⟨[], [], [], []⟩

/-- The result registers before the engine has stopped for the first time (log entry 7). -/
def TfResult.initial : TfResult :=
  { out := ⟨Config.tfOutLen, []⟩
    emitted := 0
    order := PlaneOrder.default
    status := .running
    oob := false
    refuse := ⟨0, 0, 0⟩ }

/-- The LS11 engine at the start of a call on `input` in mode `mode` (R451 step 1). -/
def Ls11.atStart (input : Buffer) (mode : LsMode) : Ls11 :=
  { input := input
    mode := mode
    phase := .start
    hdr := []
    dict := []
    fat := []
    cur := ⟨0, 0, 0⟩
    bc := 0
    eout := []
    ep := 0
    eshort := false
    eoob := false
    regs := LsRegs.zero
    status := .ok
    fault := .none
    faultRec := 0
    count := 0
    entries := [] }

/-- The TF-DCE engine at the start of a call on `input`, before the header load: the header registers hold what
R200 to R203 give for SELB = 0 and N = 0 (log entry 5), every other register its reset value (R452). -/
def TfDce.atStart (input : Buffer) : TfDce :=
  { input := input
    phase := .start
    selb := 0
    n := 0
    po := PlaneOrder.default
    pc := PatternCache.initial
    pm := Planes.empty
    out := []
    p := 0
    sp := Config.tfHtBase
    oobf := false
    status := .running
    regs := TfRegs.zero
    result := TfResult.initial }

/-- The machine right after reset: both engines at the start of a call whose input the caller has not supplied
yet (R450; log entry 2). -/
def State.reset : State :=
  { engine := .tfdce
    ls := Ls11.atStart Buffer.empty .decode
    tf := TfDce.atStart Buffer.empty }

end Sys2Proof.Machine
end

