-- ==== Sys2Proof/Machine/Operands.lean ====
section
/-! DEFINITION. Operand forms: the pure functions that turn raw fields and cursors into counts, distances,
masks, planes and addresses (R10, R44, R45, R81, R111, R202, R204, R262). -/

namespace Sys2Proof.Machine

/-! ### Rotations (R10) -/

/-- rol8(v, n) (R10). -/
def rol8 (v : Byte) (n : Nat) : Byte := v.rotateLeft n

/-- ror8(v, n) (R10). -/
def ror8 (v : Byte) (n : Nat) : Byte := v.rotateRight n

/-- rol16(w, n) (R10). -/
def rol16 (w : Word16) (n : Nat) : Word16 := w.rotateLeft n

/-- nibswap(v) = rol8(v, 4) (R10). -/
def nibswap (v : Byte) : Byte := rol8 v 4

/-- NibPair(v) (R262): the two bytes of rol16({v, nibswap(v)}, 4), the high byte first. -/
def nibPair (v : Byte) : Byte × Byte :=
  let w : Word16 := rol16 (v ++ nibswap v : Word16) 4
  (w.extractLsb' 8 8, w.extractLsb' 0 8)

/-- The four transforms of PlaneXform, by t (R242): none, complement, rotate left 1, rotate right 1. -/
def planeTransform (t : BitVec 2) (v : Byte) : Byte :=
  if t = 0 then v else if t = 1 then ~~~v else if t = 2 then rol8 v 1 else ror8 v 1

/-- RA, the rotate amount of RotMaskRead (R266). -/
def rotateAmount (m : Byte) : Nat := if m = 0x55 ∨ m = 0xAA then 1 else 2

/-! ### Counts and distances (R111): unbounded, never wrapped -/

/-- count = byte + 2. -/
def byteCount (b : Byte) : Nat := b.toNat + 2

/-- The count n4 + 3 of LBR and M.LBR. -/
def copyCount (n : BitVec 4) : Nat := n.toNat + 3

/-- n4 + 1: the distance of PBR and M.PBR, the repeats of PAIR and NIB, the length of LIT. -/
def nibbleCount (n : BitVec 4) : Nat := n.toNat + 1

/-- The distance of M.LBR: whi, or 1 when whi is 0 (R304). -/
def tableDistance (whi : Byte) : Nat := if whi = 0 then 1 else whi.toNat

/-! ### The plane order (R43, R81, R202, R203) -/

/-- PLANE_ORDER_TABLE (R202, R203; a named parameter of R8). -/
def planeOrderTable (selb : Byte) : PlaneOrder :=
  if selb = 0xC6 then ⟨0, 1, 2⟩
  else if selb = 0xC9 then ⟨0, 2, 1⟩
  else if selb = 0xD2 then ⟨1, 0, 2⟩
  else if selb = 0xD8 then ⟨1, 2, 0⟩
  else if selb = 0xE1 then ⟨2, 0, 1⟩
  else if selb = 0xE4 then ⟨2, 1, 0⟩
  else PlaneOrder.default

/-- PO[i] (R43). -/
def PlaneOrder.get (po : PlaneOrder) (i : Nat) : BitVec 2 :=
  if i = 0 then po.o0 else if i = 1 then po.o1 else po.o2

/-- sec(p) = floor(p / 640) (R205). -/
def sec (p : Nat) : Nat := p / Config.tfSecLen

/-- The destination plane of position p, PO[sec(p)] (R205). -/
def destPlane (po : PlaneOrder) (p : Nat) : BitVec 2 := po.get (sec p)

/-- Plane(s) at position p (R81): PO[s], or the destination plane for s = 3. -/
def selectedPlane (po : PlaneOrder) (s : BitVec 2) (p : Nat) : BitVec 2 :=
  if s = 3 then destPlane po p else po.get s.toNat

/-- zz(p), the zig-zag map (R204). -/
def zigzag (p : Nat) : Nat :=
  let o := p % Config.tfSecLen
  let col := o / Config.tfRowLen
  let i := o % Config.tfRowLen
  let row := if col % 2 = 0 then i else Config.tfRowLen - 1 - i
  row * Config.tfRowLen + col

/-! ### The pattern cache (R44, R45) -/

/-- PC[j] (R44). -/
def PatternCache.get (pc : PatternCache) (j : BitVec 2) : Byte :=
  if j = 0 then pc.s0 else if j = 1 then pc.s1 else if j = 2 then pc.s2 else pc.s3

/-- Age(j) (R44): swap slot j with its left neighbour; slot 0 has none. -/
def PatternCache.age (pc : PatternCache) (j : BitVec 2) : PatternCache :=
  if j = 0 then pc
  else if j = 1 then { pc with s0 := pc.s1, s1 := pc.s0 }
  else if j = 2 then { pc with s1 := pc.s2, s2 := pc.s1 }
  else { pc with s2 := pc.s3, s3 := pc.s2 }

/-- Promote(m) (R45). -/
def PatternCache.promote (pc : PatternCache) (m : Byte) : PatternCache :=
  { pc with s2 := m, s3 := pc.s2 }

/-! ### Header-table words (R49, R76) -/

/-- wlo = W[7:0]. -/
def wordLow (w : Word16) : Byte := w.extractLsb' 0 8

/-- whi = W[15:8]. -/
def wordHigh (w : Word16) : Byte := w.extractLsb' 8 8

end Sys2Proof.Machine
end

