-- ==== Sys2Proof/Machine/Flags.lean ====
section
/-! DEFINITION. Every flag computation: when a read counts as out of range (R73, R78, R80, R200, R301), when an
entry is short (R171), and the numbers of the fault codes (R402). No instruction reads a flag (R52). -/

namespace Sys2Proof.Machine

/-- OutRead(d) at P is out of range: its position P − d is not in [0, P) (R78). -/
def outReadOob (p d : Nat) : Bool := d == 0 || p < d

/-- DestRead(d) at P is out of range: zz(P) − d is not in [0, 6400) (R80). -/
def destReadOob (p d : Nat) : Bool := zigzag p < d || Config.tfPlaneLen ≤ zigzag p - d

/-- The header load finds byte 7 or byte 9 missing (R200). -/
def headerOob (len : Nat) : Bool := len ≤ Config.tfSelOff || len ≤ Config.tfNOff

/-- Byte `off` of the header table is past the table or past the buffer (R301). -/
def tableReadOob (n : Byte) (len off : Nat) : Bool := 2 * n.toNat ≤ off || len ≤ Config.tfHtBase + off

/-- EORead(EP − DIST) is out of range: the position is negative or not yet written (R73, R166). -/
def eoReadOob (ep dist : Nat) : Bool := dist == 0 || ep < dist

/-- ESHORT at the end of a coded entry (R171). -/
def entryShort (ep ulen : Nat) : Bool := ep < ulen

/-- The numbers a model may give the fault codes (R402). -/
def LsFault.number : LsFault → Nat
  | .none => 0
  | .hdrShort => 1
  | .fatTrunc => 2
  | .fatRange => 3

end Sys2Proof.Machine
end

