-- ==== Sys2Proof/Machine/Ops.lean ====
section
/-! DEFINITION. The named operations over memory, buffers and registers: the read primitives with the zero-fill
policy, Emit, the generic bodies of R240 to R271, the LS11 operations, and the three ways an engine ends
(`Ls11.raise` R401, `TfDce.haltTrunc` R210, `TfDce.refuse` R408). No outcome transfers control to a handler and
nothing returns from one (R407, R409), so ending the call is the whole of taking an exception here. -/

namespace Sys2Proof.Machine

/-! ### Memory -/

/-- The byte at an address; an unlisted address reads 0. -/
def Memory.read : Memory → Nat → Byte
  | [], _ => 0
  | (k, b) :: m, a => if k = a then b else Memory.read m a

/-- Store a byte, keeping the canonical form: writing 0 removes the entry. -/
def Memory.write : Memory → Nat → Byte → Memory
  | [], a, v => if v = 0 then [] else [(a, v)]
  | (k, b) :: m, a, v =>
    if k < a then (k, b) :: Memory.write m a v
    else if k = a then (if v = 0 then m else (a, v) :: m)
    else (if v = 0 then (k, b) :: m else (a, v) :: (k, b) :: m)

/-- The canonical form: addresses strictly rising, and no entry equal to what an unlisted address reads as. -/
abbrev Memory.wf (m : Memory) : Prop :=
  m.Pairwise (fun x y => x.1 < y.1) ∧ ∀ c ∈ m, c.2 ≠ 0

/-- Every listed address is below a bound. -/
abbrev Memory.below (m : Memory) (bound : Nat) : Prop := ∀ c ∈ m, c.1 < bound

/-- The memory [off, off + len), moved to address 0. -/
def Memory.slice (m : Memory) (off len : Nat) : Memory :=
  (m.filter fun c => off ≤ c.1 && c.1 < off + len).map fun c => (c.1 - off, c.2)

/-- Bytes laid out from an address on. -/
def Memory.ofBytes (a : Nat) : List Byte → Memory
  | [] => []
  | b :: bs => if b = 0 then Memory.ofBytes (a + 1) bs else (a, b) :: Memory.ofBytes (a + 1) bs

/-- Store bytes from an address on. -/
def Memory.writeBytes (m : Memory) (a : Nat) : List Byte → Memory
  | [] => m
  | b :: bs => Memory.writeBytes (m.write a b) (a + 1) bs

/-! ### Buffers -/

/-- A buffer holding the given bytes. -/
def Buffer.ofBytes (bs : List Byte) : Buffer := ⟨bs.length, Memory.ofBytes 0 bs⟩

/-- MemRead(a, 1) (R72). -/
def Buffer.read (b : Buffer) (a : Nat) : Byte := b.cells.read a

/-- The at most `n` bytes from `a` on that lie inside the buffer. -/
def Buffer.bytesFrom (b : Buffer) (a : Nat) : Nat → List Byte
  | 0 => []
  | n + 1 => if a < b.len then b.read a :: Buffer.bytesFrom b (a + 1) n else []

/-- MemRead(off, len) as a buffer (R72, R145). -/
def Buffer.slice (b : Buffer) (off len : Nat) : Buffer := ⟨len, b.cells.slice off len⟩

/-- A buffer in canonical form holds its memory in canonical form, inside its length. -/
abbrev Buffer.wf (b : Buffer) : Prop := b.cells.wf ∧ b.cells.below b.len

/-! ### Plane memory (R46, R79) -/

/-- The memory of plane k. -/
def Planes.get (pm : Planes) (k : BitVec 2) : Memory :=
  if k = 0 then pm.m0 else if k = 1 then pm.m1 else if k = 2 then pm.m2 else pm.m3

/-- PlaneRead(k, a) (R79). -/
def Planes.read (pm : Planes) (k : BitVec 2) (a : Nat) : Byte := (pm.get k).read a

/-- PM[k][a] <- v. -/
def Planes.write (pm : Planes) (k : BitVec 2) (a : Nat) (v : Byte) : Planes :=
  if k = 0 then { pm with m0 := pm.m0.write a v }
  else if k = 1 then { pm with m1 := pm.m1.write a v }
  else if k = 2 then { pm with m2 := pm.m2.write a v }
  else { pm with m3 := pm.m3.write a v }

/-- Every plane memory is in canonical form. -/
abbrev Planes.wf (pm : Planes) : Prop := pm.m0.wf ∧ pm.m1.wf ∧ pm.m2.wf ∧ pm.m3.wf

/-! ### TF-DCE: emission and the ends of a run -/

/-- Emit(v) (R207, R208): append to OUT, write the destination plane, advance P, and end the opcode when the
output is full. Its precondition P < 1920 holds in every run; where it does not, the output is full already and
the byte is dropped (log entry 9). -/
def TfDce.emit (v : Byte) (t : TfDce) : TfDce :=
  if t.p < Config.tfOutLen then
    { t with
      out := t.out.write t.p v
      pm := t.pm.write (destPlane t.po t.p) (zigzag t.p) v
      p := t.p + 1
      status := if t.p + 1 = Config.tfOutLen then .done else t.status }
  else { t with status := .done }

/-- Go on only while the opcode has not been ended (R208, R210). -/
def TfDce.andThen (t : TfDce) (f : TfDce → TfDce) : TfDce :=
  if t.status = .running then f t else t

/-- `for i in 0..count-1: body`, ended early when an Emit ends the opcode (R208, R209). -/
def TfDce.loop (body : TfDce → TfDce) : Nat → TfDce → TfDce
  | 0, t => t
  | count + 1, t => if t.status = .running then TfDce.loop body count (body t) else t

/-- halt(TRUNC) (R210): the stream is exhausted. -/
def TfDce.haltTrunc (t : TfDce) : TfDce := { t with status := .trunc }

/-- refuse(MACRO_UNDEFINED) (R312, R408): STATUS and TF_REFUSE are written, nothing else changes. -/
def TfDce.refuse (wlo : Byte) (t : TfDce) : TfDce :=
  { t with
    status := .refused
    result := { t.result with refuse := ⟨t.regs.cmd, t.sp - 1, wlo⟩ } }

/-- The engine has stopped and writes its result registers (R50, R213). TF_REFUSE was written by `refuse`. -/
def TfDce.writeResult (t : TfDce) : TfDce :=
  { t with
    result :=
      { t.result with
        out := ⟨Config.tfOutLen, t.out⟩
        emitted := t.p
        order := t.po
        status := t.status
        oob := t.oobf } }

/-- The dispatch loop stops with the given status (R212, R213). -/
def TfDce.stop (status : TfStatus) (t : TfDce) : TfDce :=
  TfDce.writeResult { t with status := status }

/-! ### TF-DCE: reads with the zero-fill policy -/

/-- OutRead(d) (R78): the byte, and the state with OOBF set when the source is out of range. -/
def TfDce.outRead (d : Nat) (t : TfDce) : Byte × TfDce :=
  if outReadOob t.p d then (0, { t with oobf := true }) else (t.out.read (t.p - d), t)

/-- DestRead(d) (R80): the destination plane of the byte being emitted, at zz(P) − d. -/
def TfDce.destRead (d : Nat) (t : TfDce) : Byte × TfDce :=
  if destReadOob t.p d then (0, { t with oobf := true })
  else (t.pm.read (destPlane t.po t.p) (zigzag t.p - d), t)

/-- PlaneRead(Plane(s), zz(P)) (R79, R81). -/
def TfDce.planeByte (s : BitVec 2) (t : TfDce) : Byte :=
  t.pm.read (selectedPlane t.po s t.p) (zigzag t.p)

/-- Byte `off` of the header table, 0 when it is out of range (R301). -/
def TfDce.tableByte (t : TfDce) (off : Nat) : Byte :=
  if tableReadOob t.n t.input.len off then 0 else t.input.read (Config.tfHtBase + off)

/-- HTRead(i) (R301): W <- byte_0 + 256·byte_1, with OOBF set when either byte is out of range. -/
def TfDce.htRead (i : BitVec 5) (t : TfDce) : TfDce :=
  { t with
    regs := { t.regs with w := t.tableByte (2 * i.toNat + 1) ++ t.tableByte (2 * i.toNat) }
    oobf :=
      t.oobf || tableReadOob t.n t.input.len (2 * i.toNat)
        || tableReadOob t.n t.input.len (2 * i.toNat + 1) }

/-! ### TF-DCE: the generic bodies -/

/-- Emit what a zero-fill read answers, in the state it leaves. -/
def TfDce.emitRead (r : Byte × TfDce) : TfDce := r.2.emit r.1

/-- LinCopy(C, D) (R240). -/
def TfDce.linCopy (c d : Nat) (t : TfDce) : TfDce :=
  TfDce.loop (fun u => TfDce.emitRead (u.outRead u.regs.d)) c
    { t with regs := { t.regs with c := c, d := d } }

/-- The source byte of PlaneXform (R242): the last emitted byte while P < 640, else the selected plane. -/
def TfDce.planeSource (s : BitVec 2) (t : TfDce) : Byte × TfDce :=
  if t.p < Config.tfSecLen then t.outRead 1 else (t.planeByte s, t)

/-- PlaneXform(s, t, C) (R242). -/
def TfDce.planeXform (s x : BitVec 2) (c : Nat) (t : TfDce) : TfDce :=
  TfDce.loop (fun u => (u.planeSource s).2.emit (planeTransform x (u.planeSource s).1)) c
    { t with regs := { t.regs with c := c } }

/-- PlaneCopy(C, D) (R250). -/
def TfDce.planeCopy (c d : Nat) (t : TfDce) : TfDce :=
  TfDce.loop (fun u => TfDce.emitRead (u.destRead u.regs.d)) c
    { t with regs := { t.regs with c := c, d := d } }

/-- MaskRead(s, m, C) (R252). -/
def TfDce.maskRead (s : BitVec 2) (m : Byte) (c : Nat) (t : TfDce) : TfDce :=
  TfDce.loop (fun u => u.emit (u.planeByte s &&& m)) c { t with regs := { t.regs with c := c } }

/-- WM <- rol8(WM, RA) (R266). -/
def TfDce.rotateMask (t : TfDce) : TfDce :=
  { t with regs := { t.regs with wm := rol8 t.regs.wm t.regs.ra } }

/-- RotMaskRead(s, m, C) (R266): the byte is emitted with WM and then WM is rotated (R461); PC is not written. -/
def TfDce.rotMaskRead (s : BitVec 2) (m : Byte) (c : Nat) (t : TfDce) : TfDce :=
  TfDce.loop (fun u => (u.emit (u.planeByte s &&& u.regs.wm)).andThen TfDce.rotateMask) c
    { t with regs := { t.regs with c := c, wm := m, ra := rotateAmount m } }

/-- Emit a pair `c` times: the body of PAIR and NIB (R256, R263). -/
def TfDce.pairRun (b0 b1 : Byte) (c : Nat) (t : TfDce) : TfDce :=
  TfDce.loop (fun u => (u.emit b0).andThen (TfDce.emit b1)) c { t with regs := { t.regs with c := c } }

/-- Fill(v, C) (R271). -/
def TfDce.fill (v : Byte) (c : Nat) (t : TfDce) : TfDce :=
  TfDce.loop (TfDce.emit v) c { t with regs := { t.regs with c := c } }

/-- The body of LIT (R258): each literal is read from the stream, which advances SP, and then emitted. -/
def TfDce.litRun : List Byte → TfDce → TfDce
  | [], t => t
  | b :: bs, t =>
    if t.status = .running then TfDce.litRun bs (({ t with sp := t.sp + 1 } : TfDce).emit b) else t

/-- PC <- Age(j) (R44). -/
def TfDce.ageSlot (j : BitVec 2) (t : TfDce) : TfDce := { t with pc := t.pc.age j }

/-- PC <- Promote(m) (R45). -/
def TfDce.promoteMask (m : Byte) (t : TfDce) : TfDce := { t with pc := t.pc.promote m }

/-! ### TF-DCE: the start of a call (R452) -/

/-- A header byte; a missing one reads 0 (R200). -/
def Buffer.headerByte (b : Buffer) (a : Nat) : Byte := if a < b.len then b.read a else 0

/-- The initialisation of R452 on the caller's buffer: the header load (R200), the stream start (R201) and the
plane order (R202), and every other register at its reset value. -/
def TfDce.initialise (input : Buffer) : TfDce :=
  { TfDce.atStart input with
    phase := .run
    oobf := headerOob input.len
    selb := input.headerByte Config.tfSelOff
    n := input.headerByte Config.tfNOff
    po := planeOrderTable (input.headerByte Config.tfSelOff)
    sp := Config.tfHtBase + 2 * (input.headerByte Config.tfNOff).toNat }

/-! ### LS11: the container -/

/-- raise X(i) (R401, R147): the call ends, the fault is recorded and no entry is returned. -/
def Ls11.raise (x : LsFault) (i : Nat) (l : Ls11) : Ls11 :=
  { l with
    phase := .ended
    status := .fault
    fault := x
    faultRec := i
    count := 0
    entries := [] }

/-- The result of a call without a fault (R146, R147): LS_ENTRIES holds what the entries have appended. -/
def Ls11.finish (l : Ls11) : Ls11 :=
  { l with
    phase := .ended
    status := .ok
    fault := .none
    faultRec := 0
    count := l.fat.length }

/-- The start of a call: R451 step 1, then the header and dictionary load (R141). -/
def Ls11.initialise (input : Buffer) (mode : LsMode) : Ls11 :=
  if input.len < Config.lsFatBase then (Ls11.atStart input mode).raise .hdrShort 0
  else
    { Ls11.atStart input mode with
      phase := .fat
      hdr := input.cells.slice 0 Config.lsHdrLen
      dict := input.cells.slice Config.lsDictBase Config.lsDictLen }

/-- The bytes of FAT record i that lie inside the archive, i = |FAT| (R71, R142). -/
def Ls11.recordBytes (l : Ls11) : List Byte :=
  l.input.bytesFrom (Config.lsFatBase + Config.lsRecLen * l.fat.length) Config.lsRecLen

/-- Append a record to FAT (R142). -/
def Ls11.appendRecord (r : FatRec) (l : Ls11) : Ls11 := { l with cur := r, fat := l.fat ++ [r] }

/-- The sentinel stops the parse (R143). -/
def Ls11.endFat (l : Ls11) : Ls11 := { l with phase := .validate }

/-- The index of the first record with OFF + CLEN > L (R144), counting from `i`. -/
def firstOutOfRange (len : Nat) (i : Nat) : List FatRec → Option Nat
  | [] => none
  | r :: rs => if len < r.off.toNat + r.clen.toNat then some i else firstOutOfRange len (i + 1) rs

/-- FAT validation (R144), and after it the count result or the first entry (R140, R146). -/
def Ls11.validate (l : Ls11) : Ls11 :=
  match firstOutOfRange l.input.len 0 l.fat with
  | some i => l.raise .fatRange i
  | none =>
    match l.mode with
    | .count => l.finish
    | .decode => { l with phase := .entries }

/-- The slice IN[off .. off+clen) lies inside IN (R72, R144). -/
def Ls11.sliceInside (l : Ls11) (off clen : Word32) : Bool := off.toNat + clen.toNat ≤ l.input.len

/-- Append an entry result to LS_ENTRIES (R145). -/
def Ls11.appendEntry (e : EntryResult) (l : Ls11) : Ls11 := { l with entries := l.entries ++ [e] }

/-- ESHORT and EOOB are reset to false at the start of each entry, verbatim or coded (R39). -/
def Ls11.clearFlags (l : Ls11) : Ls11 := { l with eshort := false, eoob := false }

/-- The verbatim entry (R148): the flags are reset (R39), and no per-entry register is used (R451). -/
def Ls11.verbatimEntry (clen off : Word32) (l : Ls11) : Ls11 :=
  l.clearFlags.appendEntry
    { data := l.input.slice off.toNat clen.toNat
      kind := .verbatim
      produced := clen.toNat
      short := false
      oob := false }

/-- The start of a coded entry (R39, R145, R169, R451 step 2). -/
def Ls11.beginCoded (r : FatRec) (l : Ls11) : Ls11 :=
  { l.clearFlags with
    phase := .symbols
    cur := r
    bc := 0
    eout := []
    ep := 0 }

/-- The end of a coded entry (R171). -/
def Ls11.endEntry (l : Ls11) : Ls11 :=
  Ls11.appendEntry
    { data := ⟨l.cur.ulen.toNat, l.eout⟩
      kind := .coded
      produced := l.ep
      short := entryShort l.ep l.cur.ulen.toNat
      oob := l.eoob }
    { l with phase := .entries, eshort := entryShort l.ep l.cur.ulen.toNat }

/-! ### LS11: bits and symbols -/

/-- The bits of the current slice (R31, R160). -/
def Ls11.sliceBits (l : Ls11) : Nat := 8 * l.cur.clen.toNat

/-- Bit i of the slice: bit 7 − (i mod 8) of slice byte floor(i/8) (R31, R77, R160). -/
def Ls11.bitAt (l : Ls11) (i : Nat) : Bool :=
  (l.input.read (l.cur.off.toNat + i / 8)).getLsbD (7 - i % 8)

/-- The `n` bits from bit `i` on, in reading order. -/
def Ls11.bitsFrom (l : Ls11) (i : Nat) : Nat → List Bool
  | 0 => []
  | n + 1 => l.bitAt i :: Ls11.bitsFrom l (i + 1) n

/-- The bits not yet consumed, BC to the end of the slice: the successive answers of ReadBit (R160). -/
def Ls11.pendingBits (l : Ls11) : List Bool := l.bitsFrom l.bc (l.sliceBits - l.bc)

/-- The symbol loop goes on: EP < ULEN and BC < 8·CLEN (R169). -/
def Ls11.symbolsLeft (l : Ls11) : Bool := l.ep < l.cur.ulen.toNat && l.bc < l.sliceBits

/-- The bits a code has: 2·CNT (R101). -/
def codeBits (c : CodeRead) : Nat := 2 * c.cnt

/-- The bits a symbol has. -/
def symbolBits (r : SymbolRead) : Nat :=
  codeBits r.first + (match r.second with | none => 0 | some c => codeBits c)

/-- The registers after the codes of a symbol have been read (R38, R160 to R164): BC past them, CODE the
symbol's code, and ACC_A, CNT and ACC_B those of the last getCode. -/
def Ls11.consume (r : SymbolRead) (l : Ls11) : Ls11 :=
  { l with
    bc := l.bc + symbolBits r
    regs :=
      { accA := (r.second.getD r.first).accA
        cnt := (r.second.getD r.first).cnt
        accB := (r.second.getD r.first).accB
        code := r.first.value
        dist := 0
        len := 0 } }

/-- A symbol cut off by the end of the slice ends the entry and emits nothing (R170). -/
def Ls11.cutEntry (l : Ls11) : Ls11 :=
  Ls11.endEntry { l with bc := l.sliceBits, regs := LsRegs.zero }

/-- EOUT[EP] <- v; EP <- EP + 1. EP < ULEN holds in every run (R165, R166); where it does not, the byte is
dropped as R168 drops what is past the target (log entry 9). -/
def Ls11.putByte (v : Byte) (l : Ls11) : Ls11 :=
  if l.ep < l.cur.ulen.toNat then { l with eout := l.eout.write l.ep v, ep := l.ep + 1 } else l

/-- The literal (R165). -/
def Ls11.literal (c : Byte) (l : Ls11) : Ls11 := l.putByte (l.dict.read c.toNat)

/-- EORead(EP − DIST) (R73): 0 out of range. -/
def Ls11.eoRead (l : Ls11) : Byte :=
  if eoReadOob l.ep l.regs.dist then 0 else l.eout.read (l.ep - l.regs.dist)

/-- One byte of a match copy (R166). -/
def Ls11.copyByte (l : Ls11) : Ls11 :=
  Ls11.putByte l.eoRead { l with eoob := l.eoob || eoReadOob l.ep l.regs.dist }

/-- The copy loop of a match, stopped at ULEN (R166, R168). -/
def Ls11.copyLoop : Nat → Ls11 → Ls11
  | 0, l => l
  | n + 1, l => if l.ep < l.cur.ulen.toNat then Ls11.copyLoop n l.copyByte else l

/-- The match (R166). -/
def Ls11.matchCopy (dist len : Nat) (l : Ls11) : Ls11 :=
  Ls11.copyLoop len { l with regs := { l.regs with dist := dist, len := len } }

/-! ### Outcomes -/

/-- The outcome of one step of this machine. -/
abbrev Result := Host.Outcome State Fault Refusal

/-- An effect on the TF-DCE engine alone (R30). -/
def onTf (f : TfDce → TfDce) (s : State) : Result := .next { s with tf := f s.tf }

/-- An effect on the LS11 engine alone (R30). -/
def onLs (f : Ls11 → Ls11) (s : State) : Result := .next { s with ls := f s.ls }

/-- An effect on the LS11 engine that reads a slice of IN, which must exist (R72). -/
def onSlice (off clen : Word32) (f : Ls11 → Ls11) (s : State) : Result :=
  if s.ls.sliceInside off clen then onLs f s else .fault .inputRange

end Sys2Proof.Machine
end

