-- ==== Sys2Proof/Machine/Archive.lean ====
section
/-! DEFINITION. The meanings of the LS11 symbols (R165, R166) and of the FAT records (R143, R148, R169). The
codes of a symbol have been read when its meaning runs (R164, R167). -/

namespace Sys2Proof.Machine

/-- LITC c (R165): EOUT[EP] <- DICT[c]; EP <- EP + 1. -/
def execLitc (c : Byte) (s : State) : Result := onLs (Ls11.literal c) s

/-- MATCH d, l (R166): copy l bytes from distance d, one at a time, up to ULEN. -/
def execMatchSym (dist len : Nat) (s : State) : Result := onLs (Ls11.matchCopy dist len) s

/-- FAT.SENTINEL (R143): stop parsing; nothing is appended. -/
def execFatSentinel (s : State) : Result := onLs Ls11.endFat s

/-- ENTRY.VERBATIM (R148): the entry result is the slice itself. -/
def execEntryVerbatim (clen off : Word32) (s : State) : Result :=
  onSlice off clen (Ls11.verbatimEntry clen off) s

/-- ENTRY.CODED (R169): start the symbol loop over the slice with target ULEN. The loop then runs one symbol a
step (R464) and `Ls11.endEntry` ends it (R171). -/
def execEntryCoded (clen ulen off : Word32) (s : State) : Result :=
  onSlice off clen (Ls11.beginCoded ⟨clen, ulen, off⟩) s

end Sys2Proof.Machine
end

