-- ==== Sys2Proof/Machine/Commands.lean ====
section
/-! DEFINITION. The meanings of the TF-DCE commands 0x20 to 0xFF (R240 to R272). The command byte and its fixed
operand bytes have been read when a meaning runs (R211, R212); LIT reads its literals itself (R258). -/

namespace Sys2Proof.Machine

/-- LBR n, d (R241): LinCopy(n + 3, d). -/
def execLbr (n : BitVec 4) (d : Byte) (s : State) : Result :=
  onTf (TfDce.linCopy (copyCount n) d.toNat) s

/-- PRD s, c (R243): PlaneXform(sel, 0, c + 2). -/
def execPrd (sel : BitVec 2) (c : Byte) (s : State) : Result :=
  onTf (TfDce.planeXform sel 0 (byteCount c)) s

/-- PRDN s, c (R244): PlaneXform(sel, 1, c + 2). -/
def execPrdn (sel : BitVec 2) (c : Byte) (s : State) : Result :=
  onTf (TfDce.planeXform sel 1 (byteCount c)) s

/-- PRDL s, c (R245): PlaneXform(sel, 2, c + 2). -/
def execPrdl (sel : BitVec 2) (c : Byte) (s : State) : Result :=
  onTf (TfDce.planeXform sel 2 (byteCount c)) s

/-- PRDR s, c (R246): PlaneXform(sel, 3, c + 2). -/
def execPrdr (sel : BitVec 2) (c : Byte) (s : State) : Result :=
  onTf (TfDce.planeXform sel 3 (byteCount c)) s

/-- PBR n, c (R251): PlaneCopy(c + 2, n + 1). -/
def execPbr (n : BitVec 4) (c : Byte) (s : State) : Result :=
  onTf (TfDce.planeCopy (byteCount c) (nibbleCount n)) s

/-- MRD s, k, c (R253): the mask of slot k is read before the slot is aged (R460). -/
def execMrd (sel k : BitVec 2) (c : Byte) (s : State) : Result :=
  onTf (fun t => (t.ageSlot k).maskRead sel (t.pc.get k) (byteCount c)) s

/-- MRDI s, m, c (R254): the mask is promoted before the first emission (R460). -/
def execMrdi (sel : BitVec 2) (m c : Byte) (s : State) : Result :=
  onTf (fun t => (t.promoteMask m).maskRead sel m (byteCount c)) s

/-- PAIR n, v1, v2 (R256): the pair n + 1 times. -/
def execPair (n : BitVec 4) (v1 v2 : Byte) (s : State) : Result :=
  onTf (TfDce.pairRun v1 v2 (nibbleCount n)) s

/-- LIT n, b0, …, bn (R258): each literal is read and emitted; where the stream ends before the n + 1 literals
have been read, and the output is not full, the next read halts with TRUNC (R210, R211). -/
def execLit (n : BitVec 4) (bs : List Byte) (s : State) : Result :=
  onTf
    (fun t =>
      (t.litRun (bs.take (nibbleCount n))).andThen fun u =>
        if bs.length < nibbleCount n then u.haltTrunc else u)
    s

/-- NIB n, v (R263): NibPair(v), n + 1 times. -/
def execNib (n : BitVec 4) (v : Byte) (s : State) : Result :=
  onTf (TfDce.pairRun (nibPair v).1 (nibPair v).2 (nibbleCount n)) s

/-- RMR s, k, c (R267): as MRD, with the rotating mask. -/
def execRmr (sel k : BitVec 2) (c : Byte) (s : State) : Result :=
  onTf (fun t => (t.ageSlot k).rotMaskRead sel (t.pc.get k) (byteCount c)) s

/-- RMRI s, m, c (R268): as MRDI, with the rotating mask; the unrotated mask is promoted. -/
def execRmri (sel : BitVec 2) (m c : Byte) (s : State) : Result :=
  onTf (fun t => (t.promoteMask m).rotMaskRead sel m (byteCount c)) s

/-- RLE r, v (R272): Fill(v, r), the count r being cmd − 0x9E. -/
def execRle (r v : Byte) (s : State) : Result := onTf (TfDce.fill v r.toNat) s

end Sys2Proof.Machine
end

