-- ==== Sys2Proof/Machine/TableWords.lean ====
section
/-! DEFINITION. The meanings of the header-table words (R304 to R312) and of MAC, the command 0x00 to 0x1F that
executes one (R300). A word's operation takes no stream byte and reads no other word (R313, R314). -/

namespace Sys2Proof.Machine

/-- M.LBR (R304): LinCopy(w4 + 3, whi), where whi = 0 means distance 1. -/
def execMLbr (n : BitVec 4) (whi : Byte) (s : State) : Result :=
  onTf (TfDce.linCopy (copyCount n) (tableDistance whi)) s

/-- M.PRD (R305): PlaneXform(wsel, wk, whi + 2). -/
def execMPrd (sel x : BitVec 2) (whi : Byte) (s : State) : Result :=
  onTf (TfDce.planeXform sel x (byteCount whi)) s

/-- M.PBR (R306): PlaneCopy(whi + 2, w4 + 1). -/
def execMPbr (n : BitVec 4) (whi : Byte) (s : State) : Result :=
  onTf (TfDce.planeCopy (byteCount whi) (nibbleCount n)) s

/-- M.MRD (R307): the mask of slot wk, read before the slot is aged. -/
def execMMrd (sel k : BitVec 2) (whi : Byte) (s : State) : Result :=
  onTf (fun t => (t.ageSlot k).maskRead sel (t.pc.get k) (byteCount whi)) s

/-- M.LIT (R308): Emit(whi), once; the low nibble of wlo is ignored. -/
def execMLit (_x : BitVec 4) (whi : Byte) (s : State) : Result :=
  onTf (fun t => t.andThen (TfDce.emit whi)) s

/-- M.NIB (R309): NibPair(whi), w4 + 1 times. -/
def execMNib (n : BitVec 4) (whi : Byte) (s : State) : Result :=
  onTf (TfDce.pairRun (nibPair whi).1 (nibPair whi).2 (nibbleCount n)) s

/-- M.RMR (R310): as M.MRD, with the rotating mask. -/
def execMRmr (sel k : BitVec 2) (whi : Byte) (s : State) : Result :=
  onTf (fun t => (t.ageSlot k).rotMaskRead sel (t.pc.get k) (byteCount whi)) s

/-- M.RLE (R311): Fill(whi, r), the count r being wlo − 0x9E. -/
def execMRle (r whi : Byte) (s : State) : Result := onTf (TfDce.fill whi r.toNat) s

/-- M.REFUSED (R312): STATUS becomes REFUSED and TF_REFUSE names the command, its input offset and wlo; nothing
is emitted and PC is unchanged. It is a next state, since the rule gives this effect (log entry 11). -/
def execMRefused (wlo _whi : Byte) (s : State) : Result := onTf (TfDce.refuse wlo) s

/-- The operation a header-table word selects, with the low byte's fields and the high byte as its operands
(R302, R303). -/
def execTableWord (wlo whi : Byte) (s : State) : Result :=
  match tableOp wlo with
  | .mLbr => execMLbr (lowNibble wlo) whi s
  | .mPrd => execMPrd (selField wlo) (lowPair wlo) whi s
  | .mPbr => execMPbr (lowNibble wlo) whi s
  | .mMrd => execMMrd (selField wlo) (lowPair wlo) whi s
  | .mLit => execMLit (lowNibble wlo) whi s
  | .mNib => execMNib (lowNibble wlo) whi s
  | .mRmr => execMRmr (selField wlo) (lowPair wlo) whi s
  | .mRle => execMRle (fillCount wlo) whi s
  | .refused => execMRefused wlo whi s

/-- MAC i (R300): HTRead(i), then the word's operation. -/
def execMac (i : BitVec 5) (s : State) : Result :=
  execTableWord (wordLow (s.tf.htRead i).regs.w) (wordHigh (s.tf.htRead i).regs.w)
    { s with tf := s.tf.htRead i }

end Sys2Proof.Machine
end

