-- ==== Sys2Proof/Machine/Dispatch.lean ====
section
/-! DEFINITION. One arm per constructor of `Instr`. -/

namespace Sys2Proof.Machine

def exec (i : Instr) (s : State) : Host.Outcome State Fault Refusal :=
  match i with
  | .mac idx => Sys2Proof.Machine.execMac idx s
  | .lbr n d => Sys2Proof.Machine.execLbr n d s
  | .prd sel c => Sys2Proof.Machine.execPrd sel c s
  | .prdn sel c => Sys2Proof.Machine.execPrdn sel c s
  | .prdl sel c => Sys2Proof.Machine.execPrdl sel c s
  | .prdr sel c => Sys2Proof.Machine.execPrdr sel c s
  | .pbr n c => Sys2Proof.Machine.execPbr n c s
  | .mrd sel k c => Sys2Proof.Machine.execMrd sel k c s
  | .mrdi sel m c => Sys2Proof.Machine.execMrdi sel m c s
  | .pair n v1 v2 => Sys2Proof.Machine.execPair n v1 v2 s
  | .lit n bs => Sys2Proof.Machine.execLit n bs s
  | .nib n v => Sys2Proof.Machine.execNib n v s
  | .rmr sel k c => Sys2Proof.Machine.execRmr sel k c s
  | .rmri sel m c => Sys2Proof.Machine.execRmri sel m c s
  | .rle r v => Sys2Proof.Machine.execRle r v s
  | .mLbr n whi => Sys2Proof.Machine.execMLbr n whi s
  | .mPrd sel x whi => Sys2Proof.Machine.execMPrd sel x whi s
  | .mPbr n whi => Sys2Proof.Machine.execMPbr n whi s
  | .mMrd sel k whi => Sys2Proof.Machine.execMMrd sel k whi s
  | .mLit x whi => Sys2Proof.Machine.execMLit x whi s
  | .mNib n whi => Sys2Proof.Machine.execMNib n whi s
  | .mRmr sel k whi => Sys2Proof.Machine.execMRmr sel k whi s
  | .mRle r whi => Sys2Proof.Machine.execMRle r whi s
  | .mRefused wlo whi => Sys2Proof.Machine.execMRefused wlo whi s
  | .litc c => Sys2Proof.Machine.execLitc c s
  | .matchSym dist len => Sys2Proof.Machine.execMatchSym dist len s
  | .fatSentinel => Sys2Proof.Machine.execFatSentinel s
  | .entryVerbatim clen off => Sys2Proof.Machine.execEntryVerbatim clen off s
  | .entryCoded clen ulen off => Sys2Proof.Machine.execEntryCoded clen ulen off s

end Sys2Proof.Machine
end

