-- ==== Sys2Proof/Machine/Fetch.lean ====
section
/-! DEFINITION. What each engine does next: the instruction it executes and the state it executes it in, or the
state that its own sequencing (the start of a call, the parse, the validation, the ends) gives. Also the caller's
two actions (R51, R455) and the placing of one command for the next step. -/

namespace Sys2Proof.Machine

/-- What a step does. -/
inductive Fetched where
  /-- Execute the instruction in the state. -/
  | run (i : Instr) (s : State)
  /-- The engine's own sequencing gives the next state; no instruction is executed. -/
  | settle (s : State)
  deriving DecidableEq, Repr

/-! ### TF-DCE (R212) -/

/-- The stream bytes from SP on, at most one longest command. -/
def TfDce.streamBytes (t : TfDce) : List Byte := t.input.bytesFrom t.sp longestCommand

/-- The reading of a command: the transient registers are reset (R49), CMD, B1 and B2 hold the bytes that the
stream has, and SP is past them (R32, R210). A missing operand leaves SP at the end of the stream. -/
def TfDce.readCommand (cmd : Byte) (rest : List Byte) (t : TfDce) : TfDce :=
  { t with
    sp := t.sp + 1 + min (operandCount cmd) rest.length
    regs :=
      { TfRegs.zero with
        cmd := cmd
        b1 := if 1 ≤ operandCount cmd then rest.getD 0 0 else 0
        b2 := if 2 ≤ operandCount cmd then rest.getD 1 0 else 0 } }

/-- One turn of the dispatch loop (R212): P = 1920 is tested before SP ≥ L (R406), a missing fixed operand halts
with TRUNC before any effect (R211). An engine that has stopped writes its result registers (R213) and stays as
it is (R409). -/
def fetchTf (s : State) : Fetched :=
  match s.tf.phase with
  | .start => .settle { s with tf := TfDce.initialise s.tf.input }
  | .run =>
    if s.tf.status ≠ .running then .settle { s with tf := s.tf.writeResult }
    else if Config.tfOutLen ≤ s.tf.p then .settle { s with tf := s.tf.stop .done }
    else
      match s.tf.streamBytes with
      | [] => .settle { s with tf := s.tf.stop .trunc }
      | cmd :: rest =>
        match streamInstr cmd rest with
        | some i => .run i { s with tf := s.tf.readCommand cmd rest }
        | none => .settle { s with tf := (s.tf.readCommand cmd rest).haltTrunc }

/-! ### LS11 (R140) -/

/-- One step of the phases of R140. -/
def fetchLs (s : State) : Fetched :=
  match s.ls.phase with
  | .start => .settle { s with ls := Ls11.initialise s.ls.input s.ls.mode }
  | .fat =>
    match readFatRecord s.ls.recordBytes with
    | .error _ => .settle { s with ls := s.ls.raise .fatTrunc s.ls.fat.length }
    | .ok ((clen, ulen, off), _) =>
      if clen = 0 then .run .fatSentinel s
      else .settle { s with ls := s.ls.appendRecord ⟨clen, ulen, off⟩ }
  | .validate => .settle { s with ls := s.ls.validate }
  | .entries =>
    match s.ls.fat[s.ls.entries.length]? with
    | none => .settle { s with ls := s.ls.finish }
    | some r => .run (recordInstr r.clen r.ulen r.off) s
  | .symbols =>
    if s.ls.symbolsLeft then
      match readSymbol s.ls.pendingBits with
      | none => .settle { s with ls := s.ls.cutEntry }
      | some r => .run r.instr { s with ls := s.ls.consume r }
    else .settle { s with ls := s.ls.endEntry }
  | .ended => .settle s

/-- The engine whose call is in progress moves. -/
def fetch (s : State) : Fetched :=
  match s.engine with
  | .ls11 => fetchLs s
  | .tfdce => fetchTf s

/-! ### The caller (R51, R455) -/

/-- The caller starts an LS11 call on `input` in mode `mode`. -/
def State.callLs11 (s : State) (input : Buffer) (mode : LsMode) : State :=
  { s with engine := .ls11, ls := Ls11.atStart input mode }

/-- The caller starts a TF-DCE call on `input`. -/
def State.callTfdce (s : State) (input : Buffer) : State :=
  { s with engine := .tfdce, tf := TfDce.atStart input }

/-! ### Placing one command -/

/-- The TF-DCE engine about to execute the command that `bytes` holds: the bytes stand in IN at SP, IN reaches
past them, and the dispatch loop is running with room in the output. -/
def TfDce.withStream (t : TfDce) (bytes : List Byte) : TfDce :=
  { t with
    input := ⟨max t.input.len (t.sp + bytes.length), t.input.cells.writeBytes t.sp bytes⟩
    phase := .run
    status := .running
    p := if t.p < Config.tfOutLen then t.p else 0 }

end Sys2Proof.Machine
end

