-- ==== Sys2Proof/Machine/Step.lean ====
section
/-! DEFINITION. One step: execute what `fetch` finds (R464), or take the state the engine's own sequencing
gives. -/

namespace Sys2Proof.Machine

/-- One step of the engine whose call is in progress. -/
def step (s : State) : Host.Outcome State Fault Refusal :=
  match fetch s with
  | .run i s' => exec i s'
  | .settle s' => .next s'

/-- The state in which the next step fetches and executes the command with the bits `w` (log entry 12). -/
def State.withFetchWord (s : State) (nbits w : Nat) : State :=
  { s with engine := .tfdce, tf := s.tf.withStream (wordBytes nbits w) }

end Sys2Proof.Machine
end

