-- ==== Sys2Proof/Safety.lean ====
section
/-! DEFINITION. What counts as a good state and a good step, in the terms the statements use: the canonical form
of every memory, the invariants of the two engines, what it means that a run of bytes has been emitted, and what
an effect leaves alone. -/

namespace Sys2Proof.Machine

/-! ### Good states of the TF-DCE engine -/

/-- PO is a permutation of {0, 1, 2} (R43). -/
abbrev PlaneOrder.isPermutation (po : PlaneOrder) : Prop :=
  po.o0 ≠ 3 ∧ po.o1 ≠ 3 ∧ po.o2 ≠ 3 ∧ po.o0 ≠ po.o1 ∧ po.o0 ≠ po.o2 ∧ po.o1 ≠ po.o2

/-- An opcode can run: the engine has not stopped and the output has room (R212). -/
abbrev TfDce.ready (t : TfDce) : Prop := t.status = .running ∧ t.p < 1920

/-- Every memory of the TF-DCE engine is in canonical form. -/
abbrev TfDce.canonical (t : TfDce) : Prop := t.input.wf ∧ t.pm.wf ∧ t.out.wf ∧ t.result.out.wf

/-- How many of `count` bytes the output has room for (R208). -/
def TfDce.room (t : TfDce) (count : Nat) : Nat := min count (1920 - t.p)

/-- The header registers hold what the header load gives, for the rest of the call (R42, R43, R200, R202). -/
def TfDce.HeaderLoaded (t : TfDce) : Prop :=
  t.selb = t.input.headerByte 7 ∧ t.n = t.input.headerByte 9 ∧ t.po = planeOrderTable t.selb

/-- P counts the emitted bytes, OUT holds nothing past P, every emitted byte stands in its destination plane, and
the planes hold nothing else (R46, R47, R206, R207). -/
def TfDce.PlanesMirrorOutput (t : TfDce) : Prop :=
  t.p ≤ 1920 ∧ t.out.below t.p ∧
    (∀ q, q < t.p → t.pm.read (destPlane t.po q) (zigzag q) = t.out.read q) ∧
    (∀ k a, (∀ q, q < t.p → ¬(destPlane t.po q = k ∧ zigzag q = a)) → t.pm.read k a = 0)

/-- STATUS is DONE exactly when the output is full, and TRUNC only where the stream is exhausted (R405). -/
def TfDce.StatusFits (t : TfDce) : Prop :=
  (t.status = .done ↔ t.p = 1920) ∧ (t.status = .trunc → t.input.len ≤ t.sp)

/-- The invariant of a TF-DCE call after its start. -/
def TfDce.Inv (t : TfDce) : Prop :=
  t.canonical ∧
    (t.phase = .run →
      t.HeaderLoaded ∧ t.PlanesMirrorOutput ∧ t.StatusFits ∧ 10 + 2 * t.n.toNat ≤ t.sp)

/-! ### Good states of the LS11 engine -/

/-- Every memory of the LS11 engine is in canonical form. -/
abbrev Ls11.canonical (l : Ls11) : Prop :=
  l.input.wf ∧ l.hdr.wf ∧ l.dict.wf ∧ l.eout.wf ∧ ∀ e ∈ l.entries, e.data.wf

/-- HDR and DICT hold what the load gives, and FAT the records of the archive, none of them the sentinel
(R34 to R36, R141, R142). -/
def Ls11.Loaded (l : Ls11) : Prop :=
  272 ≤ l.input.len ∧ l.hdr = l.input.cells.slice 0 16 ∧ l.dict = l.input.cells.slice 16 256 ∧
    ∀ (i : Nat) r, l.fat[i]? = some r →
      r.clen ≠ 0 ∧
        readFatRecord (l.input.bytesFrom (272 + 12 * i) 12) = .ok ((r.clen, r.ulen, r.off), [])

/-- The entry result of a record (R148, R171): ULEN bytes long; a verbatim one is the slice, whole; a coded one
holds 0 past what was produced, and is short exactly when that is less than ULEN. -/
def EntryFits (input : Buffer) (r : FatRec) (e : EntryResult) : Prop :=
  e.data.len = r.ulen.toNat ∧
    if r.clen = r.ulen then
      e = ⟨input.slice r.off.toNat r.clen.toNat, .verbatim, r.clen.toNat, false, false⟩
    else
      e.kind = .coded ∧ e.produced ≤ r.ulen.toNat ∧ e.data.cells.below e.produced ∧
        (e.short = true ↔ e.produced < r.ulen.toNat)

/-- LS_ENTRIES holds one result for each of the first records, in FAT order (R147). -/
def Ls11.EntriesFit (l : Ls11) : Prop :=
  l.entries.length ≤ l.fat.length ∧
    ∀ (i : Nat) e, l.entries[i]? = some e → ∃ r, l.fat[i]? = some r ∧ EntryFits l.input r e

/-- Every record's slice lies inside the archive (R144). -/
def Ls11.Validated (l : Ls11) : Prop :=
  ∀ r, r ∈ l.fat → r.off.toNat + r.clen.toNat ≤ l.input.len

/-- The symbol loop stands inside its entry (R31, R37, R169). -/
def Ls11.LoopFits (l : Ls11) : Prop :=
  l.fat[l.entries.length]? = some l.cur ∧ l.cur.clen ≠ l.cur.ulen ∧ l.ep ≤ l.cur.ulen.toNat ∧
    l.bc ≤ 8 * l.cur.clen.toNat ∧ l.eout.below l.ep

/-- The result registers of a call that has ended (R147). -/
def Ls11.ResultFits (l : Ls11) : Prop :=
  (l.status = .fault → l.fault ≠ .none ∧ l.count = 0 ∧ l.entries = []) ∧
    (l.status = .ok →
      l.fault = .none ∧ l.faultRec = 0 ∧ l.count = l.fat.length ∧
        (l.mode = .decode → l.entries.length = l.fat.length ∧ l.EntriesFit) ∧
        (l.mode = .count → l.entries = []))

/-- The invariant of an LS11 call, phase by phase (R140). -/
def Ls11.Inv (l : Ls11) : Prop :=
  l.canonical ∧
    match l.phase with
    | .start => True
    | .fat => l.Loaded ∧ l.entries = []
    | .validate => l.Loaded ∧ l.entries = []
    | .entries => l.Loaded ∧ l.Validated ∧ l.mode = .decode ∧ l.EntriesFit
    | .symbols => l.Loaded ∧ l.Validated ∧ l.mode = .decode ∧ l.EntriesFit ∧ l.LoopFits
    | .ended => l.ResultFits

/-- The invariant of the machine: both engines', since they share no state (R30). -/
def State.Inv (s : State) : Prop := s.tf.Inv ∧ s.ls.Inv

/-! ### What an effect does -/

/-- `u` is `t` after k bytes have been emitted, `v q` at output position q: OUT and the destination planes hold
them, nothing else in OUT or the planes has changed, and STATUS is DONE exactly when the output is full (R207 to
R209). -/
def TfDce.Emitted (t u : TfDce) (k : Nat) (v : Nat → Byte) : Prop :=
  u.p = t.p + k ∧
    (∀ q, u.out.read q = if t.p ≤ q ∧ q < t.p + k then v q else t.out.read q) ∧
    (∀ q, t.p ≤ q → q < t.p + k → u.pm.read (destPlane t.po q) (zigzag q) = v q) ∧
    (∀ pl a, (∀ q, t.p ≤ q → q < t.p + k → ¬(destPlane t.po q = pl ∧ zigzag q = a)) →
      u.pm.read pl a = t.pm.read pl a) ∧
    u.status = if t.p + k = 1920 then .done else .running

/-- What no command but MAC touches: the input, the phase, the header registers, the registers the fetch has
loaded, W, and the result registers. The transient registers WM, RA, C and D may hold anything between opcodes
(R49, R453). -/
def TfDce.Frame (t u : TfDce) : Prop :=
  u.input = t.input ∧ u.phase = t.phase ∧ u.selb = t.selb ∧ u.n = t.n ∧ u.po = t.po ∧
    u.regs.cmd = t.regs.cmd ∧ u.regs.b1 = t.regs.b1 ∧ u.regs.b2 = t.regs.b2 ∧ u.regs.w = t.regs.w ∧
    u.result = t.result

/-- `u` is `t` after the instruction has emitted up to `count` bytes (as many as the output has room for), the
byte at position q being `v q`, with PC and OOBF as given and SP and the rest unchanged. -/
def TfDce.Emits (t u : TfDce) (count : Nat) (v : Nat → Byte) (pc : PatternCache) (oobf : Bool) : Prop :=
  t.Emitted u (t.room count) v ∧ t.Frame u ∧ u.sp = t.sp ∧ u.pc = pc ∧ u.oobf = oobf

/-- The big-endian u32 at an archive offset, as a natural (R11, R75). -/
def Buffer.u32 (b : Buffer) (a : Nat) : Nat :=
  (b.read a).toNat * 2 ^ 24 + (b.read (a + 1)).toNat * 2 ^ 16 + (b.read (a + 2)).toNat * 2 ^ 8
    + (b.read (a + 3)).toNat

/-- Bits read as an unsigned integer, most significant first (R77, R101). -/
def bitsValue (bits : List Bool) : Nat := bits.foldl (fun acc b => acc * 2 + b.toNat) 0

/-- The record's slice lies inside the archive (R144). -/
def FatRec.inside (r : FatRec) (len : Nat) : Prop := r.off.toNat + r.clen.toNat ≤ len

/-- The engine of an LS11 call that has raised a fault (R147, R401). -/
def Ls11.faulted (l : Ls11) (x : LsFault) (i : Nat) : Ls11 :=
  { l with phase := .ended, status := .fault, fault := x, faultRec := i, count := 0, entries := [] }

/-- The engine of an LS11 call that has ended without a fault (R146, R147). -/
def Ls11.completed (l : Ls11) : Ls11 :=
  { l with phase := .ended, status := .ok, fault := .none, faultRec := 0, count := l.fat.length }

end Sys2Proof.Machine
end

