-- ==== Sys2Proof/Certificates/Slice0/Obligations.lean ====
section
/-! DEFINITION. The statements for the provers. A docstring names the rules a statement is about, and each decision
D<n> of the spec (92_eei_decisions.md), each inference the spec marks "derived" and each log entry it rests on. -/

open Sys2Proof Sys2Proof.Machine

/-! ### Encodings -/

/-- Decode and encode agree on every well-formed instruction of all four encoding spaces, and in the two spaces
that are read from a stream (commands and symbols) whatever bytes or bits follow are left over. -/
def Obligations.DecodeEncodeAgree : Prop :=
  ∀ i : Instr, i.wellFormed = true →
    decode (encode i) = .ok i ∧
      (∀ bytes rest, encode i = .command bytes → decodeBytes (bytes ++ rest) = .ok (i, rest)) ∧
      ∀ bits rest, encode i = .symbol bits →
        ∃ r, readSymbol (bits ++ rest) = some r ∧ r.instr = i ∧ r.rest = rest

/-- R101, R161, R162: j ones, a zero and a suffix of j + 1 bits are one code, with CNT = j + 1, ACC_A = 2^(j+1) −
2, ACC_B the suffix and the sum of the two as its value; it has 2j + 2 bits (an inference of the spec). -/
def Obligations.CodeFormat : Prop :=
  ∀ (j : Nat) (suffix rest : List Bool), suffix.length = j + 1 →
    readCode (List.replicate j true ++ false :: (suffix ++ rest)) =
        some (⟨2 ^ (j + 1) - 2, j + 1, bitsValue suffix⟩, rest) ∧
      (CodeRead.mk (2 ^ (j + 1) - 2) (j + 1) (bitsValue suffix)).value =
        2 ^ (j + 1) - 2 + bitsValue suffix ∧
      (List.replicate j true ++ false :: suffix).length = 2 * j + 2 ∧
      bitsValue suffix ≤ 2 ^ (j + 1) - 1

/-- R102, R105: every natural number has an encoding, of 2·CNT bits, and only that one; CNT = j + 1 covers
exactly the codes 2^(j+1) − 2 to 2^(j+2) − 3, and the encoding of such a code is j ones, a zero and the rest of
the code in j + 1 bits. The ranges are an inference of the spec. -/
def Obligations.CodeHasOneEncoding : Prop :=
  (∀ (c : Nat) (rest : List Bool), ∃ r, readCode (encodeCode c ++ rest) = some (r, rest) ∧ r.value = c ∧
      (encodeCode c).length = 2 * r.cnt) ∧
    (∀ c j, 2 ^ (j + 1) - 2 ≤ c → c ≤ 2 ^ (j + 2) - 3 →
      ∃ suffix : List Bool, suffix.length = j + 1 ∧ bitsValue suffix = c - (2 ^ (j + 1) - 2) ∧
        encodeCode c = List.replicate j true ++ false :: suffix) ∧
    ∀ (bits : List Bool) (r : CodeRead) (rest : List Bool), readCode bits = some (r, rest) →
      bits = encodeCode r.value ++ rest ∧ 1 ≤ r.cnt ∧ 2 ^ r.cnt - 2 ≤ r.value ∧
        r.value ≤ 2 ^ (r.cnt + 1) - 3

/-- R120, R125: every command byte with its operand bytes behind it decodes, to a well-formed command, and the
bytes read are exactly that command's encoding: the map has no reserved value and no ambiguity (an inference of
the spec). The source selector of RMRI is its decision D25. -/
def Obligations.CommandMapTotal : Prop :=
  ∀ (cmd : Byte) (rest : List Byte), 16 ≤ rest.length →
    ∃ i left bytes, decodeCommand cmd rest = .ok (i, left) ∧ i.wellFormed = true ∧ i.space = .command ∧
      encode i = .command bytes ∧ cmd :: rest = bytes ++ left

/-- R123, R124, R303: the sub-index is the high nibble of wlo; the map of header-table words, row by row; and
every word is exactly the encoding of what it decodes to. The map is the spec's decision D27 (log entry 16). -/
def Obligations.TableWordMap : Prop :=
  ∀ wlo whi : Byte,
    subIndex wlo = wlo.extractLsb' 4 4 ∧
      (decodeTableEntry wlo whi).wellFormed = true ∧
      encode (decodeTableEntry wlo whi) = .tableWord wlo whi ∧
      decodeTableEntry wlo whi =
        (let k16 := wlo.toNat / 16
         let w4 := wlo.extractLsb' 0 4
         let wsel := wlo.extractLsb' 2 2
         let wk := wlo.extractLsb' 0 2
         if 0xA ≤ k16 then .mRle (wlo - 0x9E) whi
         else if k16 = 0x2 then .mLbr w4 whi
         else if k16 = 0x3 then .mPrd wsel wk whi
         else if k16 = 0x4 then .mPbr w4 whi
         else if k16 = 0x5 ∧ wsel ≠ 3 then .mMrd wsel wk whi
         else if k16 = 0x7 then .mLit w4 whi
         else if k16 = 0x8 then .mNib w4 whi
         else if k16 = 0x9 ∧ wsel ≠ 3 then .mRmr wsel wk whi
         else .mRefused wlo whi)

/-- A few words written out from the encodings of R102, R106, R120 and R124 decode to what they stand for. -/
def Obligations.WrittenOutWordsDecode : Prop :=
  decode (.command [0x22, 0x02]) = .ok (.lbr 2 2) ∧
    decode (.command [0x3B, 0x01]) = .ok (.prdr 2 1) ∧
    decode (.command [0x95, 0xFE]) = .ok (.rmr 1 1 0xFE) ∧
    decode (.command [0x5F, 0x0F, 0x00]) = .ok (.mrdi 3 0x0F 0) ∧
    decode (.command [0xA5, 0x99]) = .ok (.rle 7 0x99) ∧
    decode (.command [0x05]) = .ok (.mac 5) ∧
    decode (.tableWord 0x53 0x00) = .ok (.mMrd 0 3 0) ∧
    decode (.symbol [true, false, true, true]) = .ok (.litc 5) ∧
    decode (.symbol [true, true, true, true, true, true, true, false,
      false, false, false, false, false, true, false, false, true, false, false, false]) =
        .ok (.matchSym 2 5) ∧
    decode (.fatRecord [0, 0, 0, 3, 0, 0, 0, 3, 0, 0, 1, 0x1C]) = .ok (.entryVerbatim 3 284)

/-! ### A step runs the decoded instruction -/

/-- R211, R212, R258: when the engine runs, the output has room and the bytes at SP decode to a command, the step is
that command's meaning, in the state whose SP is past the command byte and its fixed operand bytes and whose
transient registers hold CMD, B1 and B2 and are otherwise reset (R49; to 0, log entry 6); and the command is
well-formed. When the stream ends inside a LIT, the step is in the same way the meaning of a LIT of the literals that
are there (the spec's decision D15; the form is log entry 13). -/
def Obligations.StepRunsCommand : Prop :=
  ∀ (s : State) (cmd : Byte) (rest : List Byte),
    s.engine = .tfdce → s.tf.phase = .run → s.tf.ready → s.tf.input.bytesFrom s.tf.sp 17 = cmd :: rest →
      (∀ (i : Instr) (left : List Byte), decodeCommand cmd rest = .ok (i, left) →
        i.wellFormed = true ∧
          step s = exec i
            { s with
              tf :=
                { s.tf with
                  sp := s.tf.sp + 1 + operandCount cmd
                  regs :=
                    ⟨cmd, if 1 ≤ operandCount cmd then rest.getD 0 0 else 0,
                      if 2 ≤ operandCount cmd then rest.getD 1 0 else 0, 0, 0, 0, 0, 0⟩ } }) ∧
      (cmd.toNat / 16 = 7 → rest.length < cmd.toNat % 16 + 1 →
        cutLiteral cmd rest = some (.lit (cmd.extractLsb' 0 4) rest) ∧
          step s = exec (.lit (cmd.extractLsb' 0 4) rest)
            { s with tf := { s.tf with sp := s.tf.sp + 1, regs := ⟨cmd, 0, 0, 0, 0, 0, 0, 0⟩ } })

/-- R164, R169, R160: inside the symbol loop, when the bits at BC are those of a well-formed symbol i, the step
is the meaning of i in the state whose BC is past the symbol; CODE holds the symbol's code. -/
def Obligations.StepRunsSymbol : Prop :=
  ∀ (s : State) (i : Instr) (bits rest : List Bool),
    s.engine = .ls11 → s.ls.phase = .symbols → s.ls.ep < s.ls.cur.ulen.toNat →
    s.ls.bc < 8 * s.ls.cur.clen.toNat → i.wellFormed = true → encode i = .symbol bits →
    s.ls.pendingBits = bits ++ rest →
      ∃ regs, step s = exec i { s with ls := { s.ls with bc := s.ls.bc + bits.length, regs := regs } } ∧
        (∀ c, i = .litc c → regs.code = c.toNat) ∧ ∀ d l, i = .matchSym d l → regs.code = 256 + d

/-- R145: while entries are left, the step is the meaning of the next record of FAT, verbatim or coded. That the
dispatch of one entry is a step of its own is the model's choice, log entry 21. -/
def Obligations.StepRunsRecord : Prop :=
  ∀ (s : State) (r : FatRec), s.engine = .ls11 → s.ls.phase = .entries →
    s.ls.fat[s.ls.entries.length]? = some r → r.clen ≠ 0 →
      step s = exec (if r.clen = r.ulen then .entryVerbatim r.clen r.off else .entryCoded r.clen r.ulen r.off) s

/-- R211: when a fixed operand byte is missing, the command has no effect at all: the engine halts with TRUNC, SP
at the end of the stream, and everything but SP, STATUS and the transient registers is unchanged. The operand
order is the spec's decision D15. -/
def Obligations.MissingOperandHalts : Prop :=
  ∀ (s : State) (cmd : Byte) (rest : List Byte),
    s.engine = .tfdce → s.tf.phase = .run → s.tf.ready →
    s.tf.input.bytesFrom s.tf.sp 17 = cmd :: rest → rest.length < operandCount cmd →
      ∃ regs, step s = .next
        { s with tf := { s.tf with sp := s.tf.input.len, status := .trunc, regs := regs } }

/-- R212, R213, R406: a full output stops with DONE, before SP is looked at; a stream at its end stops with
TRUNC; and a stopped engine writes its result registers and nothing else, for ever. Zeros past P are the spec's
decision D14; a stopped engine's further steps are log entry 22. -/
def Obligations.EndOfRun : Prop :=
  ∀ s : State, s.engine = .tfdce → s.tf.phase = .run →
    (s.tf.status = .running → s.tf.p = 1920 → step s = .next
      { s with
        tf :=
          { s.tf with
            status := .done
            result := ⟨⟨1920, s.tf.out⟩, s.tf.p, s.tf.po, .done, s.tf.oobf, s.tf.result.refuse⟩ } }) ∧
    (s.tf.ready → s.tf.input.len ≤ s.tf.sp → step s = .next
      { s with
        tf :=
          { s.tf with
            status := .trunc
            result := ⟨⟨1920, s.tf.out⟩, s.tf.p, s.tf.po, .trunc, s.tf.oobf, s.tf.result.refuse⟩ } }) ∧
    (s.tf.status ≠ .running → step s = .next
      { s with
        tf :=
          { s.tf with
            result := ⟨⟨1920, s.tf.out⟩, s.tf.p, s.tf.po, s.tf.status, s.tf.oobf, s.tf.result.refuse⟩ } })

/-! ### TF-DCE primitives -/

/-- R204: the zig-zag map, its formula and that it is a bijection of each section onto the addresses {row·80 +
col : row in 0..79, col in 0..7} (an inference of the spec). -/
def Obligations.ZigzagBijection : Prop :=
  (∀ p, zigzag p =
      (if p % 640 / 80 % 2 = 0 then p % 640 % 80 else 79 - p % 640 % 80) * 80 + p % 640 / 80) ∧
    (∀ p q, p / 640 = q / 640 → zigzag p = zigzag q → p = q) ∧
    (∀ p, zigzag p / 80 < 80 ∧ zigzag p % 80 < 8) ∧
    ∀ sec row col, row < 80 → col < 8 → ∃ p, p / 640 = sec ∧ zigzag p = row * 80 + col

/-- R207, R208: Emit(v) appends v to OUT, writes it to the destination plane at the zig-zag address, advances P,
and ends the run with DONE exactly when P becomes 1920; nothing else changes. That the opcode ends there is the
spec's decision D30. -/
def Obligations.EmitEffect : Prop :=
  ∀ (t : TfDce) (v : Byte), t.ready → t.canonical →
    (∀ q, (t.emit v).out.read q = if q = t.p then v else t.out.read q) ∧
      (∀ k a, (t.emit v).pm.read k a =
        if k = destPlane t.po t.p ∧ a = zigzag t.p then v else t.pm.read k a) ∧
      (t.emit v).p = t.p + 1 ∧
      (t.emit v).status = (if t.p + 1 = 1920 then .done else .running) ∧
      (t.emit v).canonical ∧ t.Frame (t.emit v) ∧ (t.emit v).regs = t.regs ∧ (t.emit v).sp = t.sp ∧
      (t.emit v).pc = t.pc ∧ (t.emit v).oobf = t.oobf

/-- R78: OutRead(d) answers OUT[P − d] when that position has been written, else 0 with OOBF set. Distance 0 is
the spec's decision D31. -/
def Obligations.OutReadZeroFill : Prop :=
  ∀ (t : TfDce) (d : Nat),
    (1 ≤ d → d ≤ t.p → t.outRead d = (t.out.read (t.p - d), t)) ∧
      (d = 0 ∨ t.p < d → t.outRead d = (0, { t with oobf := true }))

/-- R80: DestRead(d) answers the destination plane's cell zz(P) − d, or 0 with OOBF set below address 0. The
value 0 is the spec's decision D21. -/
def Obligations.DestReadZeroFill : Prop :=
  ∀ (t : TfDce) (d : Nat),
    (d ≤ zigzag t.p → t.destRead d = (t.pm.read (t.po.get (t.p / 640)) (zigzag t.p - d), t)) ∧
      (zigzag t.p < d → t.destRead d = (0, { t with oobf := true }))

/-- R81: selectors 0, 1 and 2 name PO[0], PO[1] and PO[2]; selector 3 names the destination plane of the
position. Per byte: the spec's decision D16. -/
def Obligations.PlaneSelectors : Prop :=
  ∀ (po : PlaneOrder) (p : Nat), p < 1920 →
    selectedPlane po 0 p = po.o0 ∧ selectedPlane po 1 p = po.o1 ∧ selectedPlane po 2 p = po.o2 ∧
      selectedPlane po 3 p = if p < 640 then po.o0 else if p < 1280 then po.o1 else po.o2

/-- R202, R203: the plane-order table; every other selector gives {0, 2, 1}, and every order is a permutation.
Four rows are the spec's decision D12 (log entry 15). -/
def Obligations.PlaneOrderLookup : Prop :=
  planeOrderTable 0xC6 = ⟨0, 1, 2⟩ ∧ planeOrderTable 0xC9 = ⟨0, 2, 1⟩ ∧ planeOrderTable 0xD2 = ⟨1, 0, 2⟩ ∧
    planeOrderTable 0xD8 = ⟨1, 2, 0⟩ ∧ planeOrderTable 0xE1 = ⟨2, 0, 1⟩ ∧ planeOrderTable 0xE4 = ⟨2, 1, 0⟩ ∧
    ∀ selb : Byte, (planeOrderTable selb).isPermutation ∧
      (selb ∉ [0xC6, 0xC9, 0xD2, 0xD8, 0xE1, 0xE4] → planeOrderTable selb = ⟨0, 2, 1⟩)

/-- R44: the reset value of the pattern cache, and that aging swaps a slot with its left neighbour and leaves
slot 0 alone. The latter is the spec's decision D22. -/
def Obligations.CacheAging : Prop :=
  State.reset.tf.pc = ⟨0x00, 0xFF, 0x55, 0xAA⟩ ∧ ∀ a b c d : Byte,
    (PatternCache.mk a b c d).age 0 = ⟨a, b, c, d⟩ ∧ (PatternCache.mk a b c d).age 1 = ⟨b, a, c, d⟩ ∧
      (PatternCache.mk a b c d).age 2 = ⟨a, c, b, d⟩ ∧ (PatternCache.mk a b c d).age 3 = ⟨a, b, d, c⟩

/-- R45: promotion puts the mask into slot 2 and the old slot 2 into slot 3, and leaves slots 0 and 1 alone. -/
def Obligations.CachePromotion : Prop :=
  ∀ a b c d m : Byte, (PatternCache.mk a b c d).promote m = ⟨a, b, m, c⟩

/-! ### TF-DCE instructions: what each one does, in every state in which an opcode can run -/

/-- R240, R241, R304: LBR n, d and M.LBR emit n + 3 bytes, each the byte d positions back in the output as it
then stands (so a distance shorter than the count repeats a pattern), 0 with OOBF where there is none; in M.LBR
alone a distance byte 0 means 1. Distance 0 of LBR is the spec's decision D31; M.LBR rests on D27 and D28; the
cut at a full output is D30. -/
def Obligations.LinearBackReferences : Prop :=
  ∀ (n : BitVec 4) (d : Byte) (s : State), s.tf.ready → s.tf.canonical →
    (∃ u, exec (.lbr n d) s = .next { s with tf := u } ∧
      s.tf.Emits u (n.toNat + 3) (fun q => if d = 0 ∨ q < d.toNat then 0 else u.out.read (q - d.toNat)) s.tf.pc
        (s.tf.oobf || decide (d = 0 ∨ s.tf.p < d.toNat))) ∧
    ∃ u, exec (.mLbr n d) s = .next { s with tf := u } ∧
      s.tf.Emits u (n.toNat + 3)
        (fun q => if q < (if d = 0 then 1 else d.toNat) then 0
          else u.out.read (q - (if d = 0 then 1 else d.toNat)))
        s.tf.pc (s.tf.oobf || decide (s.tf.p < (if d = 0 then 1 else d.toNat)))

/-- R242 to R246, R305: PRD, PRDN, PRDL and PRDR and the four forms of M.PRD emit c + 2 bytes: the selected
plane's cell at the address of each position (the last emitted byte while fewer than 640 bytes are out), as it
is, complemented, rotated left by 1 or rotated right by 1. OOBF is set only by the fallback at P = 0. Transforms,
fallback and address are the spec's decisions D18, D19 and D20; M.PRD rests on D27 and D28. -/
def Obligations.PlaneReads : Prop :=
  ∀ (sel : BitVec 2) (c : Byte) (s : State), s.tf.ready → s.tf.canonical →
    ∀ (x : BitVec 2) (f : Byte → Byte),
      (x = 0 ∧ f = id) ∨ (x = 1 ∧ f = fun b => ~~~b) ∨ (x = 2 ∧ f = fun b => b.rotateLeft 1) ∨
        (x = 3 ∧ f = fun b => b.rotateRight 1) →
    ∀ i, i = .mPrd sel x c ∨ (x = 0 ∧ i = .prd sel c) ∨ (x = 1 ∧ i = .prdn sel c) ∨
        (x = 2 ∧ i = .prdl sel c) ∨ (x = 3 ∧ i = .prdr sel c) →
      ∃ u, exec i s = .next { s with tf := u } ∧
        s.tf.Emits u (c.toNat + 2)
          (fun q => f
            (if q < 640 then (if q = 0 then 0 else u.out.read (q - 1))
             else s.tf.pm.read (selectedPlane s.tf.po sel q) (zigzag q)))
          s.tf.pc (s.tf.oobf || decide (s.tf.p = 0))

/-- R250, R251, R306: PBR n, c and M.PBR emit c + 2 bytes, each the destination plane's cell n + 1 before the
address of its position; below address 0 the byte is 0 and OOBF is set. The zero is the spec's decision D21;
M.PBR rests on D27 and D28. -/
def Obligations.PlaneBackReferences : Prop :=
  ∀ (n : BitVec 4) (c : Byte) (s : State), s.tf.ready → s.tf.canonical → s.tf.po.isPermutation →
    ∀ i, i = .pbr n c ∨ i = .mPbr n c →
      ∃ u, exec i s = .next { s with tf := u } ∧
        s.tf.Emits u (c.toNat + 2)
          (fun q => if zigzag q < n.toNat + 1 then 0
            else u.pm.read (destPlane s.tf.po q) (zigzag q - (n.toNat + 1)))
          s.tf.pc u.oobf ∧
        (u.oobf = true ↔ s.tf.oobf = true ∨
          ∃ q, s.tf.p ≤ q ∧ q < s.tf.p + s.tf.room (c.toNat + 2) ∧ zigzag q < n.toNat + 1)

/-- R252, R253, R307, R460: MRD s, k, c and M.MRD emit c + 2 bytes, the selected plane's cell at the address of
each position masked with the value slot k held before it is aged; there is no fallback in section 0. No fallback
and the address are the spec's decisions D19 and D20, aging slot 0 is D22; M.MRD rests on D27 and D28. -/
def Obligations.CachedMaskReads : Prop :=
  ∀ (sel k : BitVec 2) (c : Byte) (s : State), s.tf.ready → s.tf.canonical →
    ∀ i, i = .mrd sel k c ∨ i = .mMrd sel k c →
      ∃ u, exec i s = .next { s with tf := u } ∧
        s.tf.Emits u (c.toNat + 2)
          (fun q => s.tf.pm.read (selectedPlane s.tf.po sel q) (zigzag q) &&& s.tf.pc.get k)
          (s.tf.pc.age k) s.tf.oobf

/-- R252, R254, R460: MRDI s, m, c emits c + 2 bytes, the selected plane's cells masked with m, and promotes m.
The spec's decisions D19, D20 and D23. -/
def Obligations.ImmediateMaskRead : Prop :=
  ∀ (sel : BitVec 2) (m c : Byte) (s : State), s.tf.ready → s.tf.canonical →
    ∃ u, exec (.mrdi sel m c) s = .next { s with tf := u } ∧
      s.tf.Emits u (c.toNat + 2)
        (fun q => s.tf.pm.read (selectedPlane s.tf.po sel q) (zigzag q) &&& m)
        ⟨s.tf.pc.s0, s.tf.pc.s1, m, s.tf.pc.s2⟩ s.tf.oobf

/-- R266, R267, R310, R461: RMR s, k, c and M.RMR emit c + 2 bytes, byte i masked with the slot's value rotated
left by RA·i, where RA is 1 for 0x55 and 0xAA and 2 for any other mask; the cache keeps the unrotated value and
is aged. The spec's decisions D19, D20, D22 and D24; M.RMR rests on D27 and D28. -/
def Obligations.CachedRotatingReads : Prop :=
  ∀ (sel k : BitVec 2) (c : Byte) (s : State), s.tf.ready → s.tf.canonical →
    ∀ i, i = .rmr sel k c ∨ i = .mRmr sel k c →
      ∃ u, exec i s = .next { s with tf := u } ∧
        s.tf.Emits u (c.toNat + 2)
          (fun q => s.tf.pm.read (selectedPlane s.tf.po sel q) (zigzag q) &&&
            (s.tf.pc.get k).rotateLeft
              ((if s.tf.pc.get k = 0x55 ∨ s.tf.pc.get k = 0xAA then 1 else 2) * (q - s.tf.p)))
          (s.tf.pc.age k) s.tf.oobf

/-- R266, R268, R460: RMRI s, m, c emits c + 2 bytes masked with m rotated in the same way, and promotes the
unrotated m. The spec's decisions D19, D20, D23, D24 and D25. -/
def Obligations.ImmediateRotatingRead : Prop :=
  ∀ (sel : BitVec 2) (m c : Byte) (s : State), s.tf.ready → s.tf.canonical →
    ∃ u, exec (.rmri sel m c) s = .next { s with tf := u } ∧
      s.tf.Emits u (c.toNat + 2)
        (fun q => s.tf.pm.read (selectedPlane s.tf.po sel q) (zigzag q) &&&
          m.rotateLeft ((if m = 0x55 ∨ m = 0xAA then 1 else 2) * (q - s.tf.p)))
        ⟨s.tf.pc.s0, s.tf.pc.s1, m, s.tf.pc.s2⟩ s.tf.oobf

/-- R256, R208: PAIR n, v1, v2 emits the pair n + 1 times; the second byte of a pair is dropped when the first
fills the output. The dropped byte is the spec's decision D30. -/
def Obligations.PairRepeats : Prop :=
  ∀ (n : BitVec 4) (v1 v2 : Byte) (s : State), s.tf.ready → s.tf.canonical →
    ∃ u, exec (.pair n v1 v2) s = .next { s with tf := u } ∧
      s.tf.Emits u (2 * (n.toNat + 1)) (fun q => if (q - s.tf.p) % 2 = 0 then v1 else v2) s.tf.pc s.tf.oobf

/-- R262, R263, R309: NIB n, v and M.NIB emit n + 1 times the low nibble of v doubled and then the high nibble
doubled. The spec's decisions D26, D30 and D41; M.NIB rests on D27 and D28. -/
def Obligations.NibblePairRepeats : Prop :=
  ∀ (n : BitVec 4) (v : Byte) (s : State), s.tf.ready → s.tf.canonical →
    ∀ i, i = .nib n v ∨ i = .mNib n v →
      ∃ u, exec i s = .next { s with tf := u } ∧
        s.tf.Emits u (2 * (n.toNat + 1))
          (fun q => if (q - s.tf.p) % 2 = 0 then (v.extractLsb' 0 4 ++ v.extractLsb' 0 4 : Byte)
            else (v.extractLsb' 4 4 ++ v.extractLsb' 4 4 : Byte))
          s.tf.pc s.tf.oobf

/-- R258, R208: LIT n, b0, …, bn emits its literals in order; SP moves past those that are emitted, so when the
output fills inside the run the rest is not read (the spec's decision D30). -/
def Obligations.LiteralRun : Prop :=
  ∀ (n : BitVec 4) (bs : List Byte) (s : State), s.tf.ready → s.tf.canonical → bs.length = n.toNat + 1 →
    ∃ u, exec (.lit n bs) s = .next { s with tf := u } ∧
      s.tf.Emitted u (s.tf.room (n.toNat + 1)) (fun q => bs.getD (q - s.tf.p) 0) ∧ s.tf.Frame u ∧
      u.sp = s.tf.sp + s.tf.room (n.toNat + 1) ∧ u.pc = s.tf.pc ∧ u.oobf = s.tf.oobf

/-- R210, R211, R258, R406: a LIT whose literals the end of the stream cuts off (the model's form of it, log
entry 13, holds the literals that are there) emits those, and then halts with TRUNC unless the output is full.
The spec's decision D15. -/
def Obligations.CutLiteralRun : Prop :=
  ∀ (n : BitVec 4) (bs : List Byte) (s : State), s.tf.ready → s.tf.canonical → bs.length < n.toNat + 1 →
    ∃ u, s.tf.Emitted u (s.tf.room bs.length) (fun q => bs.getD (q - s.tf.p) 0) ∧ s.tf.Frame u ∧
      u.sp = s.tf.sp + s.tf.room bs.length ∧ u.pc = s.tf.pc ∧ u.oobf = s.tf.oobf ∧
      exec (.lit n bs) s =
        .next { s with tf := if s.tf.p + bs.length < 1920 then { u with status := .trunc } else u }

/-- R271, R272, R311: RLE r, v and M.RLE emit r copies of v, the count r being the command or table byte less
0x9E. The cut at a full output is the spec's decision D30; M.RLE rests on D27. -/
def Obligations.Fills : Prop :=
  ∀ (r v : Byte) (s : State), s.tf.ready → s.tf.canonical →
    ∀ i, i = .rle r v ∨ i = .mRle r v → i.wellFormed = true →
      ∃ u, exec i s = .next { s with tf := u } ∧ s.tf.Emits u r.toNat (fun _ => v) s.tf.pc s.tf.oobf

/-- R308: M.LIT emits exactly one byte, whi, whatever the low nibble of wlo is. The spec's decisions D27 and D28.
-/
def Obligations.TableLiteral : Prop :=
  ∀ (x : BitVec 4) (whi : Byte) (s : State), s.tf.ready → s.tf.canonical →
    ∃ u, exec (.mLit x whi) s = .next { s with tf := u } ∧
      s.tf.Emits u 1 (fun _ => whi) s.tf.pc s.tf.oobf

/-- R312, R408: a refused word sets STATUS to REFUSED and TF_REFUSE to (CMD, SP − 1, wlo) and changes nothing
else. The spec's decisions D27 and D33. -/
def Obligations.RefusedWord : Prop :=
  ∀ (wlo whi : Byte) (s : State),
    exec (.mRefused wlo whi) s = .next
      { s with
        tf :=
          { s.tf with
            status := .refused
            result := { s.tf.result with refuse := ⟨s.tf.regs.cmd, s.tf.sp - 1, wlo⟩ } } }

/-- R300, R301, R303, R313: MAC i reads the word at index i of the header table, byte by byte, 0 with OOBF past
the table or the buffer, and then does what the instruction that word decodes to does. The zero fill is the
spec's decision D29, the map D27. -/
def Obligations.MacRunsTableWord : Prop :=
  ∀ (i : BitVec 5) (s : State),
    ∃ b0 b1 : Byte, ∃ u : TfDce,
      (∀ (j : Nat) (b : Byte), (j = 0 ∧ b = b0) ∨ (j = 1 ∧ b = b1) →
        b = if 2 * i.toNat + j < 2 * s.tf.n.toNat ∧ 10 + (2 * i.toNat + j) < s.tf.input.len
          then s.tf.input.read (10 + (2 * i.toNat + j)) else 0) ∧
      exec (.mac i) s = .next { s with tf := u } ∧
      exec (decodeTableEntry b0 b1)
          { s with
            tf :=
              { s.tf with
                regs := { s.tf.regs with w := b1 ++ b0 }
                oobf := s.tf.oobf ||
                  decide (¬(2 * i.toNat + 1 < 2 * s.tf.n.toNat ∧ 10 + (2 * i.toNat + 1) < s.tf.input.len)) } } =
        .next { s with tf := u }

/-- R312, R408: a step on a MAC command whose word is refused ends the engine with TF_REFUSE naming the command
byte and its own offset; nothing is emitted and PC is unchanged. The spec's decisions D27 and D33. -/
def Obligations.RefusalNamesTheCommand : Prop :=
  ∀ (s : State) (cmd : Byte) (rest : List Byte),
    s.engine = .tfdce → s.tf.phase = .run → s.tf.ready →
    s.tf.input.bytesFrom s.tf.sp 17 = cmd :: rest → cmd.toNat < 0x20 →
    refusedWlo (s.tf.tableByte (2 * cmd.toNat)) = true →
      ∃ u, step s = .next { s with tf := u } ∧ u.status = .refused ∧
        u.result.refuse = ⟨cmd, s.tf.sp, s.tf.tableByte (2 * cmd.toNat)⟩ ∧ u.sp = s.tf.sp + 1 ∧
        u.p = s.tf.p ∧ u.out = s.tf.out ∧ u.pm = s.tf.pm ∧ u.pc = s.tf.pc ∧ u.po = s.tf.po

/-! ### LS11 -/

/-- R31, R77, R160: the bits that ReadBit answers from BC on are bit 7 − (b mod 8) of slice byte floor(b/8), in
order, up to the end of the slice; and a field of a code is assembled from them by acc = acc·2 + bit. -/
def Obligations.BitReadingOrder : Prop :=
  (∀ (l : Ls11), l.pendingBits.length = 8 * l.cur.clen.toNat - l.bc ∧
    ∀ i, l.bc + i < 8 * l.cur.clen.toNat →
      l.pendingBits[i]? =
        some (decide ((l.input.read (l.cur.off.toNat + (l.bc + i) / 8)).toNat / 2 ^ (7 - (l.bc + i) % 8) % 2 = 1))) ∧
    (∀ (acc cnt : Nat) (rest : List Bool),
      readUnary acc cnt (true :: rest) = readUnary (acc * 2 + 1) (cnt + 1) rest ∧
        readUnary acc cnt (false :: rest) = some (acc * 2, cnt + 1, rest)) ∧
    ∀ (n acc : Nat) (b : Bool) (rest : List Bool),
      readBinary acc (n + 1) (b :: rest) = readBinary (acc * 2 + b.toNat) n rest

/-- R165: LITC c appends DICT[c] to EOUT; nothing else changes. -/
def Obligations.LiteralSymbol : Prop :=
  ∀ (c : Byte) (s : State), s.ls.ep < s.ls.cur.ulen.toNat → s.ls.canonical →
    ∃ m, exec (.litc c) s = .next { s with ls := { s.ls with eout := m, ep := s.ls.ep + 1 } } ∧
      ∀ q, m.read q = if q = s.ls.ep then s.ls.dict.read c.toNat else s.ls.eout.read q

/-- R73, R166, R168: MATCH d, l copies l bytes, or as many as ULEN leaves room for, each the byte d back in EOUT
as it then stands, 0 with EOOB where there is none; nothing else changes but DIST and LEN. The zero fill and the
cut at ULEN are the spec's decisions D9 and D10. -/
def Obligations.MatchSymbol : Prop :=
  ∀ (dist len : Nat) (s : State), s.ls.ep ≤ s.ls.cur.ulen.toNat → s.ls.canonical →
    ∃ m, exec (.matchSym dist len) s = .next
        { s with
          ls :=
            { s.ls with
              eout := m
              ep := s.ls.ep + min len (s.ls.cur.ulen.toNat - s.ls.ep)
              eoob := s.ls.eoob ||
                decide (0 < min len (s.ls.cur.ulen.toNat - s.ls.ep) ∧ (dist = 0 ∨ s.ls.ep < dist))
              regs := { s.ls.regs with dist := dist, len := len } } } ∧
      ∀ q, m.read q =
        if s.ls.ep ≤ q ∧ q < s.ls.ep + min len (s.ls.cur.ulen.toNat - s.ls.ep) then
          (if dist = 0 ∨ q < dist then 0 else m.read (q - dist))
        else s.ls.eout.read q

/-- R143: the sentinel stops the parse and appends nothing. The spec's decision D4. -/
def Obligations.SentinelRecord : Prop :=
  ∀ s : State, exec .fatSentinel s = .next { s with ls := { s.ls with phase := .validate } }

/-- R39, R148: a verbatim entry is the slice, unchanged and whole, and ESHORT and EOOB are reset. The flags of the
entry are the spec's decision D39. -/
def Obligations.VerbatimRecord : Prop :=
  ∀ (clen off : Word32) (s : State), off.toNat + clen.toNat ≤ s.ls.input.len →
    ∃ data, exec (.entryVerbatim clen off) s = .next
        { s with
          ls :=
            { s.ls with
              entries := s.ls.entries ++ [⟨data, .verbatim, clen.toNat, false, false⟩], eshort := false,
              eoob := false } } ∧
      data.len = clen.toNat ∧
      ∀ a, a < clen.toNat → data.read a = s.ls.input.read (off.toNat + a)

/-- R169, R451: a coded entry starts the symbol loop with EP = 0, BC = 0, EOUT all zero and its flags clear. The
spec's decisions D7 and D38; that this record is a step of its own is log entry 21. -/
def Obligations.CodedRecord : Prop :=
  ∀ (clen ulen off : Word32) (s : State), off.toNat + clen.toNat ≤ s.ls.input.len →
    exec (.entryCoded clen ulen off) s = .next
      { s with
        ls :=
          { s.ls with
            phase := .symbols, cur := ⟨clen, ulen, off⟩, bc := 0, eout := [], ep := 0, eshort := false,
            eoob := false } }

/-- The model's choice (log entry 10): an entry whose slice is not inside the archive stops with a fault of the
model's own, since there is no byte to read (R72). -/
def Obligations.SliceOutsideArchiveStops : Prop :=
  ∀ (clen ulen off : Word32) (s : State), s.ls.input.len < off.toNat + clen.toNat →
    exec (.entryVerbatim clen off) s = .fault .inputRange ∧
      exec (.entryCoded clen ulen off) s = .fault .inputRange

/-- R141, R451: a call on fewer than 272 bytes faults HDR_SHORT(0); any other loads the header and the dictionary
and goes on to the FAT. The fault is the spec's decision D3. The model's own in this statement: the step (log entry
21), HDR and DICT all 0 in the HDR_SHORT case (log entry 3; R451 leaves them unset), the current record 0 (log entry
4) and the transient registers 0 (log entry 6); every other register is as R451 says. -/
def Obligations.ArchiveStart : Prop :=
  ∀ s : State, s.engine = .ls11 → s.ls.phase = .start →
    (s.ls.input.len < 272 → step s =
      .next { s with ls := (Ls11.atStart s.ls.input s.ls.mode).faulted .hdrShort 0 }) ∧
    (272 ≤ s.ls.input.len → ∃ hdr dict, step s = .next
        { s with ls := { Ls11.atStart s.ls.input s.ls.mode with phase := .fat, hdr := hdr, dict := dict } } ∧
      (∀ a, hdr.read a = if a < 16 then s.ls.input.read a else 0) ∧
      ∀ a, dict.read a = if a < 256 then s.ls.input.read (16 + a) else 0)

/-- R143: where the FAT ends. FAT_TRUNC(i) when the buffer ends before record i's CLEN or inside a non-sentinel
record; the sentinel, of which only CLEN is read, ends the parse. The faults are the spec's decision D4; the step
is log entry 21. -/
def Obligations.FatTermination : Prop :=
  ∀ s : State, s.engine = .ls11 → s.ls.phase = .fat →
    let r := 272 + 12 * s.ls.fat.length
    (s.ls.input.len < r + 4 → step s = .next { s with ls := s.ls.faulted .fatTrunc s.ls.fat.length }) ∧
    (r + 4 ≤ s.ls.input.len → s.ls.input.u32 r = 0 →
      step s = .next { s with ls := { s.ls with phase := .validate } }) ∧
    (r + 4 ≤ s.ls.input.len → s.ls.input.u32 r ≠ 0 → s.ls.input.len < r + 12 →
      step s = .next { s with ls := s.ls.faulted .fatTrunc s.ls.fat.length })

/-- R75, R142: a record whose CLEN is not 0 is appended to FAT, its fields read big-endian. The model's own in this
statement: that one record is a step of its own (log entry 21) and that it becomes the current record (log entry 4).
-/
def Obligations.FatRecordAppended : Prop :=
  ∀ s : State, s.engine = .ls11 → s.ls.phase = .fat →
    272 + 12 * s.ls.fat.length + 12 ≤ s.ls.input.len →
    s.ls.input.u32 (272 + 12 * s.ls.fat.length) ≠ 0 →
      ∃ rec : FatRec, step s = .next { s with ls := { s.ls with cur := rec, fat := s.ls.fat ++ [rec] } } ∧
        rec.clen.toNat = s.ls.input.u32 (272 + 12 * s.ls.fat.length) ∧
        rec.ulen.toNat = s.ls.input.u32 (272 + 12 * s.ls.fat.length + 4) ∧
        rec.off.toNat = s.ls.input.u32 (272 + 12 * s.ls.fat.length + 8)

/-- R144, R146, R406: the first record whose slice runs past the buffer faults FAT_RANGE; when there is none, a
COUNT call ends with the count and a DECODE call goes on to the entries. The spec's decisions D5 and D6; the step
is log entry 21. -/
def Obligations.FatValidation : Prop :=
  ∀ s : State, s.engine = .ls11 → s.ls.phase = .validate →
    (∀ (i : Nat) (r : FatRec), s.ls.fat[i]? = some r → ¬r.inside s.ls.input.len →
      (∀ (j : Nat) (r' : FatRec), j < i → s.ls.fat[j]? = some r' → r'.inside s.ls.input.len) →
        step s = .next { s with ls := s.ls.faulted .fatRange i }) ∧
    ((∀ r ∈ s.ls.fat, r.inside s.ls.input.len) →
      step s = .next
        { s with ls := if s.ls.mode = .count then s.ls.completed else { s.ls with phase := .entries } })

/-- R170, R171, R403: the loop ends when EP reaches ULEN or the bits are used up, and a symbol cut off by the end of
the slice ends it with nothing emitted; the entry is ULEN bytes of EOUT, its produced count EP, short exactly when
EP < ULEN; the call goes on to the next entry and, but for BC and the transient registers, nothing else changes,
LS_STATUS, LS_FAULT, LS_FAULT_REC and LS_COUNT among it. The spec's decisions D7, D8 and D38. That the end of an
entry is a step of its own is the model's choice, log entry 21. -/
def Obligations.CodedEntryEnd : Prop :=
  ∀ s : State, s.engine = .ls11 → s.ls.phase = .symbols →
    (s.ls.cur.ulen.toNat ≤ s.ls.ep ∨ 8 * s.ls.cur.clen.toNat ≤ s.ls.bc ∨ readSymbol s.ls.pendingBits = none) →
      ∃ bc regs, step s = .next
        { s with
          ls :=
            { s.ls with
              phase := .entries
              bc := bc
              regs := regs
              eshort := decide (s.ls.ep < s.ls.cur.ulen.toNat)
              entries := s.ls.entries ++
                [⟨⟨s.ls.cur.ulen.toNat, s.ls.eout⟩, .coded, s.ls.ep,
                  decide (s.ls.ep < s.ls.cur.ulen.toNat), s.ls.eoob⟩] } }

/-- R147: when every record has its entry, the call ends with LS_STATUS OK, LS_FAULT NONE and LS_COUNT = |FAT|, in a
step of its own (the model's choice, log entry 21); an ended call stays as it is (R409; log entry 22). -/
def Obligations.ArchiveResult : Prop :=
  ∀ s : State, s.engine = .ls11 →
    (s.ls.phase = .entries → s.ls.entries.length = s.ls.fat.length →
      step s = .next { s with ls := s.ls.completed }) ∧
    (s.ls.phase = .ended → step s = .next s)

/-- R172: over an all-zero dictionary every symbol keeps EOUT all zero, and so does every entry result (an
inference of the spec). Zeros past EP and zero-filled sources are the spec's decisions D7 and D9. -/
def Obligations.ZeroDictionary : Prop :=
  ∀ s t : State, s.engine = .ls11 → s.ls.phase = .symbols → s.ls.canonical →
    (∀ a, s.ls.dict.read a = 0) → (∀ a, s.ls.eout.read a = 0) → step s = .next t →
      (∀ a, t.ls.eout.read a = 0) ∧
        ∀ e ∈ t.ls.entries, e ∈ s.ls.entries ∨ (e.data.len = s.ls.cur.ulen.toNat ∧ ∀ a, e.data.read a = 0)

/-! ### Reset and the start of a call -/

/-- R40, R44, R46 to R48: the reset values that the spec states. (IN, LS_MODE, HDR, DICT, the header registers,
the transient registers and the TF-DCE result registers hold values of the model's choice, log entries 2 to 7,
and are not in this statement.) The spec's decisions D1, D13, D14 and D32 are behind these rules. -/
def Obligations.ResetValues : Prop :=
  State.reset.ls.status = .ok ∧ State.reset.ls.fault = .none ∧ State.reset.ls.faultRec = 0 ∧
    State.reset.ls.count = 0 ∧ State.reset.ls.entries = [] ∧ State.reset.ls.fat = [] ∧
    State.reset.tf.pc = ⟨0x00, 0xFF, 0x55, 0xAA⟩ ∧ (∀ k a, State.reset.tf.pm.read k a = 0) ∧
    (∀ a, State.reset.tf.out.read a = 0) ∧ State.reset.tf.p = 0 ∧ State.reset.tf.oobf = false ∧
    State.reset.tf.status = .running

/-- R200 to R203, R452: the first step of a TF-DCE call, from any state: STATUS, SELB, N, PO, SP, PC, PM, OUT, P
and OOBF have the values of R452. The zero fill is the spec's decision D11, the plane order D12; the step is log
entry 21. -/
def Obligations.RecordStart : Prop :=
  ∀ s : State, s.engine = .tfdce → s.tf.phase = .start →
    ∃ u, step s = .next { s with tf := u } ∧ u.input = s.tf.input ∧ u.phase = .run ∧ u.status = .running ∧
      u.selb = (if 7 < s.tf.input.len then s.tf.input.read 7 else 0) ∧
      u.n = (if 9 < s.tf.input.len then s.tf.input.read 9 else 0) ∧
      u.oobf = decide (s.tf.input.len ≤ 9) ∧ u.po = planeOrderTable u.selb ∧ u.sp = 10 + 2 * u.n.toNat ∧
      u.pc = ⟨0x00, 0xFF, 0x55, 0xAA⟩ ∧ (∀ k a, u.pm.read k a = 0) ∧ (∀ a, u.out.read a = 0) ∧ u.p = 0

/-! ### The whole machine -/

/-- The invariant of both engines is kept by every step, from every state in which it holds. -/
def Obligations.StepKeepsInvariant : Prop :=
  ∀ s t : State, s.Inv → step s = .next t → t.Inv

/-- The invariant holds at reset, and at the start of every call on a buffer in canonical form. -/
def Obligations.InvariantAtStart : Prop :=
  State.reset.Inv ∧
    ∀ (s : State) (input : Buffer) (mode : LsMode), s.Inv → input.wf →
      (s.callTfdce input).Inv ∧ (s.callLs11 input mode).Inv

/-- R125, R402: no step from a state in which the invariant holds stops with a fault or a refusal: every stream
and every archive runs on to the end of its call. The spec's decisions D32 and D37. -/
def Obligations.StepAlwaysAnswers : Prop := ∀ s : State, s.Inv → ∃ t, step s = .next t

/-- R46, R53: PM[3] and every plane cell outside columns 0 to 7 hold 0 in every state of a run (an inference of
the spec). The value 0 is its decision D13. -/
def Obligations.UnusedPlaneCells : Prop :=
  ∀ t : TfDce, t.Inv → t.phase = .run →
    (∀ a, t.pm.read 3 a = 0) ∧ ∀ k a, 8 ≤ a % 80 → t.pm.read k a = 0

/-- R30: a step of one engine leaves the other engine's state alone. That the same engine goes on is the model's
choice, log entry 1. -/
def Obligations.EnginesShareNoState : Prop :=
  ∀ s t : State, step s = .next t →
    t.engine = s.engine ∧ (s.engine = .tfdce → t.ls = s.ls) ∧ (s.engine = .ls11 → t.tf = s.tf)

/-- R33, R41, R88: no step changes an input buffer or LS_MODE. That no caller changes IN either is the spec's
decision D36 (log entry 19). -/
def Obligations.InputsAreReadOnly : Prop :=
  ∀ s t : State, step s = .next t →
    t.tf.input = s.tf.input ∧ t.ls.input = s.ls.input ∧ t.ls.mode = s.ls.mode

/-- R450, R454, R467: what a call does depends on its inputs alone (an inference of the spec): after any number
of steps, two calls on the same inputs agree, whatever ran before them. -/
def Obligations.CallsForgetThePast : Prop :=
  ∀ (s s' : State) (input : Buffer) (mode : LsMode) (k : Nat) (t : State),
    (Sys2Proof.core.run k (s.callTfdce input) = .next t →
      ∃ t' : State, Sys2Proof.core.run k (s'.callTfdce input) = .next t' ∧ t'.tf = t.tf) ∧
    (Sys2Proof.core.run k (s.callLs11 input mode) = .next t →
      ∃ t' : State, Sys2Proof.core.run k (s'.callLs11 input mode) = .next t' ∧ t'.ls = t.ls)

/-- R214, R465: the TF-DCE engine stops within one step for every stream byte left and one more (an inference of
the spec). -/
def Obligations.RecordCallTerminates : Prop :=
  ∀ s : State, s.engine = .tfdce → s.tf.phase = .run →
    ∃ k t, k ≤ s.tf.input.len - s.tf.sp + 1 ∧ Sys2Proof.core.run k s = .next t ∧
      (t : State).tf.status ≠ .running

/-- R465: every LS11 call ends, within its bounds (an inference of the spec), from every state in which the invariant
holds: the FAT parse reads at most floor((L − 272)/12) + 1 records; a coded entry runs at most 4·CLEN symbols (one
for every two bits left) and then ends; a symbol writes at most ULEN bytes; and the whole call takes no more than
these and the steps between them. The steps other than the symbols are the model's, log entry 21. -/
def Obligations.ArchiveCallTerminates : Prop :=
  ∀ s : State, s.engine = .ls11 → s.Inv →
    (s.ls.phase = .fat →
      ∃ k t, k ≤ (s.ls.input.len - 272) / 12 + 1 - s.ls.fat.length ∧ Sys2Proof.core.run k s = .next t ∧
        (t : State).ls.phase ≠ .fat) ∧
    (s.ls.phase = .symbols →
      (∃ k t, k ≤ (8 * s.ls.cur.clen.toNat - s.ls.bc) / 2 + 1 ∧ Sys2Proof.core.run k s = .next t ∧
        (t : State).ls.phase = .entries ∧ (t : State).ls.entries.length = s.ls.entries.length + 1) ∧
      ∀ t, step s = .next t → s.ls.ep ≤ t.ls.ep ∧ t.ls.ep ≤ s.ls.cur.ulen.toNat) ∧
    ∃ k t,
      k ≤ (s.ls.input.len - 272) / 12 + 4 + ((t : State).ls.fat.map fun r => 4 * r.clen.toNat + 2).sum ∧
        Sys2Proof.core.run k s = .next t ∧ (t : State).ls.phase = .ended
end

