-- ==== Sys2Proof/Laws/Memory.lean ====
section
/-! SUPPORT. The laws of memory: read after write, and every memory operation keeps the canonical form. -/

namespace Sys2Proof.Machine

variable {m : Memory} {a b n : Nat} {v : Byte}

@[simp] theorem Memory.read_nil (a : Nat) : Memory.read [] a = 0 := rfl

@[simp] theorem Memory.wf_nil : Memory.wf [] := ⟨List.Pairwise.nil, by simp⟩

theorem Memory.wf_cons {c : Host.Cell} :
    Memory.wf (c :: m) ↔ (∀ x ∈ m, c.1 < x.1) ∧ c.2 ≠ 0 ∧ Memory.wf m := by
  simp only [Memory.wf, List.pairwise_cons, List.mem_cons, forall_eq_or_imp]
  exact ⟨fun ⟨⟨h1, h2⟩, h3, h4⟩ => ⟨h1, h3, h2, h4⟩, fun ⟨h1, h3, h2, h4⟩ => ⟨⟨h1, h2⟩, h3, h4⟩⟩

/-- An address that no entry names reads 0. -/
theorem Memory.read_eq_zero (h : ∀ c ∈ m, c.1 ≠ a) : m.read a = 0 := by
  induction m with
  | nil => rfl
  | cons c m ih =>
    simp only [List.mem_cons, forall_eq_or_imp] at h
    simp only [Memory.read]
    rw [if_neg h.1]
    exact ih h.2

theorem Memory.read_of_below (h : m.below n) (ha : n ≤ a) : m.read a = 0 :=
  Memory.read_eq_zero fun c hc => by have := h c hc; omega

/-- A canonical memory lists exactly the addresses that do not read 0. -/
theorem Memory.below_of_read (hm : m.wf) (h : ∀ a, n ≤ a → m.read a = 0) : m.below n := by
  induction m with
  | nil => simp
  | cons c m ih =>
    obtain ⟨h1, h2, h3⟩ := Memory.wf_cons.1 hm
    intro x hx
    rcases List.mem_cons.1 hx with rfl | hx
    · refine Nat.lt_of_not_le fun hc => h2 ?_
      simpa [Memory.read] using h x.1 hc
    · refine ih h3 (fun a ha => ?_) x hx
      have := h a ha
      by_cases hca : c.1 = a
      · exact Memory.read_eq_zero fun y hy => by have := h1 y hy; omega
      · simpa [Memory.read, hca] using this

/-- Two canonical memories that read alike are equal. -/
theorem Memory.ext_read {m m' : Memory} (hm : m.wf) (hm' : m'.wf) (h : ∀ a, m.read a = m'.read a) :
    m = m' := by
  induction m generalizing m' with
  | nil =>
    cases m' with
    | nil => rfl
    | cons c' m' =>
      have := h c'.1
      simp [Memory.read] at this
      exact absurd this.symm (Memory.wf_cons.1 hm').2.1
  | cons c m ih =>
    obtain ⟨h1, h2, h3⟩ := Memory.wf_cons.1 hm
    cases m' with
    | nil =>
      have := h c.1
      simp [Memory.read] at this
      exact absurd this h2
    | cons c' m' =>
      obtain ⟨h1', h2', h3'⟩ := Memory.wf_cons.1 hm'
      have key : c.1 = c'.1 := by
        rcases Nat.lt_trichotomy c.1 c'.1 with hlt | heq | hgt
        · have := h c.1
          have hz : Memory.read (c' :: m') c.1 = 0 :=
            Memory.read_eq_zero fun y hy => by
              rcases List.mem_cons.1 hy with rfl | hy
              · omega
              · have := h1' y hy; omega
          rw [hz] at this
          simp [Memory.read] at this
          exact absurd this h2
        · exact heq
        · have := h c'.1
          have hz : Memory.read (c :: m) c'.1 = 0 :=
            Memory.read_eq_zero fun y hy => by
              rcases List.mem_cons.1 hy with rfl | hy
              · omega
              · have := h1 y hy; omega
          rw [hz] at this
          simp [Memory.read] at this
          exact absurd this.symm h2'
      have hv : c.2 = c'.2 := by
        have := h c.1
        simpa [Memory.read, key] using this
      have : m = m' := by
        refine ih h3 h3' fun a => ?_
        by_cases ha : c.1 = a
        · rw [Memory.read_eq_zero fun y hy => by have := h1 y hy; omega,
            Memory.read_eq_zero fun y hy => by have := h1' y hy; omega]
        · have := h a
          simpa [Memory.read, ha, key ▸ ha] using this
      rw [this, Prod.ext key hv]

theorem Memory.mem_write {c : Host.Cell} (h : c ∈ m.write a v) : c ∈ m ∨ (c = (a, v) ∧ v ≠ 0) := by
  induction m with
  | nil =>
    simp only [Memory.write] at h
    split at h <;> simp_all
  | cons d m ih =>
    obtain ⟨k, b⟩ := d
    simp only [Memory.write] at h
    split at h
    · rcases List.mem_cons.1 h with rfl | h
      · exact .inl (by simp)
      · rcases ih h with h | h
        · exact .inl (by simp [h])
        · exact .inr h
    · split at h <;> split at h <;> simp only [List.mem_cons] at h ⊢
      · exact .inl (.inr h)
      · rcases h with h | h
        · exact .inr ⟨h, by assumption⟩
        · exact .inl (.inr h)
      · exact .inl h
      · rcases h with h | h
        · exact .inr ⟨h, by assumption⟩
        · exact .inl h

/-- A write keeps the canonical form. -/
theorem Memory.write_wf (hm : m.wf) : (m.write a v).wf := by
  induction m with
  | nil =>
    simp only [Memory.write]
    split
    · exact Memory.wf_nil
    · exact Memory.wf_cons.2 ⟨fun x hx => (nomatch hx), by assumption, Memory.wf_nil⟩
  | cons d m ih =>
    obtain ⟨k, b⟩ := d
    obtain ⟨h1, h2, h3⟩ := Memory.wf_cons.1 hm
    simp only [Memory.write]
    split
    · refine Memory.wf_cons.2 ⟨fun x hx => ?_, h2, ih h3⟩
      rcases Memory.mem_write hx with hx | ⟨rfl, _⟩
      · exact h1 x hx
      · assumption
    · split
      · split
        · exact h3
        · exact Memory.wf_cons.2 ⟨fun x hx => by have := h1 x hx; simp_all, by assumption, h3⟩
      · split
        · exact hm
        · refine Memory.wf_cons.2 ⟨fun x hx => ?_, by assumption, hm⟩
          rcases List.mem_cons.1 hx with rfl | hx
          · simp only; omega
          · have := h1 x hx; simp only at this ⊢; omega

/-- A write stays below a bound that its address is below. -/
theorem Memory.write_below (h : m.below n) (ha : a < n) : (m.write a v).below n := fun c hc => by
  rcases Memory.mem_write hc with hc | ⟨rfl, _⟩
  · exact h c hc
  · exact ha

/-- Read after write. -/
theorem Memory.read_write (hm : m.wf) : (m.write a v).read b = if b = a then v else m.read b := by
  induction m with
  | nil =>
    simp only [Memory.write]
    split <;> rename_i hv
    · simp [hv]
    · simp [Memory.read, eq_comm]
  | cons d m ih =>
    obtain ⟨k, w⟩ := d
    obtain ⟨h1, h2, h3⟩ := Memory.wf_cons.1 hm
    simp only [Memory.write]
    split <;> rename_i hk
    · simp only [Memory.read, ih h3]
      split <;> rename_i hkb <;> split <;> rename_i hba
      · omega
      · rfl
      · rfl
      · rfl
    · split <;> rename_i hka
      · subst hka
        split <;> rename_i hv
        · split <;> rename_i hba
          · subst hba
            rw [hv]
            exact Memory.read_eq_zero fun y hy => by have := h1 y hy; simp only at this; omega
          · simp [Memory.read, Ne.symm hba]
        · simp only [Memory.read]
          split <;> rename_i hba
          · simp [hba]
          · simp [Ne.symm hba]
      · split <;> rename_i hv
        · split <;> rename_i hba
          · subst hba
            rw [hv]
            exact Memory.read_eq_zero fun y hy => by
              rcases List.mem_cons.1 hy with rfl | hy
              · simp only; omega
              · have := h1 y hy; simp only at this; omega
          · rfl
        · simp only [Memory.read]
          by_cases hba : b = a
          · simp [hba]
          · simp [hba, Ne.symm hba]

@[simp] theorem Memory.read_write_same (hm : m.wf) : (m.write a v).read a = v := by
  simp [Memory.read_write hm]

theorem Memory.read_write_other (hm : m.wf) (h : b ≠ a) : (m.write a v).read b = m.read b := by
  simp [Memory.read_write hm, h]

/-- Storing several bytes keeps the canonical form. -/
theorem Memory.writeBytes_wf {bs : List Byte} (hm : m.wf) : (m.writeBytes a bs).wf := by
  induction bs generalizing m a with
  | nil => exact hm
  | cons b bs ih => exact ih (Memory.write_wf hm)

theorem Memory.writeBytes_below {bs : List Byte} (h : m.below n) (ha : a + bs.length ≤ n) :
    (m.writeBytes a bs).below n := by
  induction bs generalizing m a with
  | nil => exact h
  | cons b bs ih =>
    simp only [List.length_cons] at ha
    exact ih (Memory.write_below h (by omega)) (by omega)

theorem Memory.mem_ofBytes {bs : List Byte} {c : Host.Cell} (h : c ∈ Memory.ofBytes a bs) :
    a ≤ c.1 ∧ c.1 < a + bs.length := by
  induction bs generalizing a with
  | nil => simp [Memory.ofBytes] at h
  | cons b bs ih =>
    simp only [Memory.ofBytes] at h
    simp only [List.length_cons]
    split at h
    · have := ih h; omega
    · rcases List.mem_cons.1 h with rfl | h
      · simp only; omega
      · have := ih h; omega

/-- Bytes laid out are in canonical form. -/
theorem Memory.ofBytes_wf {bs : List Byte} : (Memory.ofBytes a bs).wf := by
  induction bs generalizing a with
  | nil => exact Memory.wf_nil
  | cons b bs ih =>
    simp only [Memory.ofBytes]
    split
    · exact ih
    · exact Memory.wf_cons.2
        ⟨fun x hx => by have := (Memory.mem_ofBytes hx).1; simp only; omega, by assumption, ih⟩

theorem Buffer.ofBytes_wf (bs : List Byte) : (Buffer.ofBytes bs).wf :=
  ⟨Memory.ofBytes_wf, fun c hc => by have := (Memory.mem_ofBytes hc).2; simpa [Buffer.ofBytes] using this⟩

/-- A slice of a canonical memory is canonical. -/
theorem Memory.slice_wf {off len : Nat} (hm : m.wf) : (m.slice off len).wf := by
  induction m with
  | nil => exact Memory.wf_nil
  | cons c m ih =>
    obtain ⟨h1, h2, h3⟩ := Memory.wf_cons.1 hm
    simp only [Memory.slice, List.filter_cons]
    split
    · rename_i hc
      simp only [Bool.and_eq_true, decide_eq_true_eq] at hc
      refine Memory.wf_cons.2 ⟨fun x hx => ?_, h2, ih h3⟩
      obtain ⟨y, hy, rfl⟩ := List.mem_map.1 hx
      have := h1 y (List.mem_filter.1 hy).1
      simp only
      omega
    · exact ih h3

/-- A slice lists nothing past its length. -/
theorem Memory.slice_below {off len : Nat} : (m.slice off len).below len := fun c hc => by
  obtain ⟨y, hy, rfl⟩ := List.mem_map.1 hc
  have := (List.mem_filter.1 hy).2
  simp only [Bool.and_eq_true, decide_eq_true_eq] at this
  simp only
  omega

/-- What a slice reads. -/
theorem Memory.read_slice {off len : Nat} :
    (m.slice off len).read a = if a < len then m.read (off + a) else 0 := by
  induction m with
  | nil => simp [Memory.slice]
  | cons c m ih =>
    obtain ⟨k, w⟩ := c
    simp only [Memory.slice, List.filter_cons] at ih ⊢
    split <;> rename_i hc <;> simp only [Bool.and_eq_true, decide_eq_true_eq] at hc
    · simp only [List.map_cons, Memory.read]
      by_cases hka : k - off = a
      · simp [show a < len by omega, show k = off + a by omega]
      · rw [if_neg hka, ih, if_neg (show ¬k = off + a by omega)]
    · rw [ih]
      split
      · rw [Memory.read, if_neg (by omega)]
      · rfl

/-- The slice of a buffer is a buffer in canonical form. -/
theorem Buffer.slice_wf {b : Buffer} {off len : Nat} (h : b.wf) : (b.slice off len).wf :=
  ⟨Memory.slice_wf h.1, Memory.slice_below⟩

theorem Buffer.length_bytesFrom (b : Buffer) : (b.bytesFrom a n).length = min n (b.len - a) := by
  induction n generalizing a with
  | zero => simp [Buffer.bytesFrom]
  | succ n ih =>
    simp only [Buffer.bytesFrom]
    split
    · simp only [List.length_cons, ih]; omega
    · simp only [List.length_nil]; omega

/-- A plane write keeps every plane in canonical form. -/
theorem Planes.write_wf {pm : Planes} {k : BitVec 2} (h : pm.wf) : (pm.write k a v).wf := by
  obtain ⟨h0, h1, h2, h3⟩ := h
  unfold Planes.write
  split
  · exact ⟨Memory.write_wf h0, h1, h2, h3⟩
  · split
    · exact ⟨h0, Memory.write_wf h1, h2, h3⟩
    · split
      · exact ⟨h0, h1, Memory.write_wf h2, h3⟩
      · exact ⟨h0, h1, h2, Memory.write_wf h3⟩

/-- Read after write in the planes. -/
theorem Planes.read_write {pm : Planes} {k j : BitVec 2} (h : pm.wf) :
    (pm.write k a v).read j b = if j = k ∧ b = a then v else pm.read j b := by
  obtain ⟨h0, h1, h2, h3⟩ := h
  have hk : k = 0 ∨ k = 1 ∨ k = 2 ∨ k = 3 := by revert k; decide
  have hj : j = 0 ∨ j = 1 ∨ j = 2 ∨ j = 3 := by revert j; decide
  rcases hk with rfl | rfl | rfl | rfl <;> rcases hj with rfl | rfl | rfl | rfl <;>
    simp [Planes.write, Planes.read, Planes.get, Memory.read_write h0, Memory.read_write h1,
      Memory.read_write h2, Memory.read_write h3]

end Sys2Proof.Machine
end

