-- ==== Sys2Proof/Laws/State.lean ====
section
/-! SUPPORT. The small lemmas of every named update of the state: one per field, true by `rfl`, so that no later
proof unfolds a record update. A field that an update computes from more than its arguments (a result register,
the transient registers of a read) is left to the update's own definition. -/

namespace Sys2Proof.Machine

/-! ### TF-DCE -/

@[simp] theorem TfDce.haltTrunc_input (t : TfDce) : (TfDce.haltTrunc t).input = t.input := rfl
@[simp] theorem TfDce.haltTrunc_phase (t : TfDce) : (TfDce.haltTrunc t).phase = t.phase := rfl
@[simp] theorem TfDce.haltTrunc_selb (t : TfDce) : (TfDce.haltTrunc t).selb = t.selb := rfl
@[simp] theorem TfDce.haltTrunc_n (t : TfDce) : (TfDce.haltTrunc t).n = t.n := rfl
@[simp] theorem TfDce.haltTrunc_po (t : TfDce) : (TfDce.haltTrunc t).po = t.po := rfl
@[simp] theorem TfDce.haltTrunc_pc (t : TfDce) : (TfDce.haltTrunc t).pc = t.pc := rfl
@[simp] theorem TfDce.haltTrunc_pm (t : TfDce) : (TfDce.haltTrunc t).pm = t.pm := rfl
@[simp] theorem TfDce.haltTrunc_out (t : TfDce) : (TfDce.haltTrunc t).out = t.out := rfl
@[simp] theorem TfDce.haltTrunc_p (t : TfDce) : (TfDce.haltTrunc t).p = t.p := rfl
@[simp] theorem TfDce.haltTrunc_sp (t : TfDce) : (TfDce.haltTrunc t).sp = t.sp := rfl
@[simp] theorem TfDce.haltTrunc_oobf (t : TfDce) : (TfDce.haltTrunc t).oobf = t.oobf := rfl
@[simp] theorem TfDce.haltTrunc_status (t : TfDce) : (TfDce.haltTrunc t).status = .trunc := rfl
@[simp] theorem TfDce.haltTrunc_regs (t : TfDce) : (TfDce.haltTrunc t).regs = t.regs := rfl
@[simp] theorem TfDce.haltTrunc_result (t : TfDce) : (TfDce.haltTrunc t).result = t.result := rfl

@[simp] theorem TfDce.refuse_input (wlo : Byte) (t : TfDce) : (TfDce.refuse wlo t).input = t.input := rfl
@[simp] theorem TfDce.refuse_phase (wlo : Byte) (t : TfDce) : (TfDce.refuse wlo t).phase = t.phase := rfl
@[simp] theorem TfDce.refuse_selb (wlo : Byte) (t : TfDce) : (TfDce.refuse wlo t).selb = t.selb := rfl
@[simp] theorem TfDce.refuse_n (wlo : Byte) (t : TfDce) : (TfDce.refuse wlo t).n = t.n := rfl
@[simp] theorem TfDce.refuse_po (wlo : Byte) (t : TfDce) : (TfDce.refuse wlo t).po = t.po := rfl
@[simp] theorem TfDce.refuse_pc (wlo : Byte) (t : TfDce) : (TfDce.refuse wlo t).pc = t.pc := rfl
@[simp] theorem TfDce.refuse_pm (wlo : Byte) (t : TfDce) : (TfDce.refuse wlo t).pm = t.pm := rfl
@[simp] theorem TfDce.refuse_out (wlo : Byte) (t : TfDce) : (TfDce.refuse wlo t).out = t.out := rfl
@[simp] theorem TfDce.refuse_p (wlo : Byte) (t : TfDce) : (TfDce.refuse wlo t).p = t.p := rfl
@[simp] theorem TfDce.refuse_sp (wlo : Byte) (t : TfDce) : (TfDce.refuse wlo t).sp = t.sp := rfl
@[simp] theorem TfDce.refuse_oobf (wlo : Byte) (t : TfDce) : (TfDce.refuse wlo t).oobf = t.oobf := rfl
@[simp] theorem TfDce.refuse_status (wlo : Byte) (t : TfDce) : (TfDce.refuse wlo t).status = .refused := rfl
@[simp] theorem TfDce.refuse_regs (wlo : Byte) (t : TfDce) : (TfDce.refuse wlo t).regs = t.regs := rfl

@[simp] theorem TfDce.writeResult_input (t : TfDce) : (TfDce.writeResult t).input = t.input := rfl
@[simp] theorem TfDce.writeResult_phase (t : TfDce) : (TfDce.writeResult t).phase = t.phase := rfl
@[simp] theorem TfDce.writeResult_selb (t : TfDce) : (TfDce.writeResult t).selb = t.selb := rfl
@[simp] theorem TfDce.writeResult_n (t : TfDce) : (TfDce.writeResult t).n = t.n := rfl
@[simp] theorem TfDce.writeResult_po (t : TfDce) : (TfDce.writeResult t).po = t.po := rfl
@[simp] theorem TfDce.writeResult_pc (t : TfDce) : (TfDce.writeResult t).pc = t.pc := rfl
@[simp] theorem TfDce.writeResult_pm (t : TfDce) : (TfDce.writeResult t).pm = t.pm := rfl
@[simp] theorem TfDce.writeResult_out (t : TfDce) : (TfDce.writeResult t).out = t.out := rfl
@[simp] theorem TfDce.writeResult_p (t : TfDce) : (TfDce.writeResult t).p = t.p := rfl
@[simp] theorem TfDce.writeResult_sp (t : TfDce) : (TfDce.writeResult t).sp = t.sp := rfl
@[simp] theorem TfDce.writeResult_oobf (t : TfDce) : (TfDce.writeResult t).oobf = t.oobf := rfl
@[simp] theorem TfDce.writeResult_status (t : TfDce) : (TfDce.writeResult t).status = t.status := rfl
@[simp] theorem TfDce.writeResult_regs (t : TfDce) : (TfDce.writeResult t).regs = t.regs := rfl

@[simp] theorem TfDce.stop_input (st : TfStatus) (t : TfDce) : (TfDce.stop st t).input = t.input := rfl
@[simp] theorem TfDce.stop_phase (st : TfStatus) (t : TfDce) : (TfDce.stop st t).phase = t.phase := rfl
@[simp] theorem TfDce.stop_selb (st : TfStatus) (t : TfDce) : (TfDce.stop st t).selb = t.selb := rfl
@[simp] theorem TfDce.stop_n (st : TfStatus) (t : TfDce) : (TfDce.stop st t).n = t.n := rfl
@[simp] theorem TfDce.stop_po (st : TfStatus) (t : TfDce) : (TfDce.stop st t).po = t.po := rfl
@[simp] theorem TfDce.stop_pc (st : TfStatus) (t : TfDce) : (TfDce.stop st t).pc = t.pc := rfl
@[simp] theorem TfDce.stop_pm (st : TfStatus) (t : TfDce) : (TfDce.stop st t).pm = t.pm := rfl
@[simp] theorem TfDce.stop_out (st : TfStatus) (t : TfDce) : (TfDce.stop st t).out = t.out := rfl
@[simp] theorem TfDce.stop_p (st : TfStatus) (t : TfDce) : (TfDce.stop st t).p = t.p := rfl
@[simp] theorem TfDce.stop_sp (st : TfStatus) (t : TfDce) : (TfDce.stop st t).sp = t.sp := rfl
@[simp] theorem TfDce.stop_oobf (st : TfStatus) (t : TfDce) : (TfDce.stop st t).oobf = t.oobf := rfl
@[simp] theorem TfDce.stop_status (st : TfStatus) (t : TfDce) : (TfDce.stop st t).status = st := rfl
@[simp] theorem TfDce.stop_regs (st : TfStatus) (t : TfDce) : (TfDce.stop st t).regs = t.regs := rfl

@[simp] theorem TfDce.ageSlot_input (j : BitVec 2) (t : TfDce) : (TfDce.ageSlot j t).input = t.input := rfl
@[simp] theorem TfDce.ageSlot_phase (j : BitVec 2) (t : TfDce) : (TfDce.ageSlot j t).phase = t.phase := rfl
@[simp] theorem TfDce.ageSlot_selb (j : BitVec 2) (t : TfDce) : (TfDce.ageSlot j t).selb = t.selb := rfl
@[simp] theorem TfDce.ageSlot_n (j : BitVec 2) (t : TfDce) : (TfDce.ageSlot j t).n = t.n := rfl
@[simp] theorem TfDce.ageSlot_po (j : BitVec 2) (t : TfDce) : (TfDce.ageSlot j t).po = t.po := rfl
@[simp] theorem TfDce.ageSlot_pc (j : BitVec 2) (t : TfDce) : (TfDce.ageSlot j t).pc = t.pc.age j := rfl
@[simp] theorem TfDce.ageSlot_pm (j : BitVec 2) (t : TfDce) : (TfDce.ageSlot j t).pm = t.pm := rfl
@[simp] theorem TfDce.ageSlot_out (j : BitVec 2) (t : TfDce) : (TfDce.ageSlot j t).out = t.out := rfl
@[simp] theorem TfDce.ageSlot_p (j : BitVec 2) (t : TfDce) : (TfDce.ageSlot j t).p = t.p := rfl
@[simp] theorem TfDce.ageSlot_sp (j : BitVec 2) (t : TfDce) : (TfDce.ageSlot j t).sp = t.sp := rfl
@[simp] theorem TfDce.ageSlot_oobf (j : BitVec 2) (t : TfDce) : (TfDce.ageSlot j t).oobf = t.oobf := rfl
@[simp] theorem TfDce.ageSlot_status (j : BitVec 2) (t : TfDce) : (TfDce.ageSlot j t).status = t.status := rfl
@[simp] theorem TfDce.ageSlot_regs (j : BitVec 2) (t : TfDce) : (TfDce.ageSlot j t).regs = t.regs := rfl
@[simp] theorem TfDce.ageSlot_result (j : BitVec 2) (t : TfDce) : (TfDce.ageSlot j t).result = t.result := rfl

@[simp] theorem TfDce.promoteMask_input (m : Byte) (t : TfDce) : (TfDce.promoteMask m t).input = t.input := rfl
@[simp] theorem TfDce.promoteMask_phase (m : Byte) (t : TfDce) : (TfDce.promoteMask m t).phase = t.phase := rfl
@[simp] theorem TfDce.promoteMask_selb (m : Byte) (t : TfDce) : (TfDce.promoteMask m t).selb = t.selb := rfl
@[simp] theorem TfDce.promoteMask_n (m : Byte) (t : TfDce) : (TfDce.promoteMask m t).n = t.n := rfl
@[simp] theorem TfDce.promoteMask_po (m : Byte) (t : TfDce) : (TfDce.promoteMask m t).po = t.po := rfl
@[simp] theorem TfDce.promoteMask_pc (m : Byte) (t : TfDce) : (TfDce.promoteMask m t).pc = t.pc.promote m := rfl
@[simp] theorem TfDce.promoteMask_pm (m : Byte) (t : TfDce) : (TfDce.promoteMask m t).pm = t.pm := rfl
@[simp] theorem TfDce.promoteMask_out (m : Byte) (t : TfDce) : (TfDce.promoteMask m t).out = t.out := rfl
@[simp] theorem TfDce.promoteMask_p (m : Byte) (t : TfDce) : (TfDce.promoteMask m t).p = t.p := rfl
@[simp] theorem TfDce.promoteMask_sp (m : Byte) (t : TfDce) : (TfDce.promoteMask m t).sp = t.sp := rfl
@[simp] theorem TfDce.promoteMask_oobf (m : Byte) (t : TfDce) : (TfDce.promoteMask m t).oobf = t.oobf := rfl
@[simp] theorem TfDce.promoteMask_status (m : Byte) (t : TfDce) : (TfDce.promoteMask m t).status = t.status := rfl
@[simp] theorem TfDce.promoteMask_regs (m : Byte) (t : TfDce) : (TfDce.promoteMask m t).regs = t.regs := rfl
@[simp] theorem TfDce.promoteMask_result (m : Byte) (t : TfDce) : (TfDce.promoteMask m t).result = t.result := rfl

@[simp] theorem TfDce.rotateMask_input (t : TfDce) : (TfDce.rotateMask t).input = t.input := rfl
@[simp] theorem TfDce.rotateMask_phase (t : TfDce) : (TfDce.rotateMask t).phase = t.phase := rfl
@[simp] theorem TfDce.rotateMask_selb (t : TfDce) : (TfDce.rotateMask t).selb = t.selb := rfl
@[simp] theorem TfDce.rotateMask_n (t : TfDce) : (TfDce.rotateMask t).n = t.n := rfl
@[simp] theorem TfDce.rotateMask_po (t : TfDce) : (TfDce.rotateMask t).po = t.po := rfl
@[simp] theorem TfDce.rotateMask_pc (t : TfDce) : (TfDce.rotateMask t).pc = t.pc := rfl
@[simp] theorem TfDce.rotateMask_pm (t : TfDce) : (TfDce.rotateMask t).pm = t.pm := rfl
@[simp] theorem TfDce.rotateMask_out (t : TfDce) : (TfDce.rotateMask t).out = t.out := rfl
@[simp] theorem TfDce.rotateMask_p (t : TfDce) : (TfDce.rotateMask t).p = t.p := rfl
@[simp] theorem TfDce.rotateMask_sp (t : TfDce) : (TfDce.rotateMask t).sp = t.sp := rfl
@[simp] theorem TfDce.rotateMask_oobf (t : TfDce) : (TfDce.rotateMask t).oobf = t.oobf := rfl
@[simp] theorem TfDce.rotateMask_status (t : TfDce) : (TfDce.rotateMask t).status = t.status := rfl
@[simp] theorem TfDce.rotateMask_result (t : TfDce) : (TfDce.rotateMask t).result = t.result := rfl

@[simp] theorem TfDce.htRead_input (i : BitVec 5) (t : TfDce) : (TfDce.htRead i t).input = t.input := rfl
@[simp] theorem TfDce.htRead_phase (i : BitVec 5) (t : TfDce) : (TfDce.htRead i t).phase = t.phase := rfl
@[simp] theorem TfDce.htRead_selb (i : BitVec 5) (t : TfDce) : (TfDce.htRead i t).selb = t.selb := rfl
@[simp] theorem TfDce.htRead_n (i : BitVec 5) (t : TfDce) : (TfDce.htRead i t).n = t.n := rfl
@[simp] theorem TfDce.htRead_po (i : BitVec 5) (t : TfDce) : (TfDce.htRead i t).po = t.po := rfl
@[simp] theorem TfDce.htRead_pc (i : BitVec 5) (t : TfDce) : (TfDce.htRead i t).pc = t.pc := rfl
@[simp] theorem TfDce.htRead_pm (i : BitVec 5) (t : TfDce) : (TfDce.htRead i t).pm = t.pm := rfl
@[simp] theorem TfDce.htRead_out (i : BitVec 5) (t : TfDce) : (TfDce.htRead i t).out = t.out := rfl
@[simp] theorem TfDce.htRead_p (i : BitVec 5) (t : TfDce) : (TfDce.htRead i t).p = t.p := rfl
@[simp] theorem TfDce.htRead_sp (i : BitVec 5) (t : TfDce) : (TfDce.htRead i t).sp = t.sp := rfl
@[simp] theorem TfDce.htRead_status (i : BitVec 5) (t : TfDce) : (TfDce.htRead i t).status = t.status := rfl
@[simp] theorem TfDce.htRead_result (i : BitVec 5) (t : TfDce) : (TfDce.htRead i t).result = t.result := rfl

@[simp] theorem TfDce.readCommand_input (cmd : Byte) (rest : List Byte) (t : TfDce) :
    (TfDce.readCommand cmd rest t).input = t.input := rfl
@[simp] theorem TfDce.readCommand_phase (cmd : Byte) (rest : List Byte) (t : TfDce) :
    (TfDce.readCommand cmd rest t).phase = t.phase := rfl
@[simp] theorem TfDce.readCommand_selb (cmd : Byte) (rest : List Byte) (t : TfDce) :
    (TfDce.readCommand cmd rest t).selb = t.selb := rfl
@[simp] theorem TfDce.readCommand_n (cmd : Byte) (rest : List Byte) (t : TfDce) :
    (TfDce.readCommand cmd rest t).n = t.n := rfl
@[simp] theorem TfDce.readCommand_po (cmd : Byte) (rest : List Byte) (t : TfDce) :
    (TfDce.readCommand cmd rest t).po = t.po := rfl
@[simp] theorem TfDce.readCommand_pc (cmd : Byte) (rest : List Byte) (t : TfDce) :
    (TfDce.readCommand cmd rest t).pc = t.pc := rfl
@[simp] theorem TfDce.readCommand_pm (cmd : Byte) (rest : List Byte) (t : TfDce) :
    (TfDce.readCommand cmd rest t).pm = t.pm := rfl
@[simp] theorem TfDce.readCommand_out (cmd : Byte) (rest : List Byte) (t : TfDce) :
    (TfDce.readCommand cmd rest t).out = t.out := rfl
@[simp] theorem TfDce.readCommand_p (cmd : Byte) (rest : List Byte) (t : TfDce) :
    (TfDce.readCommand cmd rest t).p = t.p := rfl
@[simp] theorem TfDce.readCommand_oobf (cmd : Byte) (rest : List Byte) (t : TfDce) :
    (TfDce.readCommand cmd rest t).oobf = t.oobf := rfl
@[simp] theorem TfDce.readCommand_status (cmd : Byte) (rest : List Byte) (t : TfDce) :
    (TfDce.readCommand cmd rest t).status = t.status := rfl
@[simp] theorem TfDce.readCommand_result (cmd : Byte) (rest : List Byte) (t : TfDce) :
    (TfDce.readCommand cmd rest t).result = t.result := rfl

@[simp] theorem TfDce.rotateMask_wm (t : TfDce) :
    t.rotateMask.regs.wm = rol8 t.regs.wm t.regs.ra := rfl
@[simp] theorem TfDce.rotateMask_cmd (t : TfDce) : t.rotateMask.regs.cmd = t.regs.cmd := rfl
@[simp] theorem TfDce.rotateMask_b1 (t : TfDce) : t.rotateMask.regs.b1 = t.regs.b1 := rfl
@[simp] theorem TfDce.rotateMask_b2 (t : TfDce) : t.rotateMask.regs.b2 = t.regs.b2 := rfl
@[simp] theorem TfDce.rotateMask_ra (t : TfDce) : t.rotateMask.regs.ra = t.regs.ra := rfl
@[simp] theorem TfDce.rotateMask_c (t : TfDce) : t.rotateMask.regs.c = t.regs.c := rfl
@[simp] theorem TfDce.rotateMask_d (t : TfDce) : t.rotateMask.regs.d = t.regs.d := rfl
@[simp] theorem TfDce.rotateMask_w (t : TfDce) : t.rotateMask.regs.w = t.regs.w := rfl
@[simp] theorem TfDce.htRead_cmd (i : BitVec 5) (t : TfDce) : (t.htRead i).regs.cmd = t.regs.cmd := rfl
@[simp] theorem TfDce.htRead_b1 (i : BitVec 5) (t : TfDce) : (t.htRead i).regs.b1 = t.regs.b1 := rfl
@[simp] theorem TfDce.htRead_b2 (i : BitVec 5) (t : TfDce) : (t.htRead i).regs.b2 = t.regs.b2 := rfl
@[simp] theorem TfDce.htRead_wm (i : BitVec 5) (t : TfDce) : (t.htRead i).regs.wm = t.regs.wm := rfl
@[simp] theorem TfDce.htRead_ra (i : BitVec 5) (t : TfDce) : (t.htRead i).regs.ra = t.regs.ra := rfl
@[simp] theorem TfDce.htRead_c (i : BitVec 5) (t : TfDce) : (t.htRead i).regs.c = t.regs.c := rfl
@[simp] theorem TfDce.htRead_d (i : BitVec 5) (t : TfDce) : (t.htRead i).regs.d = t.regs.d := rfl
@[simp] theorem TfDce.readCommand_cmd (cmd : Byte) (rest : List Byte) (t : TfDce) :
    (t.readCommand cmd rest).regs.cmd = cmd := rfl

/-! Emit touches OUT, PM, P and STATUS only (R207). -/

@[simp] theorem TfDce.emit_input (v : Byte) (t : TfDce) : (t.emit v).input = t.input := by
  unfold TfDce.emit; split <;> rfl
@[simp] theorem TfDce.emit_phase (v : Byte) (t : TfDce) : (t.emit v).phase = t.phase := by
  unfold TfDce.emit; split <;> rfl
@[simp] theorem TfDce.emit_selb (v : Byte) (t : TfDce) : (t.emit v).selb = t.selb := by
  unfold TfDce.emit; split <;> rfl
@[simp] theorem TfDce.emit_n (v : Byte) (t : TfDce) : (t.emit v).n = t.n := by
  unfold TfDce.emit; split <;> rfl
@[simp] theorem TfDce.emit_po (v : Byte) (t : TfDce) : (t.emit v).po = t.po := by
  unfold TfDce.emit; split <;> rfl
@[simp] theorem TfDce.emit_pc (v : Byte) (t : TfDce) : (t.emit v).pc = t.pc := by
  unfold TfDce.emit; split <;> rfl
@[simp] theorem TfDce.emit_sp (v : Byte) (t : TfDce) : (t.emit v).sp = t.sp := by
  unfold TfDce.emit; split <;> rfl
@[simp] theorem TfDce.emit_oobf (v : Byte) (t : TfDce) : (t.emit v).oobf = t.oobf := by
  unfold TfDce.emit; split <;> rfl
@[simp] theorem TfDce.emit_regs (v : Byte) (t : TfDce) : (t.emit v).regs = t.regs := by
  unfold TfDce.emit; split <;> rfl
@[simp] theorem TfDce.emit_result (v : Byte) (t : TfDce) : (t.emit v).result = t.result := by
  unfold TfDce.emit; split <;> rfl

/-! ### LS11 -/

@[simp] theorem Ls11.raise_input (x : LsFault) (i : Nat) (l : Ls11) : (Ls11.raise x i l).input = l.input := rfl
@[simp] theorem Ls11.raise_mode (x : LsFault) (i : Nat) (l : Ls11) : (Ls11.raise x i l).mode = l.mode := rfl
@[simp] theorem Ls11.raise_phase (x : LsFault) (i : Nat) (l : Ls11) : (Ls11.raise x i l).phase = .ended := rfl
@[simp] theorem Ls11.raise_hdr (x : LsFault) (i : Nat) (l : Ls11) : (Ls11.raise x i l).hdr = l.hdr := rfl
@[simp] theorem Ls11.raise_dict (x : LsFault) (i : Nat) (l : Ls11) : (Ls11.raise x i l).dict = l.dict := rfl
@[simp] theorem Ls11.raise_fat (x : LsFault) (i : Nat) (l : Ls11) : (Ls11.raise x i l).fat = l.fat := rfl
@[simp] theorem Ls11.raise_cur (x : LsFault) (i : Nat) (l : Ls11) : (Ls11.raise x i l).cur = l.cur := rfl
@[simp] theorem Ls11.raise_bc (x : LsFault) (i : Nat) (l : Ls11) : (Ls11.raise x i l).bc = l.bc := rfl
@[simp] theorem Ls11.raise_eout (x : LsFault) (i : Nat) (l : Ls11) : (Ls11.raise x i l).eout = l.eout := rfl
@[simp] theorem Ls11.raise_ep (x : LsFault) (i : Nat) (l : Ls11) : (Ls11.raise x i l).ep = l.ep := rfl
@[simp] theorem Ls11.raise_eshort (x : LsFault) (i : Nat) (l : Ls11) : (Ls11.raise x i l).eshort = l.eshort := rfl
@[simp] theorem Ls11.raise_eoob (x : LsFault) (i : Nat) (l : Ls11) : (Ls11.raise x i l).eoob = l.eoob := rfl
@[simp] theorem Ls11.raise_regs (x : LsFault) (i : Nat) (l : Ls11) : (Ls11.raise x i l).regs = l.regs := rfl
@[simp] theorem Ls11.raise_status (x : LsFault) (i : Nat) (l : Ls11) : (Ls11.raise x i l).status = .fault := rfl
@[simp] theorem Ls11.raise_fault (x : LsFault) (i : Nat) (l : Ls11) : (Ls11.raise x i l).fault = x := rfl
@[simp] theorem Ls11.raise_faultRec (x : LsFault) (i : Nat) (l : Ls11) : (Ls11.raise x i l).faultRec = i := rfl
@[simp] theorem Ls11.raise_count (x : LsFault) (i : Nat) (l : Ls11) : (Ls11.raise x i l).count = 0 := rfl
@[simp] theorem Ls11.raise_entries (x : LsFault) (i : Nat) (l : Ls11) : (Ls11.raise x i l).entries = [] := rfl

@[simp] theorem Ls11.finish_input (l : Ls11) : (Ls11.finish l).input = l.input := rfl
@[simp] theorem Ls11.finish_mode (l : Ls11) : (Ls11.finish l).mode = l.mode := rfl
@[simp] theorem Ls11.finish_phase (l : Ls11) : (Ls11.finish l).phase = .ended := rfl
@[simp] theorem Ls11.finish_hdr (l : Ls11) : (Ls11.finish l).hdr = l.hdr := rfl
@[simp] theorem Ls11.finish_dict (l : Ls11) : (Ls11.finish l).dict = l.dict := rfl
@[simp] theorem Ls11.finish_fat (l : Ls11) : (Ls11.finish l).fat = l.fat := rfl
@[simp] theorem Ls11.finish_cur (l : Ls11) : (Ls11.finish l).cur = l.cur := rfl
@[simp] theorem Ls11.finish_bc (l : Ls11) : (Ls11.finish l).bc = l.bc := rfl
@[simp] theorem Ls11.finish_eout (l : Ls11) : (Ls11.finish l).eout = l.eout := rfl
@[simp] theorem Ls11.finish_ep (l : Ls11) : (Ls11.finish l).ep = l.ep := rfl
@[simp] theorem Ls11.finish_eshort (l : Ls11) : (Ls11.finish l).eshort = l.eshort := rfl
@[simp] theorem Ls11.finish_eoob (l : Ls11) : (Ls11.finish l).eoob = l.eoob := rfl
@[simp] theorem Ls11.finish_regs (l : Ls11) : (Ls11.finish l).regs = l.regs := rfl
@[simp] theorem Ls11.finish_status (l : Ls11) : (Ls11.finish l).status = .ok := rfl
@[simp] theorem Ls11.finish_fault (l : Ls11) : (Ls11.finish l).fault = .none := rfl
@[simp] theorem Ls11.finish_faultRec (l : Ls11) : (Ls11.finish l).faultRec = 0 := rfl
@[simp] theorem Ls11.finish_count (l : Ls11) : (Ls11.finish l).count = l.fat.length := rfl
@[simp] theorem Ls11.finish_entries (l : Ls11) : (Ls11.finish l).entries = l.entries := rfl

@[simp] theorem Ls11.appendRecord_input (r : FatRec) (l : Ls11) : (Ls11.appendRecord r l).input = l.input := rfl
@[simp] theorem Ls11.appendRecord_mode (r : FatRec) (l : Ls11) : (Ls11.appendRecord r l).mode = l.mode := rfl
@[simp] theorem Ls11.appendRecord_phase (r : FatRec) (l : Ls11) : (Ls11.appendRecord r l).phase = l.phase := rfl
@[simp] theorem Ls11.appendRecord_hdr (r : FatRec) (l : Ls11) : (Ls11.appendRecord r l).hdr = l.hdr := rfl
@[simp] theorem Ls11.appendRecord_dict (r : FatRec) (l : Ls11) : (Ls11.appendRecord r l).dict = l.dict := rfl
@[simp] theorem Ls11.appendRecord_fat (r : FatRec) (l : Ls11) : (Ls11.appendRecord r l).fat = l.fat ++ [r] := rfl
@[simp] theorem Ls11.appendRecord_cur (r : FatRec) (l : Ls11) : (Ls11.appendRecord r l).cur = r := rfl
@[simp] theorem Ls11.appendRecord_bc (r : FatRec) (l : Ls11) : (Ls11.appendRecord r l).bc = l.bc := rfl
@[simp] theorem Ls11.appendRecord_eout (r : FatRec) (l : Ls11) : (Ls11.appendRecord r l).eout = l.eout := rfl
@[simp] theorem Ls11.appendRecord_ep (r : FatRec) (l : Ls11) : (Ls11.appendRecord r l).ep = l.ep := rfl
@[simp] theorem Ls11.appendRecord_eshort (r : FatRec) (l : Ls11) : (Ls11.appendRecord r l).eshort = l.eshort := rfl
@[simp] theorem Ls11.appendRecord_eoob (r : FatRec) (l : Ls11) : (Ls11.appendRecord r l).eoob = l.eoob := rfl
@[simp] theorem Ls11.appendRecord_regs (r : FatRec) (l : Ls11) : (Ls11.appendRecord r l).regs = l.regs := rfl
@[simp] theorem Ls11.appendRecord_status (r : FatRec) (l : Ls11) : (Ls11.appendRecord r l).status = l.status := rfl
@[simp] theorem Ls11.appendRecord_fault (r : FatRec) (l : Ls11) : (Ls11.appendRecord r l).fault = l.fault := rfl
@[simp] theorem Ls11.appendRecord_faultRec (r : FatRec) (l : Ls11) :
    (Ls11.appendRecord r l).faultRec = l.faultRec := rfl
@[simp] theorem Ls11.appendRecord_count (r : FatRec) (l : Ls11) : (Ls11.appendRecord r l).count = l.count := rfl
@[simp] theorem Ls11.appendRecord_entries (r : FatRec) (l : Ls11) :
    (Ls11.appendRecord r l).entries = l.entries := rfl

@[simp] theorem Ls11.endFat_input (l : Ls11) : (Ls11.endFat l).input = l.input := rfl
@[simp] theorem Ls11.endFat_mode (l : Ls11) : (Ls11.endFat l).mode = l.mode := rfl
@[simp] theorem Ls11.endFat_phase (l : Ls11) : (Ls11.endFat l).phase = .validate := rfl
@[simp] theorem Ls11.endFat_hdr (l : Ls11) : (Ls11.endFat l).hdr = l.hdr := rfl
@[simp] theorem Ls11.endFat_dict (l : Ls11) : (Ls11.endFat l).dict = l.dict := rfl
@[simp] theorem Ls11.endFat_fat (l : Ls11) : (Ls11.endFat l).fat = l.fat := rfl
@[simp] theorem Ls11.endFat_cur (l : Ls11) : (Ls11.endFat l).cur = l.cur := rfl
@[simp] theorem Ls11.endFat_bc (l : Ls11) : (Ls11.endFat l).bc = l.bc := rfl
@[simp] theorem Ls11.endFat_eout (l : Ls11) : (Ls11.endFat l).eout = l.eout := rfl
@[simp] theorem Ls11.endFat_ep (l : Ls11) : (Ls11.endFat l).ep = l.ep := rfl
@[simp] theorem Ls11.endFat_eshort (l : Ls11) : (Ls11.endFat l).eshort = l.eshort := rfl
@[simp] theorem Ls11.endFat_eoob (l : Ls11) : (Ls11.endFat l).eoob = l.eoob := rfl
@[simp] theorem Ls11.endFat_regs (l : Ls11) : (Ls11.endFat l).regs = l.regs := rfl
@[simp] theorem Ls11.endFat_status (l : Ls11) : (Ls11.endFat l).status = l.status := rfl
@[simp] theorem Ls11.endFat_fault (l : Ls11) : (Ls11.endFat l).fault = l.fault := rfl
@[simp] theorem Ls11.endFat_faultRec (l : Ls11) : (Ls11.endFat l).faultRec = l.faultRec := rfl
@[simp] theorem Ls11.endFat_count (l : Ls11) : (Ls11.endFat l).count = l.count := rfl
@[simp] theorem Ls11.endFat_entries (l : Ls11) : (Ls11.endFat l).entries = l.entries := rfl

@[simp] theorem Ls11.appendEntry_input (e : EntryResult) (l : Ls11) : (Ls11.appendEntry e l).input = l.input := rfl
@[simp] theorem Ls11.appendEntry_mode (e : EntryResult) (l : Ls11) : (Ls11.appendEntry e l).mode = l.mode := rfl
@[simp] theorem Ls11.appendEntry_phase (e : EntryResult) (l : Ls11) : (Ls11.appendEntry e l).phase = l.phase := rfl
@[simp] theorem Ls11.appendEntry_hdr (e : EntryResult) (l : Ls11) : (Ls11.appendEntry e l).hdr = l.hdr := rfl
@[simp] theorem Ls11.appendEntry_dict (e : EntryResult) (l : Ls11) : (Ls11.appendEntry e l).dict = l.dict := rfl
@[simp] theorem Ls11.appendEntry_fat (e : EntryResult) (l : Ls11) : (Ls11.appendEntry e l).fat = l.fat := rfl
@[simp] theorem Ls11.appendEntry_cur (e : EntryResult) (l : Ls11) : (Ls11.appendEntry e l).cur = l.cur := rfl
@[simp] theorem Ls11.appendEntry_bc (e : EntryResult) (l : Ls11) : (Ls11.appendEntry e l).bc = l.bc := rfl
@[simp] theorem Ls11.appendEntry_eout (e : EntryResult) (l : Ls11) : (Ls11.appendEntry e l).eout = l.eout := rfl
@[simp] theorem Ls11.appendEntry_ep (e : EntryResult) (l : Ls11) : (Ls11.appendEntry e l).ep = l.ep := rfl
@[simp] theorem Ls11.appendEntry_eshort (e : EntryResult) (l : Ls11) :
    (Ls11.appendEntry e l).eshort = l.eshort := rfl
@[simp] theorem Ls11.appendEntry_eoob (e : EntryResult) (l : Ls11) : (Ls11.appendEntry e l).eoob = l.eoob := rfl
@[simp] theorem Ls11.appendEntry_regs (e : EntryResult) (l : Ls11) : (Ls11.appendEntry e l).regs = l.regs := rfl
@[simp] theorem Ls11.appendEntry_status (e : EntryResult) (l : Ls11) :
    (Ls11.appendEntry e l).status = l.status := rfl
@[simp] theorem Ls11.appendEntry_fault (e : EntryResult) (l : Ls11) : (Ls11.appendEntry e l).fault = l.fault := rfl
@[simp] theorem Ls11.appendEntry_faultRec (e : EntryResult) (l : Ls11) :
    (Ls11.appendEntry e l).faultRec = l.faultRec := rfl
@[simp] theorem Ls11.appendEntry_count (e : EntryResult) (l : Ls11) : (Ls11.appendEntry e l).count = l.count := rfl
@[simp] theorem Ls11.appendEntry_entries (e : EntryResult) (l : Ls11) :
    (Ls11.appendEntry e l).entries = l.entries ++ [e] := rfl

@[simp] theorem Ls11.clearFlags_input (l : Ls11) : l.clearFlags.input = l.input := rfl
@[simp] theorem Ls11.clearFlags_mode (l : Ls11) : l.clearFlags.mode = l.mode := rfl
@[simp] theorem Ls11.clearFlags_phase (l : Ls11) : l.clearFlags.phase = l.phase := rfl
@[simp] theorem Ls11.clearFlags_hdr (l : Ls11) : l.clearFlags.hdr = l.hdr := rfl
@[simp] theorem Ls11.clearFlags_dict (l : Ls11) : l.clearFlags.dict = l.dict := rfl
@[simp] theorem Ls11.clearFlags_fat (l : Ls11) : l.clearFlags.fat = l.fat := rfl
@[simp] theorem Ls11.clearFlags_cur (l : Ls11) : l.clearFlags.cur = l.cur := rfl
@[simp] theorem Ls11.clearFlags_bc (l : Ls11) : l.clearFlags.bc = l.bc := rfl
@[simp] theorem Ls11.clearFlags_eout (l : Ls11) : l.clearFlags.eout = l.eout := rfl
@[simp] theorem Ls11.clearFlags_ep (l : Ls11) : l.clearFlags.ep = l.ep := rfl
@[simp] theorem Ls11.clearFlags_regs (l : Ls11) : l.clearFlags.regs = l.regs := rfl
@[simp] theorem Ls11.clearFlags_status (l : Ls11) : l.clearFlags.status = l.status := rfl
@[simp] theorem Ls11.clearFlags_fault (l : Ls11) : l.clearFlags.fault = l.fault := rfl
@[simp] theorem Ls11.clearFlags_faultRec (l : Ls11) : l.clearFlags.faultRec = l.faultRec := rfl
@[simp] theorem Ls11.clearFlags_count (l : Ls11) : l.clearFlags.count = l.count := rfl
@[simp] theorem Ls11.clearFlags_entries (l : Ls11) : l.clearFlags.entries = l.entries := rfl
@[simp] theorem Ls11.clearFlags_eshort (l : Ls11) : l.clearFlags.eshort = false := rfl
@[simp] theorem Ls11.clearFlags_eoob (l : Ls11) : l.clearFlags.eoob = false := rfl

@[simp] theorem Ls11.verbatimEntry_input (clen off : Word32) (l : Ls11) :
    (Ls11.verbatimEntry clen off l).input = l.input := rfl
@[simp] theorem Ls11.verbatimEntry_mode (clen off : Word32) (l : Ls11) :
    (Ls11.verbatimEntry clen off l).mode = l.mode := rfl
@[simp] theorem Ls11.verbatimEntry_phase (clen off : Word32) (l : Ls11) :
    (Ls11.verbatimEntry clen off l).phase = l.phase := rfl
@[simp] theorem Ls11.verbatimEntry_hdr (clen off : Word32) (l : Ls11) :
    (Ls11.verbatimEntry clen off l).hdr = l.hdr := rfl
@[simp] theorem Ls11.verbatimEntry_dict (clen off : Word32) (l : Ls11) :
    (Ls11.verbatimEntry clen off l).dict = l.dict := rfl
@[simp] theorem Ls11.verbatimEntry_fat (clen off : Word32) (l : Ls11) :
    (Ls11.verbatimEntry clen off l).fat = l.fat := rfl
@[simp] theorem Ls11.verbatimEntry_cur (clen off : Word32) (l : Ls11) :
    (Ls11.verbatimEntry clen off l).cur = l.cur := rfl
@[simp] theorem Ls11.verbatimEntry_bc (clen off : Word32) (l : Ls11) :
    (Ls11.verbatimEntry clen off l).bc = l.bc := rfl
@[simp] theorem Ls11.verbatimEntry_eout (clen off : Word32) (l : Ls11) :
    (Ls11.verbatimEntry clen off l).eout = l.eout := rfl
@[simp] theorem Ls11.verbatimEntry_ep (clen off : Word32) (l : Ls11) :
    (Ls11.verbatimEntry clen off l).ep = l.ep := rfl
@[simp] theorem Ls11.verbatimEntry_eshort (clen off : Word32) (l : Ls11) :
    (Ls11.verbatimEntry clen off l).eshort = false := rfl
@[simp] theorem Ls11.verbatimEntry_eoob (clen off : Word32) (l : Ls11) :
    (Ls11.verbatimEntry clen off l).eoob = false := rfl
@[simp] theorem Ls11.verbatimEntry_regs (clen off : Word32) (l : Ls11) :
    (Ls11.verbatimEntry clen off l).regs = l.regs := rfl
@[simp] theorem Ls11.verbatimEntry_status (clen off : Word32) (l : Ls11) :
    (Ls11.verbatimEntry clen off l).status = l.status := rfl
@[simp] theorem Ls11.verbatimEntry_fault (clen off : Word32) (l : Ls11) :
    (Ls11.verbatimEntry clen off l).fault = l.fault := rfl
@[simp] theorem Ls11.verbatimEntry_faultRec (clen off : Word32) (l : Ls11) :
    (Ls11.verbatimEntry clen off l).faultRec = l.faultRec := rfl
@[simp] theorem Ls11.verbatimEntry_count (clen off : Word32) (l : Ls11) :
    (Ls11.verbatimEntry clen off l).count = l.count := rfl
@[simp] theorem Ls11.verbatimEntry_entries (clen off : Word32) (l : Ls11) :
    (Ls11.verbatimEntry clen off l).entries =
      l.entries ++ [⟨l.input.slice off.toNat clen.toNat, .verbatim, clen.toNat, false, false⟩] := rfl

@[simp] theorem Ls11.beginCoded_input (r : FatRec) (l : Ls11) : (Ls11.beginCoded r l).input = l.input := rfl
@[simp] theorem Ls11.beginCoded_mode (r : FatRec) (l : Ls11) : (Ls11.beginCoded r l).mode = l.mode := rfl
@[simp] theorem Ls11.beginCoded_phase (r : FatRec) (l : Ls11) : (Ls11.beginCoded r l).phase = .symbols := rfl
@[simp] theorem Ls11.beginCoded_hdr (r : FatRec) (l : Ls11) : (Ls11.beginCoded r l).hdr = l.hdr := rfl
@[simp] theorem Ls11.beginCoded_dict (r : FatRec) (l : Ls11) : (Ls11.beginCoded r l).dict = l.dict := rfl
@[simp] theorem Ls11.beginCoded_fat (r : FatRec) (l : Ls11) : (Ls11.beginCoded r l).fat = l.fat := rfl
@[simp] theorem Ls11.beginCoded_cur (r : FatRec) (l : Ls11) : (Ls11.beginCoded r l).cur = r := rfl
@[simp] theorem Ls11.beginCoded_bc (r : FatRec) (l : Ls11) : (Ls11.beginCoded r l).bc = 0 := rfl
@[simp] theorem Ls11.beginCoded_eout (r : FatRec) (l : Ls11) : (Ls11.beginCoded r l).eout = [] := rfl
@[simp] theorem Ls11.beginCoded_ep (r : FatRec) (l : Ls11) : (Ls11.beginCoded r l).ep = 0 := rfl
@[simp] theorem Ls11.beginCoded_eshort (r : FatRec) (l : Ls11) : (Ls11.beginCoded r l).eshort = false := rfl
@[simp] theorem Ls11.beginCoded_eoob (r : FatRec) (l : Ls11) : (Ls11.beginCoded r l).eoob = false := rfl
@[simp] theorem Ls11.beginCoded_regs (r : FatRec) (l : Ls11) : (Ls11.beginCoded r l).regs = l.regs := rfl
@[simp] theorem Ls11.beginCoded_status (r : FatRec) (l : Ls11) : (Ls11.beginCoded r l).status = l.status := rfl
@[simp] theorem Ls11.beginCoded_fault (r : FatRec) (l : Ls11) : (Ls11.beginCoded r l).fault = l.fault := rfl
@[simp] theorem Ls11.beginCoded_faultRec (r : FatRec) (l : Ls11) :
    (Ls11.beginCoded r l).faultRec = l.faultRec := rfl
@[simp] theorem Ls11.beginCoded_count (r : FatRec) (l : Ls11) : (Ls11.beginCoded r l).count = l.count := rfl
@[simp] theorem Ls11.beginCoded_entries (r : FatRec) (l : Ls11) : (Ls11.beginCoded r l).entries = l.entries := rfl

@[simp] theorem Ls11.endEntry_input (l : Ls11) : (Ls11.endEntry l).input = l.input := rfl
@[simp] theorem Ls11.endEntry_mode (l : Ls11) : (Ls11.endEntry l).mode = l.mode := rfl
@[simp] theorem Ls11.endEntry_phase (l : Ls11) : (Ls11.endEntry l).phase = .entries := rfl
@[simp] theorem Ls11.endEntry_hdr (l : Ls11) : (Ls11.endEntry l).hdr = l.hdr := rfl
@[simp] theorem Ls11.endEntry_dict (l : Ls11) : (Ls11.endEntry l).dict = l.dict := rfl
@[simp] theorem Ls11.endEntry_fat (l : Ls11) : (Ls11.endEntry l).fat = l.fat := rfl
@[simp] theorem Ls11.endEntry_cur (l : Ls11) : (Ls11.endEntry l).cur = l.cur := rfl
@[simp] theorem Ls11.endEntry_bc (l : Ls11) : (Ls11.endEntry l).bc = l.bc := rfl
@[simp] theorem Ls11.endEntry_eout (l : Ls11) : (Ls11.endEntry l).eout = l.eout := rfl
@[simp] theorem Ls11.endEntry_ep (l : Ls11) : (Ls11.endEntry l).ep = l.ep := rfl
@[simp] theorem Ls11.endEntry_eshort (l : Ls11) :
    (Ls11.endEntry l).eshort = entryShort l.ep l.cur.ulen.toNat := rfl
@[simp] theorem Ls11.endEntry_eoob (l : Ls11) : (Ls11.endEntry l).eoob = l.eoob := rfl
@[simp] theorem Ls11.endEntry_regs (l : Ls11) : (Ls11.endEntry l).regs = l.regs := rfl
@[simp] theorem Ls11.endEntry_status (l : Ls11) : (Ls11.endEntry l).status = l.status := rfl
@[simp] theorem Ls11.endEntry_fault (l : Ls11) : (Ls11.endEntry l).fault = l.fault := rfl
@[simp] theorem Ls11.endEntry_faultRec (l : Ls11) : (Ls11.endEntry l).faultRec = l.faultRec := rfl
@[simp] theorem Ls11.endEntry_count (l : Ls11) : (Ls11.endEntry l).count = l.count := rfl
@[simp] theorem Ls11.endEntry_entries (l : Ls11) :
    (Ls11.endEntry l).entries = l.entries ++
      [⟨⟨l.cur.ulen.toNat, l.eout⟩, .coded, l.ep, entryShort l.ep l.cur.ulen.toNat, l.eoob⟩] := rfl

@[simp] theorem Ls11.cutEntry_input (l : Ls11) : (Ls11.cutEntry l).input = l.input := rfl
@[simp] theorem Ls11.cutEntry_mode (l : Ls11) : (Ls11.cutEntry l).mode = l.mode := rfl
@[simp] theorem Ls11.cutEntry_phase (l : Ls11) : (Ls11.cutEntry l).phase = .entries := rfl
@[simp] theorem Ls11.cutEntry_hdr (l : Ls11) : (Ls11.cutEntry l).hdr = l.hdr := rfl
@[simp] theorem Ls11.cutEntry_dict (l : Ls11) : (Ls11.cutEntry l).dict = l.dict := rfl
@[simp] theorem Ls11.cutEntry_fat (l : Ls11) : (Ls11.cutEntry l).fat = l.fat := rfl
@[simp] theorem Ls11.cutEntry_cur (l : Ls11) : (Ls11.cutEntry l).cur = l.cur := rfl
@[simp] theorem Ls11.cutEntry_bc (l : Ls11) : (Ls11.cutEntry l).bc = l.sliceBits := rfl
@[simp] theorem Ls11.cutEntry_eout (l : Ls11) : (Ls11.cutEntry l).eout = l.eout := rfl
@[simp] theorem Ls11.cutEntry_ep (l : Ls11) : (Ls11.cutEntry l).ep = l.ep := rfl
@[simp] theorem Ls11.cutEntry_eshort (l : Ls11) :
    (Ls11.cutEntry l).eshort = entryShort l.ep l.cur.ulen.toNat := rfl
@[simp] theorem Ls11.cutEntry_eoob (l : Ls11) : (Ls11.cutEntry l).eoob = l.eoob := rfl
@[simp] theorem Ls11.cutEntry_regs (l : Ls11) : (Ls11.cutEntry l).regs = LsRegs.zero := rfl
@[simp] theorem Ls11.cutEntry_status (l : Ls11) : (Ls11.cutEntry l).status = l.status := rfl
@[simp] theorem Ls11.cutEntry_fault (l : Ls11) : (Ls11.cutEntry l).fault = l.fault := rfl
@[simp] theorem Ls11.cutEntry_faultRec (l : Ls11) : (Ls11.cutEntry l).faultRec = l.faultRec := rfl
@[simp] theorem Ls11.cutEntry_count (l : Ls11) : (Ls11.cutEntry l).count = l.count := rfl

@[simp] theorem Ls11.consume_input (r : SymbolRead) (l : Ls11) : (Ls11.consume r l).input = l.input := rfl
@[simp] theorem Ls11.consume_mode (r : SymbolRead) (l : Ls11) : (Ls11.consume r l).mode = l.mode := rfl
@[simp] theorem Ls11.consume_phase (r : SymbolRead) (l : Ls11) : (Ls11.consume r l).phase = l.phase := rfl
@[simp] theorem Ls11.consume_hdr (r : SymbolRead) (l : Ls11) : (Ls11.consume r l).hdr = l.hdr := rfl
@[simp] theorem Ls11.consume_dict (r : SymbolRead) (l : Ls11) : (Ls11.consume r l).dict = l.dict := rfl
@[simp] theorem Ls11.consume_fat (r : SymbolRead) (l : Ls11) : (Ls11.consume r l).fat = l.fat := rfl
@[simp] theorem Ls11.consume_cur (r : SymbolRead) (l : Ls11) : (Ls11.consume r l).cur = l.cur := rfl
@[simp] theorem Ls11.consume_bc (r : SymbolRead) (l : Ls11) : (Ls11.consume r l).bc = l.bc + symbolBits r := rfl
@[simp] theorem Ls11.consume_eout (r : SymbolRead) (l : Ls11) : (Ls11.consume r l).eout = l.eout := rfl
@[simp] theorem Ls11.consume_ep (r : SymbolRead) (l : Ls11) : (Ls11.consume r l).ep = l.ep := rfl
@[simp] theorem Ls11.consume_eshort (r : SymbolRead) (l : Ls11) : (Ls11.consume r l).eshort = l.eshort := rfl
@[simp] theorem Ls11.consume_eoob (r : SymbolRead) (l : Ls11) : (Ls11.consume r l).eoob = l.eoob := rfl
@[simp] theorem Ls11.consume_status (r : SymbolRead) (l : Ls11) : (Ls11.consume r l).status = l.status := rfl
@[simp] theorem Ls11.consume_fault (r : SymbolRead) (l : Ls11) : (Ls11.consume r l).fault = l.fault := rfl
@[simp] theorem Ls11.consume_faultRec (r : SymbolRead) (l : Ls11) : (Ls11.consume r l).faultRec = l.faultRec := rfl
@[simp] theorem Ls11.consume_count (r : SymbolRead) (l : Ls11) : (Ls11.consume r l).count = l.count := rfl
@[simp] theorem Ls11.consume_entries (r : SymbolRead) (l : Ls11) : (Ls11.consume r l).entries = l.entries := rfl

/-! One byte put touches EOUT and EP only (R165, R166). -/

@[simp] theorem Ls11.putByte_input (v : Byte) (l : Ls11) : (l.putByte v).input = l.input := by
  unfold Ls11.putByte; split <;> rfl
@[simp] theorem Ls11.putByte_mode (v : Byte) (l : Ls11) : (l.putByte v).mode = l.mode := by
  unfold Ls11.putByte; split <;> rfl
@[simp] theorem Ls11.putByte_phase (v : Byte) (l : Ls11) : (l.putByte v).phase = l.phase := by
  unfold Ls11.putByte; split <;> rfl
@[simp] theorem Ls11.putByte_hdr (v : Byte) (l : Ls11) : (l.putByte v).hdr = l.hdr := by
  unfold Ls11.putByte; split <;> rfl
@[simp] theorem Ls11.putByte_dict (v : Byte) (l : Ls11) : (l.putByte v).dict = l.dict := by
  unfold Ls11.putByte; split <;> rfl
@[simp] theorem Ls11.putByte_fat (v : Byte) (l : Ls11) : (l.putByte v).fat = l.fat := by
  unfold Ls11.putByte; split <;> rfl
@[simp] theorem Ls11.putByte_cur (v : Byte) (l : Ls11) : (l.putByte v).cur = l.cur := by
  unfold Ls11.putByte; split <;> rfl
@[simp] theorem Ls11.putByte_bc (v : Byte) (l : Ls11) : (l.putByte v).bc = l.bc := by
  unfold Ls11.putByte; split <;> rfl
@[simp] theorem Ls11.putByte_eshort (v : Byte) (l : Ls11) : (l.putByte v).eshort = l.eshort := by
  unfold Ls11.putByte; split <;> rfl
@[simp] theorem Ls11.putByte_eoob (v : Byte) (l : Ls11) : (l.putByte v).eoob = l.eoob := by
  unfold Ls11.putByte; split <;> rfl
@[simp] theorem Ls11.putByte_regs (v : Byte) (l : Ls11) : (l.putByte v).regs = l.regs := by
  unfold Ls11.putByte; split <;> rfl
@[simp] theorem Ls11.putByte_status (v : Byte) (l : Ls11) : (l.putByte v).status = l.status := by
  unfold Ls11.putByte; split <;> rfl
@[simp] theorem Ls11.putByte_fault (v : Byte) (l : Ls11) : (l.putByte v).fault = l.fault := by
  unfold Ls11.putByte; split <;> rfl
@[simp] theorem Ls11.putByte_faultRec (v : Byte) (l : Ls11) : (l.putByte v).faultRec = l.faultRec := by
  unfold Ls11.putByte; split <;> rfl
@[simp] theorem Ls11.putByte_count (v : Byte) (l : Ls11) : (l.putByte v).count = l.count := by
  unfold Ls11.putByte; split <;> rfl
@[simp] theorem Ls11.putByte_entries (v : Byte) (l : Ls11) : (l.putByte v).entries = l.entries := by
  unfold Ls11.putByte; split <;> rfl

end Sys2Proof.Machine
end

