-- ==== Sys2Proof/Laws/Archive.lean ====
section
/-! SUPPORT. What the operations of the LS11 engine do: one lemma per operation. -/

namespace Sys2Proof.Machine

variable {l : Ls11}

/-! ### Bits -/

@[simp] theorem Ls11.length_bitsFrom (l : Ls11) (i n : Nat) : (l.bitsFrom i n).length = n := by
  induction n generalizing i with
  | zero => rfl
  | succ n ih => simp [Ls11.bitsFrom, ih]

theorem Ls11.getElem?_bitsFrom (l : Ls11) {i n k : Nat} (h : k < n) :
    (l.bitsFrom i n)[k]? = some (l.bitAt (i + k)) := by
  induction n generalizing i k with
  | zero => omega
  | succ n ih =>
    cases k with
    | zero => rfl
    | succ k =>
      rw [Ls11.bitsFrom, List.getElem?_cons_succ, ih (by omega)]
      congr 2
      omega

/-! ### Bytes of the archive -/

theorem Buffer.getElem?_bytesFrom (b : Buffer) {a n k : Nat} (h : k < n) (hb : a + k < b.len) :
    (b.bytesFrom a n)[k]? = some (b.read (a + k)) := by
  induction n generalizing a k with
  | zero => omega
  | succ n ih =>
    rw [Buffer.bytesFrom, if_pos (by omega)]
    cases k with
    | zero => rfl
    | succ k =>
      rw [List.getElem?_cons_succ, ih (by omega) (by omega)]
      congr 2
      omega

/-- The bytes of a whole FAT record. -/
theorem Buffer.bytesFrom_twelve (b : Buffer) (a : Nat) (h : a + 12 ≤ b.len) :
    b.bytesFrom a 12 =
      [b.read a, b.read (a + 1), b.read (a + 2), b.read (a + 3), b.read (a + 4), b.read (a + 5), b.read (a + 6),
        b.read (a + 7), b.read (a + 8), b.read (a + 9), b.read (a + 10), b.read (a + 11)] := by
  simp only [Buffer.bytesFrom]
  repeat rw [if_pos (by omega)]

/-- The bytes of a FAT record of which at least CLEN is there. -/
theorem Buffer.bytesFrom_four (b : Buffer) (a : Nat) (h : a + 4 ≤ b.len) :
    ∃ tail, b.bytesFrom a 12 = b.read a :: b.read (a + 1) :: b.read (a + 2) :: b.read (a + 3) :: tail ∧
      tail.length = min 8 (b.len - a - 4) := by
  have hl := Buffer.length_bytesFrom (a := a + 4) (n := 8) b
  refine ⟨b.bytesFrom (a + 4) 8, ?_, by omega⟩
  rw [Buffer.bytesFrom, if_pos (by omega), Buffer.bytesFrom, if_pos (by omega), Buffer.bytesFrom,
    if_pos (by omega), Buffer.bytesFrom, if_pos (by omega)]

/-! ### The literal and the match -/

/-- The literal (R165). -/
theorem Ls11.literal_eq (h : l.ep < l.cur.ulen.toNat) (c : Byte) :
    l.literal c = { l with eout := l.eout.write l.ep (l.dict.read c.toNat), ep := l.ep + 1 } := by
  unfold Ls11.literal Ls11.putByte
  rw [if_pos h]

/-- One byte of a match (R166). -/
theorem Ls11.copyByte_eq (h : l.ep < l.cur.ulen.toNat) :
    l.copyByte =
      { l with
        eoob := l.eoob || eoReadOob l.ep l.regs.dist
        eout := l.eout.write l.ep l.eoRead
        ep := l.ep + 1 } := by
  simp only [Ls11.copyByte, Ls11.putByte]
  rw [if_pos h]

/-- The copy loop: as many bytes as asked for, or as ULEN leaves room for; each is the byte DIST back in EOUT as
it then stands; EOOB is set exactly when the first source is out of range (R73, R166, R168). -/
theorem Ls11.copyLoop_eq (n : Nat) (l : Ls11) (hw : l.eout.wf) (he : l.ep ≤ l.cur.ulen.toNat) :
    ∃ m : Memory, m.wf ∧
      Ls11.copyLoop n l =
        { l with
          eout := m
          ep := l.ep + min n (l.cur.ulen.toNat - l.ep)
          eoob := l.eoob ||
            (decide (0 < min n (l.cur.ulen.toNat - l.ep)) && eoReadOob l.ep l.regs.dist) } ∧
      ∀ q, m.read q =
        if l.ep ≤ q ∧ q < l.ep + min n (l.cur.ulen.toNat - l.ep) then
          (if l.regs.dist = 0 ∨ q < l.regs.dist then 0 else m.read (q - l.regs.dist))
        else l.eout.read q := by
  induction n generalizing l with
  | zero =>
    refine ⟨l.eout, hw, by simp [Ls11.copyLoop], fun q => ?_⟩
    rw [if_neg (by omega)]
  | succ n ih =>
    rw [Ls11.copyLoop]
    by_cases hlt : l.ep < l.cur.ulen.toNat
    · rw [if_pos hlt, Ls11.copyByte_eq hlt]
      obtain ⟨m, hm, heq, hr⟩ := ih
        { l with
          eoob := l.eoob || eoReadOob l.ep l.regs.dist
          eout := l.eout.write l.ep l.eoRead
          ep := l.ep + 1 } (Memory.write_wf hw) hlt
      simp only at heq hr
      have hk : min (n + 1) (l.cur.ulen.toNat - l.ep) = min n (l.cur.ulen.toNat - (l.ep + 1)) + 1 := by omega
      refine ⟨m, hm, ?_, fun q => ?_⟩
      · rw [heq, hk]
        have hoob : eoReadOob (l.ep + 1) l.regs.dist = true → eoReadOob l.ep l.regs.dist = true := by
          simp only [eoReadOob, Bool.or_eq_true, beq_iff_eq, decide_eq_true_eq]
          omega
        congr 1
        · omega
        · cases h1 : eoReadOob (l.ep + 1) l.regs.dist <;> cases h2 : eoReadOob l.ep l.regs.dist <;>
            simp_all
      · rw [hk]
        have hold : ∀ a, a < l.ep → m.read a = l.eout.read a := by
          intro a ha
          rw [hr a, if_neg (by omega), Memory.read_write_other hw (by omega)]
        by_cases hq : q = l.ep
        · subst hq
          rw [hr l.ep, if_neg (by omega), Memory.read_write_same hw, if_pos (by omega), Ls11.eoRead]
          simp only [eoReadOob, Bool.or_eq_true, beq_iff_eq, decide_eq_true_eq]
          split
          · rfl
          · rw [hold _ (by omega)]
        · rw [hr q]
          by_cases hi : l.ep + 1 ≤ q ∧ q < l.ep + 1 + min n (l.cur.ulen.toNat - (l.ep + 1))
          · rw [if_pos hi, if_pos (show l.ep ≤ q ∧ q < l.ep + (min n (l.cur.ulen.toNat - (l.ep + 1)) + 1)
              from by omega)]
          · rw [if_neg hi, if_neg (by omega), Memory.read_write_other hw hq]
    · rw [if_neg hlt]
      have hk : min (n + 1) (l.cur.ulen.toNat - l.ep) = 0 := by omega
      rw [hk]
      refine ⟨l.eout, hw, by simp, fun q => ?_⟩
      rw [if_neg (by omega)]

/-- The match (R166, R168). -/
theorem Ls11.matchCopy_eq (dist len : Nat) (l : Ls11) (hw : l.eout.wf) (he : l.ep ≤ l.cur.ulen.toNat) :
    ∃ m : Memory, m.wf ∧
      l.matchCopy dist len =
        { l with
          regs := { l.regs with dist := dist, len := len }
          eout := m
          ep := l.ep + min len (l.cur.ulen.toNat - l.ep)
          eoob := l.eoob || (decide (0 < min len (l.cur.ulen.toNat - l.ep)) && eoReadOob l.ep dist) } ∧
      ∀ q, m.read q =
        if l.ep ≤ q ∧ q < l.ep + min len (l.cur.ulen.toNat - l.ep) then
          (if dist = 0 ∨ q < dist then 0 else m.read (q - dist))
        else l.eout.read q :=
  Ls11.copyLoop_eq len { l with regs := { l.regs with dist := dist, len := len } } hw he

/-! ### Validation -/

/-- The index that FAT validation reports is that of the first record whose slice runs past the archive (R144). -/
theorem firstOutOfRange_some {len i j : Nat} {rs : List FatRec} (h : firstOutOfRange len i rs = some j) :
    ∃ r, i ≤ j ∧ rs[j - i]? = some r ∧ ¬r.inside len ∧
      ∀ k r', i + k < j → rs[k]? = some r' → r'.inside len := by
  induction rs generalizing i with
  | nil => simp [firstOutOfRange] at h
  | cons r rs ih =>
    rw [firstOutOfRange] at h
    split at h
    · cases h
      refine ⟨r, Nat.le_refl _, by simp, ?_, fun k r' hk => by omega⟩
      unfold FatRec.inside
      omega
    · obtain ⟨r', hle, hg, hn, hall⟩ := ih h
      refine ⟨r', by omega, ?_, hn, fun k r'' hk hg' => ?_⟩
      · rw [show j - i = (j - (i + 1)) + 1 by omega, List.getElem?_cons_succ, hg]
      · cases k with
        | zero =>
          simp only [List.getElem?_cons_zero, Option.some.injEq] at hg'
          subst hg'
          unfold FatRec.inside
          omega
        | succ k => exact hall k r'' (by omega) (by simpa using hg')

/-- It reports none exactly when every slice lies inside (R144). -/
theorem firstOutOfRange_none {len i : Nat} {rs : List FatRec} :
    firstOutOfRange len i rs = none ↔ ∀ r ∈ rs, r.inside len := by
  induction rs generalizing i with
  | nil => simp [firstOutOfRange]
  | cons r rs ih =>
    rw [firstOutOfRange]
    simp only [List.mem_cons, forall_eq_or_imp, FatRec.inside]
    split
    · simp only [reduceCtorEq, false_iff, not_and]
      omega
    · rw [ih]
      exact ⟨fun h => ⟨by omega, h⟩, fun h => h.2⟩

/-- The first bad record is unique (R144). -/
theorem firstOutOfRange_eq {len : Nat} {rs : List FatRec} {i : Nat} {r : FatRec} (hg : rs[i]? = some r)
    (hn : ¬r.inside len) (hall : ∀ (j : Nat) (r' : FatRec), j < i → rs[j]? = some r' → r'.inside len) :
    firstOutOfRange len 0 rs = some i := by
  cases hf : firstOutOfRange len 0 rs with
  | none => exact absurd (firstOutOfRange_none.1 hf r (List.mem_of_getElem? hg)) hn
  | some j =>
    obtain ⟨r', -, hg', hn', hall'⟩ := firstOutOfRange_some hf
    rcases Nat.lt_trichotomy i j with h | h | h
    · exact absurd (hall' i r (by omega) hg) hn
    · rw [h]
    · exact absurd (hall j r' h (by simpa using hg')) hn'

end Sys2Proof.Machine
end

