-- ==== Sys2Proof/Laws/Emission.lean ====
section
/-! SUPPORT. What Emit does, what a loop of one-byte bodies does, and from them one lemma per generic body that
says everything the body can do. -/

namespace Sys2Proof.Machine

variable {t u w : TfDce} {k j : Nat} {v v' : Nat → Byte}

/-! ### The zig-zag map -/

/-- The plane row of a position (R204). -/
def zigzagRow (p : Nat) : Nat :=
  if p % 640 / 80 % 2 = 0 then p % 640 % 80 else 79 - p % 640 % 80

theorem zigzag_eq (p : Nat) : zigzag p = zigzagRow p * 80 + p % 640 / 80 := rfl

theorem zigzagRow_lt (p : Nat) : zigzagRow p < 80 := by
  unfold zigzagRow
  split <;> omega

/-- Two positions less than a section apart have different addresses (R204). -/
theorem zigzag_ne {p q : Nat} (h : p < q) (hq : q < p + 640) : zigzag p ≠ zigzag q := by
  rw [zigzag_eq, zigzag_eq]
  intro he
  have hp := zigzagRow_lt p
  have hq' := zigzagRow_lt q
  have hcp : p % 640 / 80 < 8 := by omega
  have hcq : q % 640 / 80 < 8 := by omega
  generalize hrp : zigzagRow p = rp at *
  generalize hrq : zigzagRow q = rq at *
  have hc : p % 640 / 80 = q % 640 / 80 := by omega
  have hr : rp = rq := by omega
  rw [hr] at hrp
  rw [← hrq] at hrp
  simp only [zigzagRow, hc] at hrp
  have : p % 640 % 80 = q % 640 % 80 := by
    split at hrp
    · exact hrp
    · omega
  omega

/-- The largest address used is 6327 (R79, R204). -/
theorem zigzag_lt (p : Nat) : zigzag p < 6328 := by
  simp only [zigzag, Config.tfSecLen, Config.tfRowLen]
  split <;> omega

/-! ### Runs of emitted bytes -/

/-- Emitting nothing. -/
theorem TfDce.Emitted.zero (h : t.ready) (v : Nat → Byte) : t.Emitted t 0 v := by
  refine ⟨rfl, fun q => ?_, fun q h1 h2 => by omega, fun _ _ _ => rfl, ?_⟩
  · rw [if_neg (by omega)]
  · rw [if_neg (by have := h.2; omega), h.1]

/-- The emitted bytes may be named by any function that agrees on them. -/
theorem TfDce.Emitted.congr (h : t.Emitted u k v) (hv : ∀ q, t.p ≤ q → q < t.p + k → v q = v' q) :
    t.Emitted u k v' := by
  obtain ⟨h1, h2, h3, h4, h5⟩ := h
  refine ⟨h1, fun q => ?_, fun q ha hb => (h3 q ha hb).trans (hv q ha hb), h4, h5⟩
  rw [h2]
  split
  · exact hv q (by omega) (by omega)
  · rfl

/-- Two runs make one run, as long as together they are no longer than a section. -/
theorem TfDce.Emitted.trans (h : t.Emitted u k v) (h' : u.Emitted w j v) (hpo : u.po = t.po)
    (hk : k + j ≤ 640) : t.Emitted w (k + j) v := by
  obtain ⟨h1, h2, h3, h4, h5⟩ := h
  obtain ⟨g1, g2, g3, g4, g5⟩ := h'
  rw [h1] at g1 g2 g3 g4 g5
  rw [hpo] at g3 g4
  refine ⟨by omega, fun q => ?_, fun q ha hb => ?_, fun pl a hn => ?_, ?_⟩
  · rw [g2, h2]
    by_cases hq : t.p + k ≤ q
    · by_cases hq' : q < t.p + k + j
      · rw [if_pos ⟨hq, hq'⟩, if_pos ⟨by omega, by omega⟩]
      · rw [if_neg (by omega), if_neg (by omega), if_neg (by omega)]
    · rw [if_neg (by omega)]
      by_cases hq' : t.p ≤ q
      · rw [if_pos ⟨hq', by omega⟩, if_pos ⟨hq', by omega⟩]
      · rw [if_neg (by omega), if_neg (by omega)]
  · by_cases hq : t.p + k ≤ q
    · exact g3 q hq (by omega)
    · rw [g4 _ _ fun q' ha' hb' => fun hc => zigzag_ne (by omega : q < q') (by omega) hc.2.symm]
      exact h3 q ha (by omega)
  · rw [g4 pl a fun q ha hb => hn q (by omega) (by omega)]
    exact h4 pl a fun q ha hb => hn q ha (by omega)
  · rw [g5, Nat.add_assoc]

/-- A byte emitted earlier is still in OUT. -/
theorem TfDce.Emitted.out_old (h : t.Emitted u k v) {q : Nat} (hq : q < t.p) :
    u.out.read q = t.out.read q := by rw [h.2.1, if_neg (by omega)]

/-- The plane cell at the address of a position that the run does not reach yet is as before. -/
theorem TfDce.Emitted.plane_ahead (h : t.Emitted u k v) {q : Nat} (hq : t.p + k ≤ q)
    (hq' : q < t.p + 640) (pl : BitVec 2) : u.pm.read pl (zigzag q) = t.pm.read pl (zigzag q) :=
  h.2.2.2.1 pl _ fun q' ha hb hc => zigzag_ne (by omega : q' < q) (by omega) hc.2

/-- A stopped engine's loop does nothing. -/
theorem TfDce.loop_stopped {body : TfDce → TfDce} (h : t.status ≠ .running) (n : Nat) :
    TfDce.loop body n t = t := by
  cases n with
  | zero => rfl
  | succ n => rw [TfDce.loop, if_neg h]

/-- What the one-byte operations keep in canonical form. -/
abbrev TfDce.clean (t : TfDce) : Prop := t.pm.wf ∧ t.out.wf

/-- Emit (R207, R208). -/
theorem TfDce.emit_emitted (h : t.ready) (hc : t.clean) (b : Byte) :
    t.Emitted (t.emit b) 1 (fun _ => b) ∧ (t.emit b).clean := by
  have hp : t.p < Config.tfOutLen := h.2
  unfold TfDce.emit
  rw [if_pos hp]
  refine ⟨⟨rfl, fun q => ?_, fun q ha hb => ?_, fun pl a hn => ?_, ?_⟩,
    Planes.write_wf hc.1, Memory.write_wf hc.2⟩
  · simp only [Memory.read_write hc.2]
    by_cases hq : q = t.p
    · rw [if_pos hq, if_pos (by omega)]
    · rw [if_neg hq, if_neg (by omega)]
  · have : q = t.p := by omega
    simp [Planes.read_write hc.1, this]
  · rw [Planes.read_write hc.1, if_neg]
    rintro ⟨rfl, rfl⟩
    exact hn t.p (Nat.le_refl _) (by omega) ⟨rfl, rfl⟩
  · simp only [Config.tfOutLen, h.1]

/-- What a loop of one-byte bodies does. `val u` is the byte that the body emits in state `u`, and `J` whatever
else it keeps. The loop emits as many bytes as there is room for; before the byte at position P + j is emitted
the engine is in a state `u` after j bytes, from which the rest of the run follows, and the byte is `val u`. -/
theorem TfDce.loop_emitted {body : TfDce → TfDce} {val : TfDce → Byte} {J : TfDce → Prop}
    (hb : ∀ u, u.ready → u.clean → J u →
      u.Emitted (body u) 1 (fun _ => val u) ∧ (body u).clean ∧ (body u).po = u.po ∧ J (body u))
    (n : Nat) (t : TfDce) (ht : t.ready) (hc : t.clean) (hJ : J t) (hn : t.room n ≤ 640) :
    (TfDce.loop body n t).clean ∧ (TfDce.loop body n t).po = t.po ∧ J (TfDce.loop body n t) ∧
      t.Emitted (TfDce.loop body n t) (t.room n) (TfDce.loop body n t).out.read ∧
      ∀ j, j < t.room n → ∃ u, u.ready ∧ u.clean ∧ J u ∧ u.po = t.po ∧
        t.Emitted u j (TfDce.loop body n t).out.read ∧
        u.Emitted (TfDce.loop body n t) (t.room n - j) (TfDce.loop body n t).out.read ∧
        (TfDce.loop body n t).out.read (t.p + j) = val u := by
  induction n generalizing t with
  | zero =>
    have h0 : t.room 0 = 0 := by simp [TfDce.room]
    rw [h0]
    exact ⟨hc, rfl, hJ, TfDce.Emitted.zero ht _, fun j hj => absurd hj (by omega)⟩
  | succ n ih =>
    obtain ⟨he, hc1, hpo1, hJ1⟩ := hb t ht hc hJ
    have hp1 : (body t).p = t.p + 1 := he.1
    have hlt := ht.2
    rw [TfDce.loop, if_pos ht.1]
    by_cases hfull : t.p + 1 = 1920
    · have hs : (body t).status ≠ .running := by rw [he.2.2.2.2, if_pos hfull]; decide
      have hr : t.room (n + 1) = 1 := by simp only [TfDce.room]; omega
      rw [TfDce.loop_stopped hs, hr]
      have hE : t.Emitted (body t) 1 (body t).out.read := he.congr fun q ha hb => by
        rw [he.2.1, if_pos ⟨ha, hb⟩]
      refine ⟨hc1, hpo1, hJ1, hE, fun j hj => ⟨t, ht, hc, hJ, rfl, ?_, ?_, ?_⟩⟩
      · rw [show j = 0 by omega]; exact TfDce.Emitted.zero ht _
      · rw [show 1 - j = 1 by omega]; exact hE
      · rw [he.2.1, if_pos (by omega)]
    · have ht1 : (body t).ready := ⟨by rw [he.2.2.2.2, if_neg hfull], by omega⟩
      have hr : t.room (n + 1) = 1 + (body t).room n := by simp only [TfDce.room]; omega
      obtain ⟨hcw, hpow, hJw, hEw, hall⟩ := ih (body t) ht1 hc1 hJ1 (by omega)
      generalize hw : TfDce.loop body n (body t) = w at *
      have hfirst : w.out.read t.p = val t := by
        rw [hEw.out_old (by omega), he.2.1, if_pos (by omega)]
      have hE1 : t.Emitted (body t) 1 w.out.read := he.congr fun q ha hb => by
        rw [show q = t.p by omega, hfirst]
      have hE : t.Emitted w (1 + (body t).room n) w.out.read := hE1.trans hEw hpo1 (by omega)
      rw [hr]
      refine ⟨hcw, by rw [hpow, hpo1], hJw, hE, fun j hj => ?_⟩
      cases j with
      | zero => exact ⟨t, ht, hc, hJ, rfl, TfDce.Emitted.zero ht _, hE, hfirst⟩
      | succ j =>
        obtain ⟨u, hu1, hu2, hu3, hu4, hu5, hu6, hu7⟩ := hall j (by omega)
        refine ⟨u, hu1, hu2, hu3, by rw [hu4, hpo1], ?_, ?_, ?_⟩
        · rw [Nat.add_comm j 1]; exact hE1.trans hu5 hpo1 (by omega)
        · rw [show 1 + (body t).room n - (j + 1) = (body t).room n - j by omega]; exact hu6
        · rw [show t.p + (j + 1) = (body t).p + j by omega]; exact hu7

/-! ### Frames -/

theorem TfDce.Frame.refl (t : TfDce) : t.Frame t := ⟨rfl, rfl, rfl, rfl, rfl, rfl, rfl, rfl, rfl, rfl⟩

theorem TfDce.Frame.trans (h : t.Frame u) (h' : u.Frame w) : t.Frame w := by
  obtain ⟨h1, h2, h3, h4, h5, h6, h7, h8, h9, h10⟩ := h
  obtain ⟨g1, g2, g3, g4, g5, g6, g7, g8, g9, g10⟩ := h'
  exact ⟨g1.trans h1, g2.trans h2, g3.trans h3, g4.trans h4, g5.trans h5, g6.trans h6, g7.trans h7,
    g8.trans h8, g9.trans h9, g10.trans h10⟩

theorem TfDce.emit_frame (t : TfDce) (b : Byte) : t.Frame (t.emit b) := by simp [TfDce.Frame]

/-- The room is what the cursor leaves, and only the cursor counts. -/
theorem TfDce.room_congr (h : u.p = t.p) (n : Nat) : u.room n = t.room n := by simp [TfDce.room, h]

/-- A run that starts in a state with the same output, planes, cursor and status starts in this one too. -/
theorem TfDce.Emitted.of_start (h : u.Emitted w k v) (hp : u.p = t.p) (ho : u.out = t.out)
    (hm : u.pm = t.pm) (hpo : u.po = t.po) : t.Emitted w k v := by
  unfold TfDce.Emitted at h ⊢
  rw [hp, ho, hm, hpo] at h
  exact h

end Sys2Proof.Machine
end

