-- ==== Sys2Proof/Laws/Bodies.lean ====
section
/-! SUPPORT. One lemma per generic body (R240, R242, R250, R252, R256, R258, R266, R271): everything the body can
do when an opcode can run and the output and the planes are in canonical form. -/

namespace Sys2Proof.Machine

variable {t u w : TfDce} {k j c : Nat} {v v' : Nat → Byte}

/-- What every body leaves alone in every state of its loop. -/
abbrev TfDce.Kept (t u : TfDce) : Prop := t.Frame u ∧ u.sp = t.sp ∧ u.pc = t.pc

/-- OOBF after a loop whose first read decides: untouched before the first byte, then with `oob`. -/
abbrev TfDce.OobFrom (t u : TfDce) (oob : Bool) : Prop :=
  (u.p = t.p → u.oobf = t.oobf) ∧ (t.p < u.p → u.oobf = (t.oobf || oob))

/-- Emit in a state that differs from `t` in nothing that emission reads. -/
theorem TfDce.emit_of (ht : t.ready) (hc : t.clean) (hp : u.p = t.p) (ho : u.out = t.out) (hm : u.pm = t.pm)
    (hpo : u.po = t.po) (hs : u.status = t.status) (b : Byte) :
    t.Emitted (u.emit b) 1 (fun _ => b) ∧ (u.emit b).clean := by
  have hu : u.ready := ⟨hs.trans ht.1, by rw [hp]; exact ht.2⟩
  have hcu : u.clean := ⟨by rw [hm]; exact hc.1, by rw [ho]; exact hc.2⟩
  exact ⟨(TfDce.emit_emitted hu hcu b).1.of_start hp ho hm hpo, (TfDce.emit_emitted hu hcu b).2⟩

/-- The state after an OutRead. -/
theorem TfDce.outRead_state (d : Nat) (t : TfDce) :
    (t.outRead d).2 = { t with oobf := t.oobf || outReadOob t.p d } := by
  unfold TfDce.outRead
  split <;> simp_all

/-- The byte of an OutRead (R78). -/
theorem TfDce.outRead_byte (d : Nat) (t : TfDce) :
    (t.outRead d).1 = if d = 0 ∨ t.p < d then 0 else t.out.read (t.p - d) := by
  unfold TfDce.outRead outReadOob
  split <;> simp_all

theorem TfDce.destRead_state (d : Nat) (t : TfDce) :
    (t.destRead d).2 = { t with oobf := t.oobf || destReadOob t.p d } := by
  unfold TfDce.destRead
  split <;> simp_all

/-- The byte of a DestRead (R80). -/
theorem TfDce.destRead_byte (d : Nat) (t : TfDce) :
    (t.destRead d).1 =
      if zigzag t.p < d then 0 else t.pm.read (destPlane t.po t.p) (zigzag t.p - d) := by
  have := zigzag_lt t.p
  unfold TfDce.destRead destReadOob
  by_cases h : zigzag t.p < d
  · simp [h]
  · rw [if_neg (by simp only [Config.tfPlaneLen]; simp [h]; omega), if_neg h]

theorem TfDce.destReadOob_iff (p d : Nat) : destReadOob p d = true ↔ zigzag p < d := by
  have := zigzag_lt p
  unfold destReadOob
  simp only [Config.tfPlaneLen, Bool.or_eq_true, decide_eq_true_eq]
  omega

/-- A later OutRead is out of range only if the first one was. -/
theorem outReadOob_later {p q d : Nat} (h : p ≤ q) : (outReadOob p d || outReadOob q d) = outReadOob p d := by
  unfold outReadOob
  by_cases h0 : d = 0
  · simp [h0]
  · by_cases h1 : q < d
    · simp [h1, show p < d by omega]
    · simp [h0, h1]

theorem TfDce.OobFrom.next {d : Nat} (h : t.OobFrom u (outReadOob t.p d)) (hp : t.p ≤ u.p)
    (hw : w.p = u.p + 1) (ho : w.oobf = (u.oobf || outReadOob u.p d)) :
    t.OobFrom w (outReadOob t.p d) := by
  refine ⟨fun hc => by omega, fun _ => ?_⟩
  rw [ho]
  rcases Nat.lt_or_ge t.p u.p with hlt | hge
  · rw [h.2 hlt, Bool.or_assoc, outReadOob_later hp]
  · have he : u.p = t.p := by omega
    rw [h.1 he, he]

/-- `min` of two positive numbers is positive. -/
theorem TfDce.room_pos (ht : t.ready) (hc : 1 ≤ c) : 1 ≤ t.room c := by
  have := ht.2
  simp only [TfDce.room]
  omega

/-- LinCopy (R240): the byte at q is the byte at q − d of the output as it then stands, 0 where there is none. -/
theorem TfDce.linCopy_emits (ht : t.ready) (hc : t.clean) (d : Nat) (h1 : 1 ≤ c) (h2 : c ≤ 640) :
    t.Emits (t.linCopy c d) c
        (fun q => if d = 0 ∨ q < d then 0 else (t.linCopy c d).out.read (q - d))
        t.pc (t.oobf || outReadOob t.p d) ∧
      (t.linCopy c d).clean := by
  let t0 : TfDce := { t with regs := { t.regs with c := c, d := d } }
  let J : TfDce → Prop := fun u =>
    t.Kept u ∧ u.regs.d = d ∧ t.p ≤ u.p ∧ t.OobFrom u (outReadOob t.p d)
  have hroom : t0.room c = t.room c := rfl
  have hle : t.room c ≤ c := Nat.min_le_left _ _
  have hb : ∀ u : TfDce, u.ready → u.clean → J u →
      u.Emitted (TfDce.emitRead (u.outRead u.regs.d)) 1 (fun _ => (u.outRead u.regs.d).1) ∧
        (TfDce.emitRead (u.outRead u.regs.d)).clean ∧
        (TfDce.emitRead (u.outRead u.regs.d)).po = u.po ∧ J (TfDce.emitRead (u.outRead u.regs.d)) := by
    intro u hu hcu ⟨⟨hf, hsp, hpc⟩, hd, hp, hoob⟩
    have hst := TfDce.outRead_state u.regs.d u
    obtain ⟨he, hcl⟩ := TfDce.emit_of (u := (u.outRead u.regs.d).2) hu hcu (by rw [hst]) (by rw [hst])
      (by rw [hst]) (by rw [hst]) (by rw [hst]) (u.outRead u.regs.d).1
    refine ⟨he, hcl, by simp [TfDce.emitRead, hst], ⟨hf.trans ?_, ?_, ?_⟩, ?_, ?_, ?_⟩
    · simp [TfDce.Frame, TfDce.emitRead, hst]
    · simp [TfDce.emitRead, hst, hsp]
    · simp [TfDce.emitRead, hst, hpc]
    · simp only [TfDce.emitRead, TfDce.emit_regs, hst]; exact hd
    · have := he.1; unfold TfDce.emitRead; omega
    · exact hoob.next hp he.1 (by simp only [TfDce.emitRead, TfDce.emit_oobf, hst]; rw [hd])
  obtain ⟨hcw, hpo, ⟨⟨hf, hsp, hpc⟩, -, -, hoob⟩, hE, hall⟩ :=
    TfDce.loop_emitted hb c t0 ht hc
      ⟨⟨⟨rfl, rfl, rfl, rfl, rfl, rfl, rfl, rfl, rfl, rfl⟩, rfl, rfl⟩, rfl, Nat.le_refl _, fun _ => rfl,
        fun h => absurd h (Nat.lt_irrefl _)⟩
      (by omega)
  change (t.linCopy c d).clean at hcw
  change t.Frame (t.linCopy c d) at hf
  have hE' : t.Emitted (t.linCopy c d) (t.room c) (t.linCopy c d).out.read :=
    TfDce.Emitted.of_start (u := t0) hE rfl rfl rfl rfl
  refine ⟨⟨hE'.congr fun q ha hb' => ?_, hf, hsp, hpc, hoob.2 ?_⟩, hcw⟩
  · obtain ⟨u, hu1, hu2, ⟨-, hd, -, -⟩, hu4, hu5, hu6, hu7⟩ := hall (q - t.p) (by omega)
    have hup : u.p = q := by have : u.p = t.p + (q - t.p) := hu5.1; omega
    change (t.linCopy c d).out.read (t.p + (q - t.p)) = _ at hu7
    rw [show t.p + (q - t.p) = q by omega, TfDce.outRead_byte, hd, hup] at hu7
    rw [hu7]
    split
    · rfl
    · rename_i hn
      exact (hu6.out_old (by omega)).symm
  · have hp : (t.linCopy c d).p = t.p + t.room c := hE'.1
    have := TfDce.room_pos ht h1
    change t.p < (t.linCopy c d).p
    omega

/-- PlaneXform (R242): in section 0 the transform of the last emitted byte, else of the selected plane's cell. -/
theorem TfDce.planeXform_emits (ht : t.ready) (hc : t.clean) (s x : BitVec 2) (h1 : 1 ≤ c) (h2 : c ≤ 640) :
    t.Emits (t.planeXform s x c) c
        (fun q => planeTransform x
          (if q < 640 then (if q = 0 then 0 else (t.planeXform s x c).out.read (q - 1))
           else t.pm.read (selectedPlane t.po s q) (zigzag q)))
        t.pc (t.oobf || decide (t.p = 0)) ∧
      (t.planeXform s x c).clean := by
  let t0 : TfDce := { t with regs := { t.regs with c := c } }
  let J : TfDce → Prop := fun u =>
    t.Kept u ∧ t.p ≤ u.p ∧ t.OobFrom u (outReadOob t.p 1)
  let body : TfDce → TfDce := fun u => (u.planeSource s).2.emit (planeTransform x (u.planeSource s).1)
  have hle : t.room c ≤ c := Nat.min_le_left _ _
  have hoob0 : outReadOob t.p 1 = decide (t.p = 0) := by
    unfold outReadOob
    cases t.p <;> simp
  have hb : ∀ u : TfDce, u.ready → u.clean → J u →
      u.Emitted (body u) 1 (fun _ => planeTransform x (u.planeSource s).1) ∧
        (body u).clean ∧ (body u).po = u.po ∧ J (body u) := by
    intro u hu hcu ⟨⟨hf, hsp, hpc⟩, hp, hoob⟩
    have hst : (u.planeSource s).2 = { u with oobf := u.oobf || outReadOob u.p 1 } := by
      unfold TfDce.planeSource
      split
      · exact TfDce.outRead_state 1 u
      · rename_i hge
        have : outReadOob u.p 1 = false := by
          simp only [Config.tfSecLen] at hge
          simp [outReadOob]; omega
        simp [this]
    obtain ⟨he, hcl⟩ := TfDce.emit_of (u := (u.planeSource s).2) hu hcu (by rw [hst]) (by rw [hst])
      (by rw [hst]) (by rw [hst]) (by rw [hst]) (planeTransform x (u.planeSource s).1)
    refine ⟨he, hcl, by simp [body, hst], ⟨hf.trans ?_, ?_, ?_⟩, ?_, ?_⟩
    · simp [TfDce.Frame, body, hst]
    · simp [body, hst, hsp]
    · simp [body, hst, hpc]
    · have := he.1; simp only [body]; omega
    · exact hoob.next hp he.1 (by simp [body, hst])
  obtain ⟨hcw, hpo, ⟨⟨hf, hsp, hpc⟩, -, hoob⟩, hE, hall⟩ :=
    TfDce.loop_emitted hb c t0 ht hc
      ⟨⟨⟨rfl, rfl, rfl, rfl, rfl, rfl, rfl, rfl, rfl, rfl⟩, rfl, rfl⟩, Nat.le_refl _, fun _ => rfl,
        fun h => absurd h (Nat.lt_irrefl _)⟩
      (by have : t0.room c = t.room c := rfl
          omega)
  change (t.planeXform s x c).clean at hcw
  have hE' : t.Emitted (t.planeXform s x c) (t.room c) (t.planeXform s x c).out.read :=
    TfDce.Emitted.of_start (u := t0) hE rfl rfl rfl rfl
  refine ⟨⟨hE'.congr fun q ha hb' => ?_, hf, hsp, hpc, ?_⟩, hcw⟩
  · obtain ⟨u, hu1, hu2, -, hu4, hu5, hu6, hu7⟩ := hall (q - t.p) (by
      have : t0.room c = t.room c := rfl
      omega)
    have hup : u.p = q := by have : u.p = t.p + (q - t.p) := hu5.1; omega
    change (t.planeXform s x c).out.read (t.p + (q - t.p)) = _ at hu7
    rw [show t.p + (q - t.p) = q by omega] at hu7
    rw [hu7]
    congr 1
    simp only [TfDce.planeSource, Config.tfSecLen, hup]
    split
    · rw [TfDce.outRead_byte, hup]
      by_cases hq : q = 0
      · simp [hq]
      · rw [if_neg (by omega), if_neg hq]
        exact (hu6.out_old (by omega)).symm
    · simp only [TfDce.planeByte, hup, hu4]
      exact hu5.plane_ahead (by show t.p + (q - t.p) ≤ q; omega) (by show q < t.p + 640; omega) _
  · rw [← hoob0]
    refine hoob.2 ?_
    have hp : (t.planeXform s x c).p = t.p + t.room c := hE'.1
    have := TfDce.room_pos ht h1
    change t.p < (t.planeXform s x c).p
    omega

/-- MaskRead (R252): the selected plane's cell at the address of each position, masked. -/
theorem TfDce.maskRead_emits (ht : t.ready) (hc : t.clean) (s : BitVec 2) (m : Byte) (h2 : c ≤ 640) :
    t.Emits (t.maskRead s m c) c
        (fun q => t.pm.read (selectedPlane t.po s q) (zigzag q) &&& m) t.pc t.oobf ∧
      (t.maskRead s m c).clean := by
  let t0 : TfDce := { t with regs := { t.regs with c := c } }
  let J : TfDce → Prop := fun u => t.Kept u ∧ u.oobf = t.oobf
  let body : TfDce → TfDce := fun u => u.emit (u.planeByte s &&& m)
  have hle : t.room c ≤ c := Nat.min_le_left _ _
  have hb : ∀ u : TfDce, u.ready → u.clean → J u →
      u.Emitted (body u) 1 (fun _ => u.planeByte s &&& m) ∧
        (body u).clean ∧ (body u).po = u.po ∧ J (body u) := by
    intro u hu hcu ⟨⟨hf, hsp, hpc⟩, hoob⟩
    obtain ⟨he, hcl⟩ := TfDce.emit_emitted hu hcu (u.planeByte s &&& m)
    exact ⟨he, hcl, by simp [body], ⟨hf.trans (TfDce.emit_frame _ _), by simp [body, hsp], by simp [body, hpc]⟩,
      by simp [body, hoob]⟩
  obtain ⟨hcw, hpo, ⟨⟨hf, hsp, hpc⟩, hoob⟩, hE, hall⟩ :=
    TfDce.loop_emitted hb c t0 ht hc
      ⟨⟨⟨rfl, rfl, rfl, rfl, rfl, rfl, rfl, rfl, rfl, rfl⟩, rfl, rfl⟩, rfl⟩
      (by have : t0.room c = t.room c := rfl
          omega)
  change (t.maskRead s m c).clean at hcw
  have hE' : t.Emitted (t.maskRead s m c) (t.room c) (t.maskRead s m c).out.read :=
    TfDce.Emitted.of_start (u := t0) hE rfl rfl rfl rfl
  refine ⟨⟨hE'.congr fun q ha hb' => ?_, hf, hsp, hpc, hoob⟩, hcw⟩
  obtain ⟨u, hu1, hu2, -, hu4, hu5, hu6, hu7⟩ := hall (q - t.p) (by
    have : t0.room c = t.room c := rfl
    omega)
  have hup : u.p = q := by have : u.p = t.p + (q - t.p) := hu5.1; omega
  change (t.maskRead s m c).out.read (t.p + (q - t.p)) = _ at hu7
  rw [show t.p + (q - t.p) = q by omega] at hu7
  rw [hu7]
  simp only [TfDce.planeByte, hup, hu4]
  rw [hu5.plane_ahead (by show t.p + (q - t.p) ≤ q; omega) (by show q < t.p + 640; omega)]

/-- rol8(v, 0) = v (R10). -/
theorem rol8_zero (m : Byte) : rol8 m 0 = m :=
  BitVec.eq_of_getLsbD_eq fun i hi => by simp [rol8, hi]

/-- Rotations add up. -/
theorem rol8_add (m : Byte) (a b : Nat) : rol8 (rol8 m a) b = rol8 m (a + b) := by
  have key : ∀ i, i < 8 → (rol8 (rol8 m a) b).getLsbD i = (rol8 m (a + b)).getLsbD i := by
    intro i hi
    simp only [rol8, BitVec.getLsbD_rotateLeft]
    by_cases h1 : i < b % 8
    · by_cases h2 : 8 - b % 8 + i < a % 8 <;> by_cases h3 : i < (a + b) % 8 <;>
        simp [h1, h2, h3, hi, show 8 - b % 8 + i < 8 by omega] <;> (congr 1; omega)
    · by_cases h2 : i - b % 8 < a % 8 <;> by_cases h3 : i < (a + b) % 8 <;>
        simp [h1, h2, h3, hi, show i - b % 8 < 8 by omega] <;> (congr 1; omega)
  exact BitVec.eq_of_getLsbD_eq key

/-- RotMaskRead (R266): byte i of the run is masked with rol8(m, RA·i). -/
theorem TfDce.rotMaskRead_emits (ht : t.ready) (hc : t.clean) (s : BitVec 2) (m : Byte) (h2 : c ≤ 640) :
    t.Emits (t.rotMaskRead s m c) c
        (fun q => t.pm.read (selectedPlane t.po s q) (zigzag q) &&& rol8 m (rotateAmount m * (q - t.p)))
        t.pc t.oobf ∧
      (t.rotMaskRead s m c).clean := by
  let t0 : TfDce := { t with regs := { t.regs with c := c, wm := m, ra := rotateAmount m } }
  let J : TfDce → Prop := fun u =>
    t.Kept u ∧ u.oobf = t.oobf ∧ t.p ≤ u.p ∧
      (u.status = .running → u.regs.ra = rotateAmount m ∧ u.regs.wm = rol8 m (rotateAmount m * (u.p - t.p)))
  let body : TfDce → TfDce := fun u => (u.emit (u.planeByte s &&& u.regs.wm)).andThen TfDce.rotateMask
  have hle : t.room c ≤ c := Nat.min_le_left _ _
  have hb : ∀ u : TfDce, u.ready → u.clean → J u →
      u.Emitted (body u) 1 (fun _ => u.planeByte s &&& u.regs.wm) ∧
        (body u).clean ∧ (body u).po = u.po ∧ J (body u) := by
    intro u hu hcu ⟨⟨hf, hsp, hpc⟩, hoob, hp, hm⟩
    obtain ⟨he, hcl⟩ := TfDce.emit_emitted hu hcu (u.planeByte s &&& u.regs.wm)
    have hp1 : (u.emit (u.planeByte s &&& u.regs.wm)).p = u.p + 1 := he.1
    have hfe := TfDce.emit_frame u (u.planeByte s &&& u.regs.wm)
    by_cases hs : (u.emit (u.planeByte s &&& u.regs.wm)).status = .running
    · have hbu : body u = (u.emit (u.planeByte s &&& u.regs.wm)).rotateMask := by
        simp only [body, TfDce.andThen, if_pos hs]
      refine ⟨by rw [hbu]; exact he, by rw [hbu]; exact hcl, by rw [hbu]; simp, ⟨hf.trans ?_, ?_, ?_⟩, ?_, ?_, ?_⟩
      · rw [hbu]; exact hfe.trans ⟨rfl, rfl, rfl, rfl, rfl, rfl, rfl, rfl, rfl, rfl⟩
      · rw [hbu]; simp [hsp]
      · rw [hbu]; simp [hpc]
      · rw [hbu]; simp [hoob]
      · rw [hbu]; simp only [TfDce.rotateMask_p]; omega
      · intro _
        obtain ⟨hra, hwm⟩ := hm hu.1
        rw [hbu]
        refine ⟨by simp [hra], ?_⟩
        rw [TfDce.rotateMask_wm, TfDce.rotateMask_p, TfDce.emit_regs, hp1, hra, hwm, rol8_add]
        rw [show u.p + 1 - t.p = (u.p - t.p) + 1 by omega, Nat.mul_add, Nat.mul_one]
    · have hbu : body u = u.emit (u.planeByte s &&& u.regs.wm) := by
        simp only [body, TfDce.andThen, if_neg hs]
      refine ⟨by rw [hbu]; exact he, by rw [hbu]; exact hcl, by rw [hbu]; simp, ⟨hf.trans ?_, ?_, ?_⟩, ?_, ?_, ?_⟩
      · rw [hbu]; exact hfe
      · rw [hbu]; simp [hsp]
      · rw [hbu]; simp [hpc]
      · rw [hbu]; simp [hoob]
      · rw [hbu]; omega
      · intro hr; rw [hbu] at hr; exact absurd hr hs
  obtain ⟨hcw, hpo, ⟨⟨hf, hsp, hpc⟩, hoob, -, -⟩, hE, hall⟩ :=
    TfDce.loop_emitted hb c t0 ht hc
      ⟨⟨⟨rfl, rfl, rfl, rfl, rfl, rfl, rfl, rfl, rfl, rfl⟩, rfl, rfl⟩, rfl, Nat.le_refl _, fun _ =>
        ⟨rfl, by rw [show t0.p - t.p = 0 from Nat.sub_self _, Nat.mul_zero, rol8_zero]⟩⟩
      (by have : t0.room c = t.room c := rfl
          omega)
  change (t.rotMaskRead s m c).clean at hcw
  have hE' : t.Emitted (t.rotMaskRead s m c) (t.room c) (t.rotMaskRead s m c).out.read :=
    TfDce.Emitted.of_start (u := t0) hE rfl rfl rfl rfl
  refine ⟨⟨hE'.congr fun q ha hb' => ?_, hf, hsp, hpc, hoob⟩, hcw⟩
  obtain ⟨u, hu1, hu2, ⟨-, -, -, hm⟩, hu4, hu5, hu6, hu7⟩ := hall (q - t.p) (by
    have : t0.room c = t.room c := rfl
    omega)
  have hup : u.p = q := by have : u.p = t.p + (q - t.p) := hu5.1; omega
  change (t.rotMaskRead s m c).out.read (t.p + (q - t.p)) = _ at hu7
  rw [show t.p + (q - t.p) = q by omega] at hu7
  rw [hu7]
  simp only [TfDce.planeByte, hup, hu4, (hm hu1.1).2]
  rw [hu5.plane_ahead (by show t.p + (q - t.p) ≤ q; omega) (by show q < t.p + 640; omega)]

/-- Fill (R271). -/
theorem TfDce.fill_emits (ht : t.ready) (hc : t.clean) (b : Byte) (h2 : c ≤ 640) :
    t.Emits (t.fill b c) c (fun _ => b) t.pc t.oobf ∧ (t.fill b c).clean := by
  let t0 : TfDce := { t with regs := { t.regs with c := c } }
  let J : TfDce → Prop := fun u => t.Kept u ∧ u.oobf = t.oobf
  have hle : t.room c ≤ c := Nat.min_le_left _ _
  have hb : ∀ u : TfDce, u.ready → u.clean → J u →
      u.Emitted (u.emit b) 1 (fun _ => b) ∧ (u.emit b).clean ∧ (u.emit b).po = u.po ∧ J (u.emit b) := by
    intro u hu hcu ⟨⟨hf, hsp, hpc⟩, hoob⟩
    obtain ⟨he, hcl⟩ := TfDce.emit_emitted hu hcu b
    exact ⟨he, hcl, by simp, ⟨hf.trans (TfDce.emit_frame _ _), by simp [hsp], by simp [hpc]⟩, by simp [hoob]⟩
  obtain ⟨hcw, hpo, ⟨⟨hf, hsp, hpc⟩, hoob⟩, hE, hall⟩ :=
    TfDce.loop_emitted (val := fun _ => b) hb c t0 ht hc
      ⟨⟨⟨rfl, rfl, rfl, rfl, rfl, rfl, rfl, rfl, rfl, rfl⟩, rfl, rfl⟩, rfl⟩
      (by have : t0.room c = t.room c := rfl
          omega)
  change (t.fill b c).clean at hcw
  have hE' : t.Emitted (t.fill b c) (t.room c) (t.fill b c).out.read :=
    TfDce.Emitted.of_start (u := t0) hE rfl rfl rfl rfl
  refine ⟨⟨hE'.congr fun q ha hb' => ?_, hf, hsp, hpc, hoob⟩, hcw⟩
  obtain ⟨u, -, -, -, -, -, -, hu7⟩ := hall (q - t.p) (by
    have : t0.room c = t.room c := rfl
    omega)
  change (t.fill b c).out.read (t.p + (q - t.p)) = _ at hu7
  rwa [show t.p + (q - t.p) = q by omega] at hu7

/-- PO names three different planes, so different sections of the output have different destination planes. -/
theorem destPlane_inj {po : PlaneOrder} (hpo : po.isPermutation) {p q : Nat} (hp : p < 1920) (hq : q < 1920)
    (h : destPlane po p = destPlane po q) : p / 640 = q / 640 := by
  obtain ⟨-, -, -, h01, h02, h12⟩ := hpo
  have hp' : p / 640 = 0 ∨ p / 640 = 1 ∨ p / 640 = 2 := by omega
  have hq' : q / 640 = 0 ∨ q / 640 = 1 ∨ q / 640 = 2 := by omega
  change po.get (p / 640) = po.get (q / 640) at h
  rcases hp' with hp' | hp' | hp' <;> rcases hq' with hq' | hq' | hq' <;> rw [hp', hq'] at h ⊢ <;>
    simp [PlaneOrder.get] at h
  · exact absurd h h01
  · exact absurd h h02
  · exact absurd h.symm h01
  · exact absurd h h12
  · exact absurd h.symm h02
  · exact absurd h.symm h12

/-- A source cell of PBR, one to sixteen cells before the address of position q, is not the cell of q or of a
later position of the same section (R251). -/
theorem zigzag_source {p q d : Nat} (hpq : p ≤ q) (hs : p / 640 = q / 640) (h1 : 1 ≤ d) (h2 : d ≤ 16)
    (hd : d ≤ zigzag p) : zigzag q ≠ zigzag p - d := by
  rw [zigzag_eq] at hd ⊢
  rw [zigzag_eq]
  intro he
  have hrp := zigzagRow_lt p
  have hrq := zigzagRow_lt q
  have hcp : p % 640 / 80 < 8 := by omega
  have hcq : q % 640 / 80 < 8 := by omega
  have hcol : p % 640 / 80 ≤ q % 640 / 80 := Nat.div_le_div_right (by omega)
  omega

/-- PlaneCopy (R250): the byte at q is the destination plane's cell d before the address of q, 0 below address
0. The planes named are those after the copy: what the copy itself writes first it also reads (R458). -/
theorem TfDce.planeCopy_emits (ht : t.ready) (hc : t.clean) (hpo : t.po.isPermutation) {d : Nat} (hd1 : 1 ≤ d)
    (hd2 : d ≤ 16) (h2 : c ≤ 640) :
    t.Emits (t.planeCopy c d) c
        (fun q => if zigzag q < d then 0
          else (t.planeCopy c d).pm.read (destPlane t.po q) (zigzag q - d))
        t.pc (t.planeCopy c d).oobf ∧
      ((t.planeCopy c d).oobf = true ↔
        t.oobf = true ∨ ∃ q, t.p ≤ q ∧ q < t.p + t.room c ∧ zigzag q < d) ∧
      (t.planeCopy c d).clean := by
  let t0 : TfDce := { t with regs := { t.regs with c := c, d := d } }
  let J : TfDce → Prop := fun u =>
    t.Kept u ∧ u.regs.d = d ∧ t.p ≤ u.p ∧
      (u.oobf = true ↔ t.oobf = true ∨ ∃ q, t.p ≤ q ∧ q < u.p ∧ zigzag q < d)
  have hle : t.room c ≤ c := Nat.min_le_left _ _
  have hb : ∀ u : TfDce, u.ready → u.clean → J u →
      u.Emitted (TfDce.emitRead (u.destRead u.regs.d)) 1 (fun _ => (u.destRead u.regs.d).1) ∧
        (TfDce.emitRead (u.destRead u.regs.d)).clean ∧
        (TfDce.emitRead (u.destRead u.regs.d)).po = u.po ∧ J (TfDce.emitRead (u.destRead u.regs.d)) := by
    intro u hu hcu ⟨⟨hf, hsp, hpc⟩, hd, hp, hoob⟩
    have hst := TfDce.destRead_state u.regs.d u
    obtain ⟨he, hcl⟩ := TfDce.emit_of (u := (u.destRead u.regs.d).2) hu hcu (by rw [hst]) (by rw [hst])
      (by rw [hst]) (by rw [hst]) (by rw [hst]) (u.destRead u.regs.d).1
    have hp1 : (TfDce.emitRead (u.destRead u.regs.d)).p = u.p + 1 := he.1
    refine ⟨he, hcl, by simp [TfDce.emitRead, hst], ⟨hf.trans ?_, ?_, ?_⟩, ?_, by omega, ?_⟩
    · simp [TfDce.Frame, TfDce.emitRead, hst]
    · simp [TfDce.emitRead, hst, hsp]
    · simp [TfDce.emitRead, hst, hpc]
    · simp only [TfDce.emitRead, TfDce.emit_regs, hst]; exact hd
    · have ho : (TfDce.emitRead (u.destRead u.regs.d)).oobf = (u.oobf || destReadOob u.p d) := by
        simp only [TfDce.emitRead, TfDce.emit_oobf, hst]; rw [hd]
      rw [ho, Bool.or_eq_true, hoob, TfDce.destReadOob_iff, hp1]
      constructor
      · rintro ((h | ⟨q, ha, hb, hz⟩) | h)
        · exact .inl h
        · exact .inr ⟨q, ha, by omega, hz⟩
        · exact .inr ⟨u.p, hp, by omega, h⟩
      · rintro (h | ⟨q, ha, hb, hz⟩)
        · exact .inl (.inl h)
        · by_cases hq : q = u.p
          · exact .inr (hq ▸ hz)
          · exact .inl (.inr ⟨q, ha, by omega, hz⟩)
  obtain ⟨hcw, hpow, ⟨⟨hf, hsp, hpc⟩, -, -, hoob⟩, hE, hall⟩ :=
    TfDce.loop_emitted hb c t0 ht hc
      ⟨⟨⟨rfl, rfl, rfl, rfl, rfl, rfl, rfl, rfl, rfl, rfl⟩, rfl, rfl⟩, rfl, Nat.le_refl _,
        ⟨fun h => .inl h, fun h => h.elim id fun ⟨q, ha, hb, _⟩ => absurd hb (Nat.not_lt.2 ha)⟩⟩
      (by have : t0.room c = t.room c := rfl
          omega)
  change (t.planeCopy c d).clean at hcw
  have hE' : t.Emitted (t.planeCopy c d) (t.room c) (t.planeCopy c d).out.read :=
    TfDce.Emitted.of_start (u := t0) hE rfl rfl rfl rfl
  have hwp : (t.planeCopy c d).p = t.p + t.room c := hE'.1
  have hlt := ht.2
  refine ⟨⟨hE'.congr fun q ha hb' => ?_, hf, hsp, hpc, rfl⟩, ?_, hcw⟩
  · obtain ⟨u, hu1, hu2, ⟨-, hd, -, -⟩, hu4, hu5, hu6, hu7⟩ := hall (q - t.p) (by
      have : t0.room c = t.room c := rfl
      omega)
    have hup : u.p = q := by have : u.p = t.p + (q - t.p) := hu5.1; omega
    change (t.planeCopy c d).out.read (t.p + (q - t.p)) = _ at hu7
    rw [show t.p + (q - t.p) = q by omega, TfDce.destRead_byte, hd, hup, hu4] at hu7
    rw [hu7]
    split
    · rfl
    · rename_i hz
      refine (hu6.2.2.2.1 _ _ fun q' ha' hb'' hc' => ?_).symm
      rw [hu4] at hc'
      have hroom : t0.room c = t.room c := rfl
      have hr : t.room c ≤ 1920 - t.p := Nat.min_le_right _ _
      have hsec := destPlane_inj hpo (by omega) (by omega) hc'.1
      exact zigzag_source (by omega : q ≤ q') hsec.symm hd1 hd2 (by omega) hc'.2
  · have h := hoob
    change (t.planeCopy c d).oobf = true ↔ t.oobf = true ∨ ∃ q, t.p ≤ q ∧ q < (t.planeCopy c d).p ∧ _ at h
    rw [h, hwp]

/-- One pair of bytes, the second only if there is room for it (R208, R256). -/
theorem TfDce.pair_emitted (ht : t.ready) (hc : t.clean) (b0 b1 : Byte) :
    t.Emitted ((t.emit b0).andThen (TfDce.emit b1)) (t.room 2) (fun q => if q = t.p then b0 else b1) ∧
      ((t.emit b0).andThen (TfDce.emit b1)).clean ∧ t.Kept ((t.emit b0).andThen (TfDce.emit b1)) ∧
      ((t.emit b0).andThen (TfDce.emit b1)).oobf = t.oobf := by
  obtain ⟨he, hcl⟩ := TfDce.emit_emitted ht hc b0
  have hp1 : (t.emit b0).p = t.p + 1 := he.1
  have hlt := ht.2
  by_cases hfull : t.p + 1 = 1920
  · have hs : (t.emit b0).status ≠ .running := by rw [he.2.2.2.2, if_pos hfull]; decide
    have hr : t.room 2 = 1 := by simp only [TfDce.room]; omega
    rw [hr, TfDce.andThen, if_neg hs]
    exact ⟨he.congr fun q ha hb => by rw [if_pos (by omega)], hcl, ⟨TfDce.emit_frame _ _, by simp, by simp⟩, by simp⟩
  · have hs : (t.emit b0).status = .running := by rw [he.2.2.2.2, if_neg hfull]
    have hr : t.room 2 = 1 + 1 := by simp only [TfDce.room]; omega
    obtain ⟨he1, hcl1⟩ := TfDce.emit_emitted (t := t.emit b0) ⟨hs, by omega⟩ hcl b1
    rw [hr, TfDce.andThen, if_pos hs]
    refine ⟨TfDce.Emitted.trans (he.congr fun q ha hb => by rw [if_pos (by omega)])
      (he1.congr fun q ha hb => by rw [if_neg (by omega)]) (by simp) (by omega), hcl1,
      ⟨(TfDce.emit_frame _ _).trans (TfDce.emit_frame _ _), by simp, by simp⟩, by simp⟩

/-- The loop of PAIR and NIB, for any names of the first and the second byte of each pair. -/
theorem TfDce.pairLoop_emits (b0 b1 : Byte) (n : Nat) (t : TfDce) (ht : t.ready) (hc : t.clean)
    (hn : 2 * n ≤ 640) :
    let w := TfDce.loop (fun u => (u.emit b0).andThen (TfDce.emit b1)) n t
    t.Emitted w (t.room (2 * n)) (fun q => if (q - t.p) % 2 = 0 then b0 else b1) ∧ w.clean ∧ t.Kept w ∧
      w.oobf = t.oobf := by
  induction n generalizing t with
  | zero =>
    have : t.room (2 * 0) = 0 := by simp [TfDce.room]
    rw [this]
    exact ⟨TfDce.Emitted.zero ht _, hc, ⟨TfDce.Frame.refl t, rfl, rfl⟩, rfl⟩
  | succ n ih =>
    obtain ⟨he, hcl, ⟨hf, hsp, hpc⟩, hoob⟩ := TfDce.pair_emitted ht hc b0 b1
    have hlt := ht.2
    rw [TfDce.loop, if_pos ht.1]
    generalize hb : (t.emit b0).andThen (TfDce.emit b1) = u at *
    have hup : u.p = t.p + t.room 2 := he.1
    by_cases hfull : t.p + t.room 2 = 1920
    · have hs : u.status ≠ .running := by rw [he.2.2.2.2, if_pos hfull]; decide
      have hr : t.room (2 * (n + 1)) = t.room 2 := by simp only [TfDce.room] at hfull ⊢; omega
      rw [TfDce.loop_stopped hs, hr]
      refine ⟨he.congr fun q ha hb => ?_, hcl, ⟨hf, hsp, hpc⟩, hoob⟩
      have h2 : t.room 2 ≤ 2 := Nat.min_le_left _ _
      by_cases hq : q = t.p
      · rw [if_pos hq, if_pos (by omega)]
      · rw [if_neg hq, if_neg (by omega)]
    · have hr2 : t.room 2 = 2 := by simp only [TfDce.room] at hfull ⊢; omega
      have hu : u.ready := ⟨by rw [he.2.2.2.2, if_neg hfull], by simp only [TfDce.room] at *; omega⟩
      obtain ⟨hE, hcw, ⟨hfw, hspw, hpcw⟩, hoobw⟩ := ih u hu hcl (by omega)
      have hr : t.room (2 * (n + 1)) = t.room 2 + u.room (2 * n) := by
        rw [hr2]; simp only [TfDce.room, hup]; omega
      have hbound : u.room (2 * n) ≤ 2 * n := Nat.min_le_left _ _
      rw [hr]
      refine ⟨TfDce.Emitted.trans (he.congr fun q ha hb => ?_) (hE.congr fun q ha hb => ?_) hf.2.2.2.2.1
        (by omega), hcw, ⟨hf.trans hfw, hspw.trans hsp, hpcw.trans hpc⟩, hoobw.trans hoob⟩
      · by_cases hq : q = t.p
        · rw [if_pos hq, if_pos (by omega)]
        · rw [if_neg hq, if_neg (by omega)]
      · have hq : (q - u.p) % 2 = (q - t.p) % 2 := by omega
        rw [hq]

/-- The pair body of PAIR and NIB (R256, R263). -/
theorem TfDce.pairRun_emits (ht : t.ready) (hc : t.clean) (b0 b1 : Byte) (h2 : 2 * c ≤ 640) :
    t.Emits (t.pairRun b0 b1 c) (2 * c) (fun q => if (q - t.p) % 2 = 0 then b0 else b1) t.pc t.oobf ∧
      (t.pairRun b0 b1 c).clean := by
  let t0 : TfDce := { t with regs := { t.regs with c := c } }
  obtain ⟨hE, hcw, ⟨hf, hsp, hpc⟩, hoob⟩ := TfDce.pairLoop_emits b0 b1 c t0 ht hc h2
  exact ⟨⟨TfDce.Emitted.of_start (u := t0) hE rfl rfl rfl rfl, hf, hsp, hpc, hoob⟩, hcw⟩

/-- The literal run (R258): as many literals are read and emitted as the output has room for. -/
theorem TfDce.litRun_emits (bs : List Byte) (t : TfDce) (ht : t.ready) (hc : t.clean) (hn : bs.length ≤ 640) :
    t.Emitted (t.litRun bs) (t.room bs.length) (fun q => bs.getD (q - t.p) 0) ∧ (t.litRun bs).clean ∧
      t.Frame (t.litRun bs) ∧ (t.litRun bs).sp = t.sp + t.room bs.length ∧ (t.litRun bs).pc = t.pc ∧
      (t.litRun bs).oobf = t.oobf := by
  induction bs generalizing t with
  | nil =>
    have : t.room 0 = 0 := by simp [TfDce.room]
    rw [List.length_nil, this]
    exact ⟨TfDce.Emitted.zero ht _, hc, TfDce.Frame.refl t, rfl, rfl, rfl⟩
  | cons b bs ih =>
    let t1 : TfDce := { t with sp := t.sp + 1 }
    obtain ⟨he, hcl⟩ := TfDce.emit_of (t := t) (u := t1) ht hc rfl rfl rfl rfl rfl b
    have hlt := ht.2
    rw [TfDce.litRun, if_pos ht.1]
    have hf : t.Frame (t1.emit b) := by simp [TfDce.Frame, t1]
    have hsp : (t1.emit b).sp = t.sp + 1 := by simp [t1]
    have hpc : (t1.emit b).pc = t.pc := by simp [t1]
    have hoob : (t1.emit b).oobf = t.oobf := by simp [t1]
    have hp1 : (t1.emit b).p = t.p + 1 := he.1
    change t.Emitted ((t1.emit b).litRun bs) _ _ ∧ ((t1.emit b).litRun bs).clean ∧
      t.Frame ((t1.emit b).litRun bs) ∧ ((t1.emit b).litRun bs).sp = _ ∧ ((t1.emit b).litRun bs).pc = _ ∧
      ((t1.emit b).litRun bs).oobf = _
    generalize hb : t1.emit b = u at *
    simp only [List.length_cons] at hn ⊢
    have hget : ∀ q, t.p ≤ q → q < t.p + 1 → b = (b :: bs).getD (q - t.p) 0 := fun q ha hb => by
      rw [show q - t.p = 0 by omega]; rfl
    by_cases hfull : t.p + 1 = 1920
    · have hs : u.status ≠ .running := by rw [he.2.2.2.2, if_pos hfull]; decide
      have hstop : u.litRun bs = u := by
        cases bs with
        | nil => rfl
        | cons _ _ => rw [TfDce.litRun, if_neg hs]
      have hr : t.room (bs.length + 1) = 1 := by simp only [TfDce.room]; omega
      rw [hstop, hr]
      exact ⟨he.congr hget, hcl, hf, hsp, hpc, hoob⟩
    · have hu : u.ready := ⟨by rw [he.2.2.2.2, if_neg hfull], by omega⟩
      obtain ⟨hE, hcw, hfw, hspw, hpcw, hoobw⟩ := ih u hu hcl (by omega)
      have hr : t.room (bs.length + 1) = 1 + u.room bs.length := by simp only [TfDce.room, hp1]; omega
      have hbound : u.room bs.length ≤ bs.length := Nat.min_le_left _ _
      rw [hr]
      refine ⟨TfDce.Emitted.trans (he.congr hget) (hE.congr fun q ha hb => ?_) hf.2.2.2.2.1 (by omega), hcw,
        hf.trans hfw, by rw [hspw, hsp]; omega, hpcw.trans hpc, hoobw.trans hoob⟩
      rw [show q - t.p = (q - u.p) + 1 by omega]
      simp

end Sys2Proof.Machine
end

