-- ==== Sys2Proof/Laws/Codes.lean ====
section
/-! SUPPORT. What the two phases of getCode and the code encoder do (R101, R102, R161, R162). -/

namespace Sys2Proof

open Sys2Proof.Machine

theorem bitsValue_foldl (acc : Nat) (bits : List Bool) :
    bits.foldl (fun a b => a * 2 + b.toNat) acc = acc * 2 ^ bits.length + bitsValue bits := by
  unfold bitsValue
  induction bits generalizing acc with
  | nil => simp
  | cons b bits ih =>
    simp only [List.foldl_cons, List.length_cons]
    rw [ih, ih (0 * 2 + b.toNat), Nat.pow_succ]
    simp only [Nat.zero_mul, Nat.zero_add, Nat.add_mul]
    rw [Nat.mul_assoc, Nat.mul_comm 2]
    omega

theorem bitsValue_cons (b : Bool) (bits : List Bool) :
    bitsValue (b :: bits) = b.toNat * 2 ^ bits.length + bitsValue bits := by
  have := bitsValue_foldl b.toNat bits
  unfold bitsValue at *
  simpa using this

theorem bitsValue_lt (bits : List Bool) : bitsValue bits < 2 ^ bits.length := by
  induction bits with
  | nil => simp [bitsValue]
  | cons b bits ih =>
    have hb : b.toNat ≤ 1 := by cases b <;> simp
    rw [bitsValue_cons, List.length_cons, Nat.pow_succ]
    have := Nat.mul_le_mul_right (2 ^ bits.length) hb
    omega

/-- Phase A on j ones and a zero (R161). -/
theorem readUnary_ones (j acc cnt : Nat) (rest : List Bool) :
    readUnary acc cnt (List.replicate j true ++ false :: rest) =
      some ((acc + 1) * 2 ^ (j + 1) - 2, cnt + j + 1, rest) := by
  induction j generalizing acc cnt with
  | zero => simp [readUnary]; omega
  | succ j ih =>
    rw [List.replicate_succ, List.cons_append, readUnary, if_pos rfl, ih, Nat.pow_succ 2 (j + 1),
      Bool.toNat_true, ← Nat.mul_assoc, Nat.mul_right_comm, show acc * 2 + 1 + 1 = (acc + 1) * 2 by omega,
      show cnt + 1 + j + 1 = cnt + (j + 1) + 1 by omega]

/-- Phase A reads nothing else (R161). -/
theorem readUnary_inv {bits rest : List Bool} {acc cnt a n : Nat} (h : readUnary acc cnt bits = some (a, n, rest)) :
    ∃ j, bits = List.replicate j true ++ false :: rest ∧ n = cnt + j + 1 ∧ a = (acc + 1) * 2 ^ (j + 1) - 2 := by
  induction bits generalizing acc cnt with
  | nil => simp [readUnary] at h
  | cons b bits ih =>
    rw [readUnary] at h
    cases b with
    | true =>
      obtain ⟨j, rfl, rfl, rfl⟩ := ih (by simpa using h)
      refine ⟨j + 1, by simp [List.replicate_succ], by omega, ?_⟩
      rw [Nat.pow_succ 2 (j + 1), ← Nat.mul_assoc, Nat.mul_right_comm]
      congr 2
      omega
    | false =>
      simp at h
      obtain ⟨rfl, rfl, rfl⟩ := h
      exact ⟨0, by simp, by omega, by simp; omega⟩

/-- Phase B on as many bits as it asks for (R162). -/
theorem readBinary_append (bits rest : List Bool) (acc : Nat) :
    readBinary acc bits.length (bits ++ rest) =
      some (bits.foldl (fun a b => a * 2 + b.toNat) acc, rest) := by
  induction bits generalizing acc with
  | nil => simp [readBinary]
  | cons b bits ih => simp [readBinary, ih]

/-- Phase B reads nothing else (R162). -/
theorem readBinary_inv {n : Nat} {bits rest : List Bool} {acc a : Nat}
    (h : readBinary acc n bits = some (a, rest)) :
    ∃ suffix, bits = suffix ++ rest ∧ suffix.length = n ∧
      a = suffix.foldl (fun a b => a * 2 + b.toNat) acc := by
  induction n generalizing acc bits with
  | zero =>
    simp [readBinary] at h
    exact ⟨[], by simp [h]⟩
  | succ n ih =>
    cases bits with
    | nil => simp [readBinary] at h
    | cons b bits =>
      obtain ⟨sf, rfl, rfl, rfl⟩ := ih (by simpa [readBinary] using h)
      exact ⟨b :: sf, by simp⟩

/-- A code that has been read is its ones, its zero and its suffix (R101). -/
theorem readCode_inv {bits rest : List Bool} {r : CodeRead} (h : readCode bits = some (r, rest)) :
    ∃ j suffix, suffix.length = j + 1 ∧ bits = List.replicate j true ++ false :: (suffix ++ rest) ∧
      r = ⟨2 ^ (j + 1) - 2, j + 1, bitsValue suffix⟩ := by
  unfold readCode at h
  split at h
  · cases h
  · rename_i a n bits' hu
    split at h
    · cases h
    · rename_i b bits'' hb
      simp only [Option.some.injEq, Prod.mk.injEq] at h
      obtain ⟨rfl, rfl⟩ := h
      obtain ⟨j, rfl, rfl, rfl⟩ := readUnary_inv hu
      obtain ⟨sf, rfl, hl, rfl⟩ := readBinary_inv hb
      exact ⟨j, sf, by omega, rfl, by simp [bitsValue]⟩

@[simp] theorem natBits_length (w v : Nat) : (natBits w v).length = w := by
  induction w with
  | zero => rfl
  | succ w ih => simp [natBits, ih]

theorem bitsValue_natBits (w v : Nat) : bitsValue (natBits w v) = v % 2 ^ w := by
  induction w with
  | zero => simp [natBits, bitsValue, Nat.mod_one]
  | succ w ih =>
    rw [natBits, bitsValue_cons, natBits_length, ih, Nat.mod_pow_succ, Nat.testBit_eq_decide_div_mod_eq]
    rcases Nat.mod_two_eq_zero_or_one (v / 2 ^ w) with h | h
    · simp [h]
    · simp [h]; omega

theorem natBits_bitsValue (bits : List Bool) : natBits bits.length (bitsValue bits) = bits := by
  have key : ∀ (bits : List Bool) (k : Nat),
      natBits bits.length (k * 2 ^ bits.length + bitsValue bits) = bits := by
    intro bits
    induction bits with
    | nil => intro k; rfl
    | cons b bits ih =>
      intro k
      have h3 : k * 2 ^ (b :: bits).length + bitsValue (b :: bits) =
          (2 * k + b.toNat) * 2 ^ bits.length + bitsValue bits := by
        rw [bitsValue_cons, List.length_cons, Nat.pow_succ, Nat.add_mul, Nat.mul_comm (2 ^ bits.length) 2,
          ← Nat.mul_assoc, Nat.mul_comm k 2]
        omega
      rw [h3, List.length_cons, natBits, ih]
      congr 1
      rw [Nat.testBit_eq_decide_div_mod_eq, Nat.mul_comm, Nat.mul_add_div (Nat.two_pow_pos _),
        Nat.div_eq_of_lt (bitsValue_lt bits)]
      cases b <;> simp
  simpa using key bits 0

/-- CNT of a code (R102). -/
theorem codeCnt_spec (c : Nat) : 1 ≤ codeCnt c ∧ 2 ^ codeCnt c ≤ c + 2 ∧ c + 2 < 2 ^ (codeCnt c + 1) :=
  ⟨(Nat.le_log2 (by omega)).2 (by omega), Nat.log2_self_le (by omega), Nat.lt_log2_self⟩

/-- What getCode reads from an encoded code (R102). -/
theorem readCode_encodeCode (c : Nat) (rest : List Bool) :
    readCode (encodeCode c ++ rest) =
      some (⟨2 ^ codeCnt c - 2, codeCnt c, c + 2 - 2 ^ codeCnt c⟩, rest) := by
  obtain ⟨h1, h2, h3⟩ := codeCnt_spec c
  have hb : c + 2 - 2 ^ codeCnt c < 2 ^ codeCnt c := by rw [Nat.pow_succ] at h3; omega
  have hB := readBinary_append (natBits (codeCnt c) (c + 2 - 2 ^ codeCnt c)) rest 0
  rw [natBits_length, bitsValue_foldl, bitsValue_natBits, Nat.mod_eq_of_lt hb] at hB
  unfold encodeCode readCode
  rw [List.append_assoc, List.cons_append, readUnary_ones, show 0 + (codeCnt c - 1) + 1 = codeCnt c by omega,
    show codeCnt c - 1 + 1 = codeCnt c by omega]
  simp [hB]

theorem encodeCode_length (c : Nat) : (encodeCode c).length = 2 * codeCnt c := by
  have := (codeCnt_spec c).1
  simp [encodeCode]
  omega

/-- The encoded code is the only bit string that getCode reads as it (R102). -/
theorem encodeCode_of_readCode {bits rest : List Bool} {r : CodeRead} (h : readCode bits = some (r, rest)) :
    bits = encodeCode r.value ++ rest ∧ r.cnt = codeCnt r.value := by
  obtain ⟨j, sf, hl, rfl, rfl⟩ := readCode_inv h
  have hlt := bitsValue_lt sf
  rw [hl] at hlt
  have h4 : 2 ^ 1 ≤ 2 ^ (j + 1) := Nat.pow_le_pow_right (by omega) (by omega)
  have hp : 2 ^ (j + 1 + 1) = 2 * 2 ^ (j + 1) := by rw [Nat.pow_succ, Nat.mul_comm]
  simp only [CodeRead.value]
  have hc : codeCnt (2 ^ (j + 1) - 2 + bitsValue sf) = j + 1 := by
    unfold codeCnt
    rw [show 2 ^ (j + 1) - 2 + bitsValue sf + 2 = 2 ^ (j + 1) + bitsValue sf by omega]
    exact (Nat.log2_eq_iff (by omega)).2 ⟨by omega, by omega⟩
  have hb := natBits_bitsValue sf
  rw [hl] at hb
  refine ⟨?_, hc.symm⟩
  unfold encodeCode
  rw [hc, show 2 ^ (j + 1) - 2 + bitsValue sf + 2 - 2 ^ (j + 1) = bitsValue sf by omega, hb]
  simp

end Sys2Proof
end

