-- ==== Sys2Proof/Laws/Decoding.lean ====
section
/-! SUPPORT. What the decoders read: the fields of a byte, the operand bytes of a command, the symbols of a bit
string and the records of the FAT. -/

namespace Sys2Proof

open Sys2Proof.Machine

/-! ### Fields -/

theorem lowNibble_nibbles (h n : BitVec 4) : lowNibble (nibbles h n) = n := by revert h n; decide

theorem nibbles_toNat (h n : BitVec 4) : (nibbles h n).toNat = 16 * h.toNat + n.toNat := by revert h n; decide

theorem selField_nibblePairs (h : BitVec 4) (s k : BitVec 2) : selField (nibblePairs h s k) = s := by
  revert h s k; decide

theorem lowPair_nibblePairs (h : BitVec 4) (s k : BitVec 2) : lowPair (nibblePairs h s k) = k := by
  revert h s k; decide

theorem nibblePairs_toNat (h : BitVec 4) (s k : BitVec 2) :
    (nibblePairs h s k).toNat = 16 * h.toNat + 4 * s.toNat + k.toNat := by revert h s k; decide

theorem nibbles_lowNibble (b : Byte) (h : BitVec 4) (hb : b.toNat / 16 = h.toNat) :
    nibbles h (lowNibble b) = b := by revert b h; decide

theorem nibblePairs_fields (b : Byte) (h : BitVec 4) (hb : b.toNat / 16 = h.toNat) :
    nibblePairs h (selField b) (lowPair b) = b := by revert b h; decide

/-- A FAT field is big-endian (R75). -/
theorem be32_toNat (a b c d : Byte) :
    (be32 a b c d).toNat = a.toNat * 2 ^ 24 + b.toNat * 2 ^ 16 + c.toNat * 2 ^ 8 + d.toNat := by
  have := a.isLt
  have := b.isLt
  have := c.isLt
  have := d.isLt
  unfold be32
  simp only [BitVec.toNat_append]
  rw [← Nat.shiftLeft_add_eq_or_of_lt (by omega : b.toNat < 2 ^ 8),
    ← Nat.shiftLeft_add_eq_or_of_lt (by omega : d.toNat < 2 ^ 8),
    ← Nat.shiftLeft_add_eq_or_of_lt (by simp only [Nat.shiftLeft_eq]; omega)]
  simp only [Nat.shiftLeft_eq]
  omega

theorem be32_bytesBE (v : Word32) :
    be32 (v.extractLsb' 24 8) (v.extractLsb' 16 8) (v.extractLsb' 8 8) (v.extractLsb' 0 8) = v := by
  apply BitVec.eq_of_toNat_eq
  rw [be32_toNat]
  have := v.isLt
  simp only [BitVec.extractLsb'_toNat, Nat.shiftRight_eq_div_pow]
  omega

/-! ### Commands -/

/-- A command of the opcode stream with its operand bytes there decodes; one with a fixed operand missing does not
(R121, R211). -/
theorem streamInstr_eq_none (cmd : Byte) (rest : List Byte) :
    streamInstr cmd rest = none ↔ rest.length < operandCount cmd := by
  unfold streamInstr decodeCommand operandCount
  dsimp only
  by_cases c0 : cmd.toNat < 0x20
  · simp [if_pos c0]
  simp only [if_neg c0]
  have h1 : ∀ f : Byte → Instr,
      ((match withByte rest f with | .ok (i, _) => some i | .error _ => none) : Option Instr) = none ↔
        rest.length < 1 := by
    intro f
    cases rest <;> simp [withByte]
  have h2 : ∀ f : Byte → Byte → Instr,
      ((match withTwoBytes rest f with | .ok (i, _) => some i | .error _ => none) : Option Instr) = none ↔
        rest.length < 2 := by
    intro f
    match rest with
    | [] => simp [withTwoBytes]
    | [_] => simp [withTwoBytes]
    | _ :: _ :: _ => simp [withTwoBytes]
  have hc : ∀ (h : ¬(0x70 ≤ cmd.toNat ∧ cmd.toNat < 0x80)), cutLiteral cmd rest = none := by
    intro h
    unfold cutLiteral
    rw [if_neg]
    omega
  by_cases c1 : cmd.toNat < 0x30
  · simp only [if_pos c1, if_pos (show cmd.toNat < 0x5C by omega), hc (by omega)]; exact h1 _
  simp only [if_neg c1]
  by_cases c2 : cmd.toNat < 0x40
  · simp only [if_pos c2, if_pos (show cmd.toNat < 0x5C by omega), hc (by omega)]; exact h1 _
  simp only [if_neg c2]
  by_cases c3 : cmd.toNat < 0x50
  · simp only [if_pos c3, if_pos (show cmd.toNat < 0x5C by omega), hc (by omega)]; exact h1 _
  simp only [if_neg c3]
  by_cases c4 : cmd.toNat < 0x5C
  · simp only [if_pos c4, hc (by omega)]; exact h1 _
  simp only [if_neg c4]
  by_cases c5 : cmd.toNat < 0x60
  · simp only [if_pos c5, if_pos (show cmd.toNat < 0x70 by omega), hc (by omega)]; exact h2 _
  simp only [if_neg c5]
  by_cases c6 : cmd.toNat < 0x70
  · simp only [if_pos c6, hc (by omega)]; exact h2 _
  simp only [if_neg c6]
  by_cases c7 : cmd.toNat < 0x80
  · simp only [if_pos c7, Nat.not_lt_zero, iff_false]
    by_cases hl : rest.length < (lowNibble cmd).toNat + 1
    · simp only [if_pos hl, cutLiteral]
      rw [if_pos ⟨by omega, c7, hl⟩]
      simp
    · simp only [if_neg hl]
      simp
  simp only [if_neg c7]
  by_cases c8 : cmd.toNat < 0x90
  · simp only [if_pos c8, if_pos (show cmd.toNat < 0x9C by omega), hc (by omega)]; exact h1 _
  simp only [if_neg c8]
  by_cases c9 : cmd.toNat < 0x9C
  · simp only [if_pos c9, hc (by omega)]; exact h1 _
  simp only [if_neg c9]
  by_cases c10 : cmd.toNat < 0xA0
  · simp only [if_pos c10, hc (by omega)]; exact h2 _
  simp only [if_neg c10, hc (by omega)]
  exact h1 _

theorem withByte_ok {rest left : List Byte} {f : Byte → Instr} {i : Instr} (h : withByte rest f = .ok (i, left)) :
    ∃ b, rest = b :: left ∧ i = f b := by
  cases rest with
  | nil => simp [withByte] at h
  | cons b rest =>
    simp only [withByte, Except.ok.injEq, Prod.mk.injEq] at h
    exact ⟨b, by rw [h.2], h.1.symm⟩

theorem withTwoBytes_ok {rest left : List Byte} {f : Byte → Byte → Instr} {i : Instr}
    (h : withTwoBytes rest f = .ok (i, left)) : ∃ b c, rest = b :: c :: left ∧ i = f b c := by
  match rest with
  | [] => simp [withTwoBytes] at h
  | [_] => simp [withTwoBytes] at h
  | b :: c :: rest =>
    simp only [withTwoBytes, Except.ok.injEq, Prod.mk.injEq] at h
    exact ⟨b, c, by rw [h.2], h.1.symm⟩

/-- Every decoded command is a well-formed command of the opcode stream. -/
theorem decodeCommand_ok {cmd : Byte} {rest left : List Byte} {i : Instr}
    (h : decodeCommand cmd rest = .ok (i, left)) : i.space = .command ∧ i.wellFormed = true := by
  have es : ∀ c : Byte, (0x50 ≤ c.toNat ∧ c.toNat < 0x5C) ∨ (0x90 ≤ c.toNat ∧ c.toNat < 0x9C) →
      (selField c != 3) = true := by decide
  have el : ∀ c : Byte, ¬c.toNat < 0xA0 →
      (decide (2 ≤ (fillCount c).toNat) && decide ((fillCount c).toNat ≤ 97)) = true := by decide
  have ep : ∀ (s k : BitVec 2) (c : Byte),
      (planeReadOf s k c).space = .command ∧ (planeReadOf s k c).wellFormed = true := by
    intro s k c
    unfold planeReadOf
    repeat' split
    all_goals exact ⟨rfl, rfl⟩
  unfold decodeCommand at h
  dsimp only at h
  split at h
  · simp only [Except.ok.injEq, Prod.mk.injEq] at h
    obtain ⟨rfl, rfl⟩ := h
    exact ⟨rfl, rfl⟩
  split at h
  · obtain ⟨b, rfl, rfl⟩ := withByte_ok h
    exact ⟨rfl, rfl⟩
  split at h
  · obtain ⟨b, rfl, rfl⟩ := withByte_ok h
    exact ep _ _ _
  split at h
  · obtain ⟨b, rfl, rfl⟩ := withByte_ok h
    exact ⟨rfl, rfl⟩
  split at h
  · obtain ⟨b, rfl, rfl⟩ := withByte_ok h
    exact ⟨rfl, es cmd (by omega)⟩
  split at h
  · obtain ⟨b, c, rfl, rfl⟩ := withTwoBytes_ok h
    exact ⟨rfl, rfl⟩
  split at h
  · obtain ⟨b, c, rfl, rfl⟩ := withTwoBytes_ok h
    exact ⟨rfl, rfl⟩
  split at h
  · split at h
    · cases h
    · rename_i hl
      simp only [Except.ok.injEq, Prod.mk.injEq] at h
      obtain ⟨rfl, rfl⟩ := h
      refine ⟨rfl, ?_⟩
      simp only [Instr.wellFormed, List.length_take, beq_iff_eq]
      omega
  split at h
  · obtain ⟨b, rfl, rfl⟩ := withByte_ok h
    exact ⟨rfl, rfl⟩
  split at h
  · obtain ⟨b, rfl, rfl⟩ := withByte_ok h
    exact ⟨rfl, es cmd (by omega)⟩
  split at h
  · obtain ⟨b, c, rfl, rfl⟩ := withTwoBytes_ok h
    exact ⟨rfl, rfl⟩
  · obtain ⟨b, rfl, rfl⟩ := withByte_ok h
    exact ⟨rfl, el cmd ‹_›⟩

/-- Its fixed operands were there. -/
theorem operandCount_le {cmd : Byte} {rest : List Byte} {i : Instr} (h : streamInstr cmd rest = some i) :
    operandCount cmd ≤ rest.length := by
  refine Nat.le_of_not_lt fun hc => ?_
  rw [(streamInstr_eq_none cmd rest).2 hc] at h
  cases h

/-- What the dispatch loop executes is a command of the opcode stream: a decoded one, or a literal run that the
end of the stream cuts off, which then holds all the bytes that are left (R211). -/
theorem streamInstr_some {cmd : Byte} {rest : List Byte} {i : Instr} (h : streamInstr cmd rest = some i) :
    (∃ left, decodeCommand cmd rest = .ok (i, left)) ∨
      (i = .lit (lowNibble cmd) rest ∧ rest.length < (lowNibble cmd).toNat + 1 ∧ operandCount cmd = 0) := by
  unfold streamInstr at h
  split at h
  · rename_i j left hd
    cases h
    exact .inl ⟨left, hd⟩
  · unfold cutLiteral at h
    split at h
    · rename_i hc
      cases h
      refine .inr ⟨rfl, hc.2.2, ?_⟩
      unfold operandCount
      repeat' split
      all_goals omega
    · cases h

/-! ### Symbols -/

/-- A literal's symbol is read as it (R103, R164). -/
theorem readSymbol_litc (c : Byte) (rest : List Bool) :
    ∃ r, readSymbol (encodeCode c.toNat ++ rest) = some ⟨r, none, rest⟩ ∧ r.value = c.toNat ∧
      r.cnt = codeCnt c.toNat := by
  have hs := codeCnt_spec c.toNat
  have h4 : 2 ^ 1 ≤ 2 ^ codeCnt c.toNat := Nat.pow_le_pow_right (by omega) hs.1
  have hv : 2 ^ codeCnt c.toNat - 2 + (c.toNat + 2 - 2 ^ codeCnt c.toNat) = c.toNat := by omega
  have := c.isLt
  refine ⟨⟨2 ^ codeCnt c.toNat - 2, codeCnt c.toNat, c.toNat + 2 - 2 ^ codeCnt c.toNat⟩, ?_, hv, rfl⟩
  simp [readSymbol, readCode_encodeCode, CodeRead.value, hv, this]

/-- A match's symbol is read as it, both codes (R104, R164). -/
theorem readSymbol_matchSym (c l : Nat) (rest : List Bool) (hc : 256 ≤ c) :
    ∃ r r', readSymbol (encodeCode c ++ (encodeCode l ++ rest)) = some ⟨r, some r', rest⟩ ∧
      r.value = c ∧ r.cnt = codeCnt c ∧ r'.value = l ∧ r'.cnt = codeCnt l := by
  have hs := codeCnt_spec c
  have hs' := codeCnt_spec l
  have h4 : 2 ^ 1 ≤ 2 ^ codeCnt c := Nat.pow_le_pow_right (by omega) hs.1
  have h4' : 2 ^ 1 ≤ 2 ^ codeCnt l := Nat.pow_le_pow_right (by omega) hs'.1
  have hv : 2 ^ codeCnt c - 2 + (c + 2 - 2 ^ codeCnt c) = c := by omega
  have hv' : 2 ^ codeCnt l - 2 + (l + 2 - 2 ^ codeCnt l) = l := by omega
  have hn : ¬c < 256 := by omega
  refine ⟨⟨2 ^ codeCnt c - 2, codeCnt c, c + 2 - 2 ^ codeCnt c⟩,
    ⟨2 ^ codeCnt l - 2, codeCnt l, l + 2 - 2 ^ codeCnt l⟩, ?_, hv, rfl, hv', rfl⟩
  simp only [readSymbol, readCode_encodeCode, CodeRead.value, hv, Config.lsLitLimit, if_neg hn]

/-- A symbol that has been read stood at the front of the bits, `symbolBits` of them (R160, R164). -/
theorem readSymbol_inv {bits : List Bool} {r : SymbolRead} (h : readSymbol bits = some r) :
    ∃ used, bits = used ++ r.rest ∧ used.length = symbolBits r ∧ 2 ≤ symbolBits r ∧
      ((∃ c, r.instr = .litc c) ∨ ∃ d l, r.instr = .matchSym d l) := by
  unfold readSymbol at h
  split at h
  · cases h
  · rename_i c bits' hc
    obtain ⟨hb, hn⟩ := encodeCode_of_readCode hc
    have h1 := (codeCnt_spec c.value).1
    split at h
    · cases h
      refine ⟨_, hb, by simp [encodeCode_length, symbolBits, codeBits, hn], ?_, .inl ⟨_, rfl⟩⟩
      simp only [symbolBits, codeBits]
      omega
    · split at h
      · cases h
      · rename_i l bits'' hl
        obtain ⟨hb', hn'⟩ := encodeCode_of_readCode hl
        cases h
        refine ⟨encodeCode c.value ++ encodeCode l.value, by rw [hb, hb', List.append_assoc], ?_, ?_,
          .inr ⟨_, _, rfl⟩⟩
        · simp [encodeCode_length, symbolBits, codeBits, hn, hn']
        · simp only [symbolBits, codeBits]
          omega

/-! ### FAT records -/

/-- A record that is not the sentinel takes twelve bytes (R142). -/
theorem readFatRecord_ok {bytes rest : List Byte} {clen ulen off : Word32}
    (h : readFatRecord bytes = .ok ((clen, ulen, off), rest)) (hc : clen ≠ 0) :
    bytes.length = 12 + rest.length := by
  match bytes with
  | [] | [_] | [_, _] | [_, _, _] => simp [readFatRecord] at h
  | c0 :: c1 :: c2 :: c3 :: tail =>
    simp only [readFatRecord] at h
    split at h
    · simp only [Except.ok.injEq, Prod.mk.injEq] at h
      exact absurd h.1.1.symm hc
    · split at h
      · simp only [Except.ok.injEq, Prod.mk.injEq] at h
        simp [h.2]
        omega
      · cases h

end Sys2Proof
end

