-- ==== Sys2Proof/Laws/Step.lean ====
section
/-! SUPPORT. What a step of each engine can do, without any premise on the state: it acts on its own engine alone
(R30), as a function of that engine's state alone, and it leaves the caller's inputs as they are (R33, R41). -/

namespace Sys2Proof.Machine

theorem step_eq_fetchTf {s : State} (h : s.engine = .tfdce) :
    step s = match fetchTf s with | .run i s' => exec i s' | .settle s' => .next s' := by
  have hf : fetch s = fetchTf s := by simp only [fetch, h]
  rw [← hf]
  rfl

theorem step_eq_fetchLs {s : State} (h : s.engine = .ls11) :
    step s = match fetchLs s with | .run i s' => exec i s' | .settle s' => .next s' := by
  have hf : fetch s = fetchLs s := by simp only [fetch, h]
  rw [← hf]
  rfl

/-! ### TF-DCE -/

/-- What every command keeps, and that SP never goes back. -/
structure TfDce.Follows (t u : TfDce) : Prop where
  input : u.input = t.input
  phase : u.phase = t.phase
  selb : u.selb = t.selb
  n : u.n = t.n
  po : u.po = t.po
  sp : t.sp ≤ u.sp
  resultOut : u.result.out = t.result.out

theorem TfDce.Follows.refl (t : TfDce) : t.Follows t := ⟨rfl, rfl, rfl, rfl, rfl, Nat.le_refl _, rfl⟩

theorem TfDce.Follows.trans {t u w : TfDce} (h : t.Follows u) (h' : u.Follows w) : t.Follows w :=
  ⟨h'.input.trans h.input, h'.phase.trans h.phase, h'.selb.trans h.selb, h'.n.trans h.n, h'.po.trans h.po,
    Nat.le_trans h.sp h'.sp, h'.resultOut.trans h.resultOut⟩

theorem TfDce.follows_emit (v : Byte) (t : TfDce) : t.Follows (t.emit v) := by
  unfold TfDce.emit
  split <;> exact ⟨rfl, rfl, rfl, rfl, rfl, Nat.le_refl _, rfl⟩

theorem TfDce.follows_andThen {f : TfDce → TfDce} (hf : ∀ u : TfDce, u.Follows (f u)) (t : TfDce) :
    t.Follows (t.andThen f) := by
  unfold TfDce.andThen
  split
  · exact hf t
  · exact TfDce.Follows.refl t

theorem TfDce.follows_loop {body : TfDce → TfDce} (hb : ∀ u : TfDce, u.Follows (body u)) (n : Nat) (t : TfDce) :
    t.Follows (TfDce.loop body n t) := by
  induction n generalizing t with
  | zero => exact TfDce.Follows.refl t
  | succ n ih =>
    rw [TfDce.loop]
    split
    · exact (hb t).trans (ih _)
    · exact TfDce.Follows.refl t

theorem TfDce.follows_outRead (d : Nat) (t : TfDce) : t.Follows (t.outRead d).2 := by
  unfold TfDce.outRead
  split <;> exact ⟨rfl, rfl, rfl, rfl, rfl, Nat.le_refl _, rfl⟩

theorem TfDce.follows_destRead (d : Nat) (t : TfDce) : t.Follows (t.destRead d).2 := by
  unfold TfDce.destRead
  split <;> exact ⟨rfl, rfl, rfl, rfl, rfl, Nat.le_refl _, rfl⟩

theorem TfDce.follows_regs (r : TfRegs) (t : TfDce) : t.Follows { t with regs := r } :=
  ⟨rfl, rfl, rfl, rfl, rfl, Nat.le_refl _, rfl⟩

theorem TfDce.follows_pc (p : PatternCache) (t : TfDce) : t.Follows { t with pc := p } :=
  ⟨rfl, rfl, rfl, rfl, rfl, Nat.le_refl _, rfl⟩

theorem TfDce.follows_linCopy (c d : Nat) (t : TfDce) : t.Follows (t.linCopy c d) :=
  (t.follows_regs _).trans
    (TfDce.follows_loop (fun u => (u.follows_outRead u.regs.d).trans (TfDce.follows_emit _ _)) c _)

theorem TfDce.follows_planeXform (s x : BitVec 2) (c : Nat) (t : TfDce) : t.Follows (t.planeXform s x c) := by
  refine (t.follows_regs _).trans (TfDce.follows_loop (fun u => ?_) c _)
  refine TfDce.Follows.trans (u := (u.planeSource s).2) ?_ (TfDce.follows_emit _ _)
  unfold TfDce.planeSource
  split
  · exact u.follows_outRead 1
  · exact TfDce.Follows.refl u

theorem TfDce.follows_planeCopy (c d : Nat) (t : TfDce) : t.Follows (t.planeCopy c d) :=
  (t.follows_regs _).trans
    (TfDce.follows_loop (fun u => (u.follows_destRead u.regs.d).trans (TfDce.follows_emit _ _)) c _)

theorem TfDce.follows_maskRead (s : BitVec 2) (m : Byte) (c : Nat) (t : TfDce) : t.Follows (t.maskRead s m c) :=
  (t.follows_regs _).trans (TfDce.follows_loop (fun _ => TfDce.follows_emit _ _) c _)

theorem TfDce.follows_rotMaskRead (s : BitVec 2) (m : Byte) (c : Nat) (t : TfDce) :
    t.Follows (t.rotMaskRead s m c) :=
  (t.follows_regs _).trans
    (TfDce.follows_loop
      (fun u => (TfDce.follows_emit _ u).trans (TfDce.follows_andThen (fun w => w.follows_regs _) _)) c _)

theorem TfDce.follows_pairRun (b0 b1 : Byte) (c : Nat) (t : TfDce) : t.Follows (t.pairRun b0 b1 c) :=
  (t.follows_regs _).trans
    (TfDce.follows_loop
      (fun u => (TfDce.follows_emit _ u).trans (TfDce.follows_andThen (TfDce.follows_emit b1) _)) c _)

theorem TfDce.follows_fill (v : Byte) (c : Nat) (t : TfDce) : t.Follows (t.fill v c) :=
  (t.follows_regs _).trans (TfDce.follows_loop (TfDce.follows_emit v) c _)

theorem TfDce.follows_litRun (bs : List Byte) (t : TfDce) : t.Follows (t.litRun bs) := by
  induction bs generalizing t with
  | nil => exact TfDce.Follows.refl t
  | cons b bs ih =>
    rw [TfDce.litRun]
    split
    · exact TfDce.Follows.trans (u := { t with sp := t.sp + 1 }) ⟨rfl, rfl, rfl, rfl, rfl, Nat.le_succ _, rfl⟩
        ((TfDce.follows_emit b { t with sp := t.sp + 1 }).trans (ih _))
    · exact TfDce.Follows.refl t

theorem append_toNat (a b : Byte) : (a ++ b : Word16).toNat = a.toNat * 256 + b.toNat := by
  rw [BitVec.toNat_append, ← Nat.shiftLeft_add_eq_or_of_lt b.isLt, Nat.shiftLeft_eq]

theorem wordLow_htRead (i : BitVec 5) (t : TfDce) : wordLow (t.htRead i).regs.w = t.tableByte (2 * i.toNat) := by
  apply BitVec.eq_of_toNat_eq
  have := (t.tableByte (2 * i.toNat)).isLt
  simp only [wordLow, TfDce.htRead, BitVec.extractLsb'_toNat, append_toNat, Nat.shiftRight_zero]
  omega

theorem wordHigh_htRead (i : BitVec 5) (t : TfDce) :
    wordHigh (t.htRead i).regs.w = t.tableByte (2 * i.toNat + 1) := by
  apply BitVec.eq_of_toNat_eq
  have := (t.tableByte (2 * i.toNat)).isLt
  have := (t.tableByte (2 * i.toNat + 1)).isLt
  simp only [wordHigh, TfDce.htRead, BitVec.extractLsb'_toNat, append_toNat, Nat.shiftRight_eq_div_pow]
  omega

/-- A word's operation is what the instruction that the word decodes to does (R303). -/
theorem execTableWord_eq (wlo whi : Byte) (s : State) :
    execTableWord wlo whi s = exec (decodeTableEntry wlo whi) s := by
  unfold execTableWord decodeTableEntry
  cases tableOp wlo <;> rfl

theorem decodeTableEntry_space (wlo whi : Byte) : (decodeTableEntry wlo whi).space = .tableWord := by
  unfold decodeTableEntry
  cases tableOp wlo <;> rfl

/-- A header-table word acts on the TF-DCE engine alone. -/
theorem exec_tableWord (i : Instr) (hi : i.space = .tableWord) :
    ∃ f : TfDce → TfDce, (∀ s : State, exec i s = .next { s with tf := f s.tf }) ∧ ∀ t : TfDce, t.Follows (f t) := by
  cases i <;> simp only [Instr.space, reduceCtorEq] at hi
  case mLbr n whi => exact ⟨_, fun _ => rfl, TfDce.follows_linCopy _ _⟩
  case mPrd s t whi => exact ⟨_, fun _ => rfl, TfDce.follows_planeXform _ _ _⟩
  case mPbr n whi => exact ⟨_, fun _ => rfl, TfDce.follows_planeCopy _ _⟩
  case mMrd s k whi =>
    refine ⟨fun t => (t.ageSlot k).maskRead s (t.pc.get k) (byteCount whi), fun _ => rfl, fun t => ?_⟩
    exact (t.follows_pc _).trans (TfDce.follows_maskRead _ _ _ _)
  case mLit x whi => exact ⟨_, fun _ => rfl, TfDce.follows_andThen (TfDce.follows_emit _)⟩
  case mNib n whi => exact ⟨_, fun _ => rfl, TfDce.follows_pairRun _ _ _⟩
  case mRmr s k whi =>
    refine ⟨fun t => (t.ageSlot k).rotMaskRead s (t.pc.get k) (byteCount whi), fun _ => rfl, fun t => ?_⟩
    exact (t.follows_pc _).trans (TfDce.follows_rotMaskRead _ _ _ _)
  case mRle r whi => exact ⟨_, fun _ => rfl, TfDce.follows_fill _ _⟩
  case mRefused wlo whi =>
    exact ⟨_, fun _ => rfl, fun t => ⟨rfl, rfl, rfl, rfl, rfl, Nat.le_refl _, rfl⟩⟩

/-- A command acts on the TF-DCE engine alone. -/
theorem exec_command (i : Instr) (hi : i.space = .command) :
    ∃ f : TfDce → TfDce, (∀ s : State, exec i s = .next { s with tf := f s.tf }) ∧ ∀ t : TfDce, t.Follows (f t) := by
  cases i <;> simp only [Instr.space, reduceCtorEq] at hi
  case mac i =>
    refine ⟨fun t => Classical.choose
      (exec_tableWord (decodeTableEntry (wordLow (t.htRead i).regs.w) (wordHigh (t.htRead i).regs.w))
        (decodeTableEntry_space _ _)) (t.htRead i), fun s => ?_, fun t => ?_⟩
    · rw [show exec (.mac i) s = execMac i s from rfl, execMac, execTableWord_eq]
      exact (Classical.choose_spec (exec_tableWord _ (decodeTableEntry_space _ _))).1 _
    · exact TfDce.Follows.trans (u := t.htRead i) ⟨rfl, rfl, rfl, rfl, rfl, Nat.le_refl _, rfl⟩
        ((Classical.choose_spec (exec_tableWord _ (decodeTableEntry_space _ _))).2 _)
  case lbr n d => exact ⟨_, fun _ => rfl, TfDce.follows_linCopy _ _⟩
  case prd s c => exact ⟨_, fun _ => rfl, TfDce.follows_planeXform _ _ _⟩
  case prdn s c => exact ⟨_, fun _ => rfl, TfDce.follows_planeXform _ _ _⟩
  case prdl s c => exact ⟨_, fun _ => rfl, TfDce.follows_planeXform _ _ _⟩
  case prdr s c => exact ⟨_, fun _ => rfl, TfDce.follows_planeXform _ _ _⟩
  case pbr n c => exact ⟨_, fun _ => rfl, TfDce.follows_planeCopy _ _⟩
  case mrd s k c =>
    refine ⟨fun t => (t.ageSlot k).maskRead s (t.pc.get k) (byteCount c), fun _ => rfl, fun t => ?_⟩
    exact (t.follows_pc _).trans (TfDce.follows_maskRead _ _ _ _)
  case mrdi s m c =>
    refine ⟨fun t => (t.promoteMask m).maskRead s m (byteCount c), fun _ => rfl, fun t => ?_⟩
    exact (t.follows_pc _).trans (TfDce.follows_maskRead _ _ _ _)
  case pair n v1 v2 => exact ⟨_, fun _ => rfl, TfDce.follows_pairRun _ _ _⟩
  case lit n bs =>
    refine ⟨_, fun _ => rfl, fun t => (TfDce.follows_litRun _ t).trans (TfDce.follows_andThen (fun u => ?_) _)⟩
    split
    · exact ⟨rfl, rfl, rfl, rfl, rfl, Nat.le_refl _, rfl⟩
    · exact TfDce.Follows.refl u
  case nib n v => exact ⟨_, fun _ => rfl, TfDce.follows_pairRun _ _ _⟩
  case rmr s k c =>
    refine ⟨fun t => (t.ageSlot k).rotMaskRead s (t.pc.get k) (byteCount c), fun _ => rfl, fun t => ?_⟩
    exact (t.follows_pc _).trans (TfDce.follows_rotMaskRead _ _ _ _)
  case rmri s m c =>
    refine ⟨fun t => (t.promoteMask m).rotMaskRead s m (byteCount c), fun _ => rfl, fun t => ?_⟩
    exact (t.follows_pc _).trans (TfDce.follows_rotMaskRead _ _ _ _)
  case rle r v => exact ⟨_, fun _ => rfl, TfDce.follows_fill _ _⟩

theorem streamInstr_space {cmd : Byte} {rest : List Byte} {i : Instr} (h : streamInstr cmd rest = some i) :
    i.space = .command := by
  rcases streamInstr_some h with ⟨_, hd⟩ | ⟨rfl, -, -⟩
  · exact (decodeCommand_ok hd).1
  · rfl

theorem Buffer.bytesFrom_eq_nil {b : Buffer} {a n : Nat} (h : b.bytesFrom a (n + 1) = []) : b.len ≤ a := by
  rw [Buffer.bytesFrom] at h
  split at h
  · cases h
  · omega

theorem Buffer.bytesFrom_eq_cons {b : Buffer} {a n : Nat} {c : Byte} {rest : List Byte}
    (h : b.bytesFrom a n = c :: rest) : a < b.len ∧ c = b.read a ∧ ∃ m, n = m + 1 ∧ rest = b.bytesFrom (a + 1) m := by
  cases n with
  | zero => cases h
  | succ m =>
    rw [Buffer.bytesFrom] at h
    split at h
    · cases h
      exact ⟨‹_›, rfl, m, rfl, rfl⟩
    · cases h

/-- A step of the TF-DCE engine, as a function of that engine's state alone. -/
theorem step_tfdce :
    ∃ f : TfDce → TfDce, (∀ s : State, s.engine = .tfdce → step s = .next { s with tf := f s.tf }) ∧
      (∀ t, (f t).input = t.input ∧ (f t).phase = .run) ∧
      ∀ t, t.phase = .run → t.sp ≤ (f t).sp ∧
        ((f t).status = .running → t.sp < t.input.len ∧ t.sp < (f t).sp) := by
  have key : ∀ t : TfDce, ∃ u : TfDce,
      (∀ s : State, s.engine = .tfdce → s.tf = t → step s = .next { s with tf := u }) ∧
        (u.input = t.input ∧ u.phase = .run) ∧
        (t.phase = .run → t.sp ≤ u.sp ∧ (u.status = .running → t.sp < t.input.len ∧ t.sp < u.sp)) := by
    intro t
    cases hph : t.phase with
    | start =>
      refine ⟨TfDce.initialise t.input, fun s h ht => ?_, ⟨rfl, rfl⟩, fun h => by cases h⟩
      subst ht
      rw [step_eq_fetchTf h]
      simp only [fetchTf, hph]
    | run =>
      by_cases hst : t.status ≠ .running
      · refine ⟨t.writeResult, fun s h ht => ?_, ⟨rfl, hph⟩, fun _ => ⟨Nat.le_refl _, fun h => absurd h hst⟩⟩
        subst ht
        rw [step_eq_fetchTf h]
        simp only [fetchTf, hph, if_pos hst]
      · by_cases hp : Config.tfOutLen ≤ t.p
        · refine ⟨t.stop .done, fun s h ht => ?_, ⟨rfl, hph⟩, fun _ => ⟨Nat.le_refl _, fun h => by cases h⟩⟩
          subst ht
          rw [step_eq_fetchTf h]
          simp only [fetchTf, hph, if_neg hst, if_pos hp]
        · cases hb : t.streamBytes with
          | nil =>
            refine ⟨t.stop .trunc, fun s h ht => ?_, ⟨rfl, hph⟩, fun _ => ⟨Nat.le_refl _, fun h => by cases h⟩⟩
            subst ht
            rw [step_eq_fetchTf h]
            simp only [fetchTf, hph, if_neg hst, if_neg hp, hb]
          | cons cmd rest =>
            have hlt := (Buffer.bytesFrom_eq_cons hb).1
            cases hi : streamInstr cmd rest with
            | none =>
              refine ⟨(t.readCommand cmd rest).haltTrunc, fun s h ht => ?_, ⟨rfl, hph⟩, fun _ =>
                ⟨by simp [TfDce.readCommand]; omega, fun h => by cases h⟩⟩
              subst ht
              rw [step_eq_fetchTf h]
              simp only [fetchTf, hph, if_neg hst, if_neg hp, hb, hi]
            | some i =>
              obtain ⟨f, hf, hk⟩ := exec_command i (streamInstr_space hi)
              have hk' := hk (t.readCommand cmd rest)
              have hsp := hk'.sp
              have hrd : (t.readCommand cmd rest).sp = t.sp + 1 + min (operandCount cmd) rest.length := rfl
              refine ⟨f (t.readCommand cmd rest), fun s h ht => ?_, ⟨hk'.input, hk'.phase.trans hph⟩, fun _ =>
                ⟨by omega, fun _ => ⟨hlt, by omega⟩⟩⟩
              subst ht
              rw [step_eq_fetchTf h]
              simp only [fetchTf, hph, if_neg hst, if_neg hp, hb, hi, hf]
  exact ⟨fun t => Classical.choose (key t), fun s h => (Classical.choose_spec (key s.tf)).1 s h rfl,
    fun t => (Classical.choose_spec (key t)).2.1, fun t => (Classical.choose_spec (key t)).2.2⟩

/-! ### LS11 -/

/-- The outcome of an effect on the LS11 engine. -/
def lsOutcome (s : State) : Option Ls11 → Result
  | some l => .next { s with ls := l }
  | none => .fault .inputRange

theorem Ls11.inputs_copyLoop (n : Nat) (l : Ls11) :
    (Ls11.copyLoop n l).input = l.input ∧ (Ls11.copyLoop n l).mode = l.mode := by
  induction n generalizing l with
  | zero => exact ⟨rfl, rfl⟩
  | succ n ih =>
    rw [Ls11.copyLoop]
    split
    · obtain ⟨h1, h2⟩ := ih l.copyByte
      rw [h1, h2]
      unfold Ls11.copyByte Ls11.putByte
      split <;> exact ⟨rfl, rfl⟩
    · exact ⟨rfl, rfl⟩

/-- A symbol or a record acts on the LS11 engine alone; it stops only where a record's slice is not inside the
archive. -/
theorem exec_ls11 (i : Instr) (hi : i.space = .symbol ∨ i.space = .fatRecord) :
    ∃ f : Ls11 → Option Ls11, (∀ s : State, exec i s = lsOutcome s (f s.ls)) ∧
      ∀ l l', f l = some l' → l'.input = l.input ∧ l'.mode = l.mode := by
  cases i <;> simp only [Instr.space, reduceCtorEq, or_self] at hi
  case litc c =>
    refine ⟨fun l => some (l.literal c), fun _ => rfl, fun l l' h => ?_⟩
    cases h
    unfold Ls11.literal Ls11.putByte
    split <;> exact ⟨rfl, rfl⟩
  case matchSym d n =>
    refine ⟨fun l => some (l.matchCopy d n), fun _ => rfl, fun l l' h => ?_⟩
    cases h
    exact Ls11.inputs_copyLoop n _
  case fatSentinel =>
    refine ⟨fun l => some l.endFat, fun _ => rfl, fun l l' h => ?_⟩
    cases h
    exact ⟨rfl, rfl⟩
  case entryVerbatim clen off =>
    refine ⟨fun l => if l.sliceInside off clen then some (l.verbatimEntry clen off) else none, fun s => ?_,
      fun l l' h => ?_⟩
    · simp only [exec, execEntryVerbatim, onSlice, onLs]
      split <;> rfl
    · dsimp only at h
      split at h <;> cases h
      exact ⟨rfl, rfl⟩
  case entryCoded clen ulen off =>
    refine ⟨fun l => if l.sliceInside off clen then some (l.beginCoded ⟨clen, ulen, off⟩) else none, fun s => ?_,
      fun l l' h => ?_⟩
    · simp only [exec, execEntryCoded, onSlice, onLs]
      split <;> rfl
    · dsimp only at h
      split at h <;> cases h
      exact ⟨rfl, rfl⟩

theorem recordInstr_space (clen ulen off : Word32) : (recordInstr clen ulen off).space = .fatRecord := by
  unfold recordInstr
  split
  · rfl
  · split <;> rfl

theorem symbolInstr_space (r : SymbolRead) : r.instr.space = .symbol := by
  unfold SymbolRead.instr
  split <;> rfl

/-- A step of the LS11 engine, as a function of that engine's state alone. -/
theorem step_ls11 :
    ∃ f : Ls11 → Option Ls11, (∀ s : State, s.engine = .ls11 → step s = lsOutcome s (f s.ls)) ∧
      ∀ l l', f l = some l' → l'.input = l.input ∧ l'.mode = l.mode := by
  have key : ∀ l : Ls11, ∃ o : Option Ls11,
      (∀ s : State, s.engine = .ls11 → s.ls = l → step s = lsOutcome s o) ∧
        ∀ l', o = some l' → l'.input = l.input ∧ l'.mode = l.mode := by
    intro l
    cases hph : l.phase with
    | start =>
      refine ⟨some (Ls11.initialise l.input l.mode), fun s h hl => ?_, fun l' h => ?_⟩
      · subst hl
        rw [step_eq_fetchLs h]
        simp only [fetchLs, hph]
        rfl
      · cases h
        unfold Ls11.initialise
        split <;> exact ⟨rfl, rfl⟩
    | fat =>
      cases hr : readFatRecord l.recordBytes with
      | error e =>
        refine ⟨some (l.raise .fatTrunc l.fat.length), fun s h hl => ?_, fun l' h => by cases h; exact ⟨rfl, rfl⟩⟩
        subst hl
        rw [step_eq_fetchLs h]
        simp only [fetchLs, hph, hr]
        rfl
      | ok v =>
        obtain ⟨⟨clen, ulen, off⟩, rest⟩ := v
        by_cases hc : clen = 0
        · refine ⟨some l.endFat, fun s h hl => ?_, fun l' h => by cases h; exact ⟨rfl, rfl⟩⟩
          subst hl
          rw [step_eq_fetchLs h]
          simp only [fetchLs, hph, hr, if_pos hc]
          rfl
        · refine ⟨some (l.appendRecord ⟨clen, ulen, off⟩), fun s h hl => ?_, fun l' h => by cases h; exact ⟨rfl, rfl⟩⟩
          subst hl
          rw [step_eq_fetchLs h]
          simp only [fetchLs, hph, hr, if_neg hc]
          rfl
    | validate =>
      refine ⟨some l.validate, fun s h hl => ?_, fun l' h => ?_⟩
      · subst hl
        rw [step_eq_fetchLs h]
        simp only [fetchLs, hph]
        rfl
      · cases h
        unfold Ls11.validate
        split
        · exact ⟨rfl, rfl⟩
        · split <;> exact ⟨rfl, rfl⟩
    | entries =>
      cases hg : l.fat[l.entries.length]? with
      | none =>
        refine ⟨some l.finish, fun s h hl => ?_, fun l' h => by cases h; exact ⟨rfl, rfl⟩⟩
        subst hl
        rw [step_eq_fetchLs h]
        simp only [fetchLs, hph, hg]
        rfl
      | some r =>
        obtain ⟨f, hf, hk⟩ := exec_ls11 (recordInstr r.clen r.ulen r.off) (.inr (recordInstr_space _ _ _))
        refine ⟨f l, fun s h hl => ?_, fun l' h => hk l l' h⟩
        subst hl
        rw [step_eq_fetchLs h]
        simp only [fetchLs, hph, hg, hf]
    | symbols =>
      by_cases hleft : l.symbolsLeft = true
      · cases hr : readSymbol l.pendingBits with
        | none =>
          refine ⟨some l.cutEntry, fun s h hl => ?_, fun l' h => by cases h; exact ⟨rfl, rfl⟩⟩
          subst hl
          rw [step_eq_fetchLs h]
          simp only [fetchLs, hph, if_pos hleft, hr]
          rfl
        | some r =>
          obtain ⟨f, hf, hk⟩ := exec_ls11 r.instr (.inl (symbolInstr_space r))
          refine ⟨f (l.consume r), fun s h hl => ?_, fun l' h => hk (l.consume r) l' h⟩
          subst hl
          rw [step_eq_fetchLs h]
          simp only [fetchLs, hph, if_pos hleft, hr, hf]
          rfl
      · refine ⟨some l.endEntry, fun s h hl => ?_, fun l' h => by cases h; exact ⟨rfl, rfl⟩⟩
        subst hl
        rw [step_eq_fetchLs h]
        simp only [fetchLs, hph, if_neg hleft]
        rfl
    | ended =>
      refine ⟨some l, fun s h hl => ?_, fun l' h => by cases h; exact ⟨rfl, rfl⟩⟩
      subst hl
      rw [step_eq_fetchLs h]
      simp only [fetchLs, hph]
      rfl
  exact ⟨fun l => Classical.choose (key l), fun s h => (Classical.choose_spec (key s.ls)).1 s h rfl,
    fun l l' h => (Classical.choose_spec (key l)).2 l' h⟩

/-! ### The cases of the dispatch loop (R212) and of the phases (R140) -/

variable {s : State}

theorem fetchTf_start (h : s.tf.phase = .start) :
    fetchTf s = .settle { s with tf := TfDce.initialise s.tf.input } := by
  simp only [fetchTf, h]

theorem fetchTf_stopped (h : s.tf.phase = .run) (hs : s.tf.status ≠ .running) :
    fetchTf s = .settle { s with tf := s.tf.writeResult } := by
  simp only [fetchTf, h, if_pos hs]

theorem fetchTf_full (h : s.tf.phase = .run) (hs : s.tf.status = .running) (hp : 1920 ≤ s.tf.p) :
    fetchTf s = .settle { s with tf := s.tf.stop .done } := by
  simp only [fetchTf, h, hs, ne_eq, not_true_eq_false, if_false, Config.tfOutLen, if_pos hp]

theorem fetchTf_exhausted (h : s.tf.phase = .run) (hs : s.tf.status = .running) (hp : s.tf.p < 1920)
    (hl : s.tf.input.len ≤ s.tf.sp) : fetchTf s = .settle { s with tf := s.tf.stop .trunc } := by
  have hb : s.tf.streamBytes = [] := by
    unfold TfDce.streamBytes longestCommand
    rw [Buffer.bytesFrom, if_neg (by omega)]
  simp only [fetchTf, h, hs, ne_eq, not_true_eq_false, if_false, Config.tfOutLen,
    if_neg (show ¬1920 ≤ s.tf.p by omega), hb]

theorem fetchTf_run {cmd : Byte} {rest : List Byte} {i : Instr} (h : s.tf.phase = .run)
    (hs : s.tf.status = .running) (hp : s.tf.p < 1920) (hb : s.tf.streamBytes = cmd :: rest)
    (hi : streamInstr cmd rest = some i) : fetchTf s = .run i { s with tf := s.tf.readCommand cmd rest } := by
  simp only [fetchTf, h, hs, ne_eq, not_true_eq_false, if_false, Config.tfOutLen,
    if_neg (show ¬1920 ≤ s.tf.p by omega), hb, hi]

theorem fetchTf_missing {cmd : Byte} {rest : List Byte} (h : s.tf.phase = .run) (hs : s.tf.status = .running)
    (hp : s.tf.p < 1920) (hb : s.tf.streamBytes = cmd :: rest) (hi : streamInstr cmd rest = none) :
    fetchTf s = .settle { s with tf := (s.tf.readCommand cmd rest).haltTrunc } := by
  simp only [fetchTf, h, hs, ne_eq, not_true_eq_false, if_false, Config.tfOutLen,
    if_neg (show ¬1920 ≤ s.tf.p by omega), hb, hi]

theorem fetchLs_symbol {r : SymbolRead} (h : s.ls.phase = .symbols) (hl : s.ls.symbolsLeft = true)
    (hr : readSymbol s.ls.pendingBits = some r) :
    fetchLs s = .run r.instr { s with ls := s.ls.consume r } := by
  simp only [fetchLs, h, if_pos hl, hr]

theorem fetchLs_cut (h : s.ls.phase = .symbols) (hl : s.ls.symbolsLeft = true)
    (hr : readSymbol s.ls.pendingBits = none) : fetchLs s = .settle { s with ls := s.ls.cutEntry } := by
  simp only [fetchLs, h, if_pos hl, hr]

theorem fetchLs_end (h : s.ls.phase = .symbols) (hl : ¬s.ls.symbolsLeft = true) :
    fetchLs s = .settle { s with ls := s.ls.endEntry } := by
  simp only [fetchLs, h, if_neg hl]

theorem fetchLs_record {r : FatRec} (h : s.ls.phase = .entries) (hg : s.ls.fat[s.ls.entries.length]? = some r) :
    fetchLs s = .run (recordInstr r.clen r.ulen r.off) s := by
  simp only [fetchLs, h, hg]

theorem fetchLs_finish (h : s.ls.phase = .entries) (hg : s.ls.fat[s.ls.entries.length]? = none) :
    fetchLs s = .settle { s with ls := s.ls.finish } := by
  simp only [fetchLs, h, hg]

end Sys2Proof.Machine
end

