-- ==== Sys2Proof/Laws/Invariant.lean ====
section
/-! SUPPORT. How the parts of the two invariants are kept: the planes mirror the output across every run of
emitted bytes, and every command, entry and symbol keeps its engine's invariant. -/

namespace Sys2Proof.Machine

/-! ### TF-DCE -/

theorem planeOrderTable_isPermutation (selb : Byte) : (planeOrderTable selb).isPermutation := by
  revert selb
  decide

/-- What a command does to an engine whose planes mirror its output. -/
structure TfDce.Advances (u : TfDce) : Prop where
  clean : u.clean
  mirror : u.PlanesMirrorOutput
  done : u.status = .done ↔ u.p = 1920

/-- A run of emitted bytes keeps the planes the mirror of the output (R206, R207). -/
theorem TfDce.PlanesMirrorOutput.emitted {t u : TfDce} {k : Nat} {v : Nat → Byte} (h : t.PlanesMirrorOutput)
    (hpo : t.po.isPermutation) (hE : t.Emitted u k v) (hk : t.p + k ≤ 1920) (hup : u.po = t.po) (hu : u.clean) :
    u.PlanesMirrorOutput := by
  obtain ⟨hp, hout, hpm, hold, -⟩ := hE
  obtain ⟨h1, h2, h3, h4⟩ := h
  refine ⟨by omega, ?_, fun q hq => ?_, fun pl a hn => ?_⟩
  · refine Memory.below_of_read hu.2 fun a ha => ?_
    rw [hout a, if_neg (by omega), Memory.read_of_below h2 (by omega)]
  · rw [hup]
    by_cases hqt : t.p ≤ q
    · rw [hpm q hqt (by omega), hout q, if_pos (by omega)]
    · rw [hout q, if_neg (by omega), ← h3 q (by omega)]
      refine hold _ _ fun q' ha hb hc => ?_
      have hs := destPlane_inj hpo (show q' < 1920 by omega) (show q < 1920 by omega) hc.1
      exact zigzag_ne (show q < q' by omega) (by omega) hc.2.symm
  · rw [hup] at hn
    rw [hold pl a fun q ha hb => hn q (by omega), h4 pl a fun q hq => hn q (by omega)]

theorem TfDce.Emits.advances {t u : TfDce} {c : Nat} {v : Nat → Byte} {pc : PatternCache} {o : Bool}
    (h : t.Emits u c v pc o) (ht : t.ready) (hm : t.PlanesMirrorOutput) (hpo : t.po.isPermutation)
    (hu : u.clean) : u.Advances ∧ u.status ≠ .trunc := by
  obtain ⟨hE, hf, -, -, -⟩ := h
  have hr : t.p + t.room c ≤ 1920 := by
    have := ht.2
    unfold TfDce.room
    omega
  have hst := hE.2.2.2.2
  have hp := hE.1
  refine ⟨⟨hu, hm.emitted hpo hE hr hf.2.2.2.2.1 hu, ?_⟩, ?_⟩
  · rw [hst, hp]
    split <;> simp [*]
  · rw [hst]
    split <;> decide

variable {s : State}

/-- What a header-table word does to an engine whose planes mirror its output. -/
theorem exec_tableWord_advances (i : Instr) (hi : i.space = .tableWord) (ht : s.tf.ready) (hc : s.tf.clean)
    (hm : s.tf.PlanesMirrorOutput) (hpo : s.tf.po.isPermutation) :
    ∃ u : TfDce, exec i s = .next { s with tf := u } ∧ u.Advances ∧ u.status ≠ .trunc := by
  have hlt := ht.2
  cases i <;> simp only [Instr.space, reduceCtorEq] at hi
  case mLbr n whi =>
    obtain ⟨hE, hu⟩ := TfDce.linCopy_emits (c := copyCount n) ht hc (tableDistance whi)
      (by unfold copyCount; omega) (by unfold copyCount; have := n.isLt; omega)
    exact ⟨_, rfl, hE.advances ht hm hpo hu⟩
  case mPrd sel x whi =>
    obtain ⟨hE, hu⟩ := TfDce.planeXform_emits (c := byteCount whi) ht hc sel x
      (by unfold byteCount; omega) (by unfold byteCount; have := whi.isLt; omega)
    exact ⟨_, rfl, hE.advances ht hm hpo hu⟩
  case mPbr n whi =>
    obtain ⟨hE, -, hu⟩ := TfDce.planeCopy_emits (c := byteCount whi) (d := nibbleCount n) ht hc hpo
      (by unfold nibbleCount; omega) (by unfold nibbleCount; have := n.isLt; omega)
      (by unfold byteCount; have := whi.isLt; omega)
    exact ⟨_, rfl, hE.advances ht hm hpo hu⟩
  case mMrd sel k whi =>
    obtain ⟨hE, hu⟩ := TfDce.maskRead_emits (t := s.tf.ageSlot k) (c := byteCount whi) ht hc sel (s.tf.pc.get k)
      (by unfold byteCount; have := whi.isLt; omega)
    exact ⟨(s.tf.ageSlot k).maskRead sel (s.tf.pc.get k) (byteCount whi), rfl,
      hE.advances (t := s.tf.ageSlot k) ht hm hpo hu⟩
  case mLit x whi =>
    obtain ⟨hE, hu⟩ := TfDce.emit_emitted ht hc whi
    refine ⟨s.tf.emit whi, ?_, TfDce.Emits.advances (c := 1) (t := s.tf) (v := fun _ => whi) (pc := (s.tf.emit whi).pc)
      (o := (s.tf.emit whi).oobf) ⟨?_, TfDce.emit_frame _ _, by simp, rfl, rfl⟩ ht hm hpo hu⟩
    · simp [exec, execMLit, onTf, TfDce.andThen, ht.1]
    · rw [show s.tf.room 1 = 1 by simp only [TfDce.room]; omega]
      exact hE
  case mNib n whi =>
    obtain ⟨hE, hu⟩ := TfDce.pairRun_emits (c := nibbleCount n) ht hc (nibPair whi).1 (nibPair whi).2
      (by unfold nibbleCount; have := n.isLt; omega)
    exact ⟨_, rfl, hE.advances ht hm hpo hu⟩
  case mRmr sel k whi =>
    obtain ⟨hE, hu⟩ := TfDce.rotMaskRead_emits (t := s.tf.ageSlot k) (c := byteCount whi) ht hc sel
      (s.tf.pc.get k) (by unfold byteCount; have := whi.isLt; omega)
    exact ⟨(s.tf.ageSlot k).rotMaskRead sel (s.tf.pc.get k) (byteCount whi), rfl,
      hE.advances (t := s.tf.ageSlot k) ht hm hpo hu⟩
  case mRle r whi =>
    obtain ⟨hE, hu⟩ := TfDce.fill_emits (c := r.toNat) ht hc whi (by have := r.isLt; omega)
    exact ⟨_, rfl, hE.advances ht hm hpo hu⟩
  case mRefused wlo whi =>
    refine ⟨s.tf.refuse wlo, rfl, ⟨hc, hm, ?_⟩, by simp⟩
    simp only [TfDce.refuse_status, TfDce.refuse_p, reduceCtorEq, false_iff]
    omega

/-- What a command does to an engine whose planes mirror its output; only a literal run that is cut off ends in
TRUNC, and its literals have then all been read (R211). -/
theorem exec_command_advances (i : Instr) (hi : i.space = .command) (ht : s.tf.ready) (hc : s.tf.clean)
    (hm : s.tf.PlanesMirrorOutput) (hpo : s.tf.po.isPermutation) :
    ∃ u : TfDce, exec i s = .next { s with tf := u } ∧ u.Advances ∧
      (u.status = .trunc → ∃ n bs, i = .lit n bs ∧ bs.length < n.toNat + 1 ∧ u.sp = s.tf.sp + bs.length) := by
  have hlt := ht.2
  cases i <;> simp only [Instr.space, reduceCtorEq] at hi
  case mac i =>
    obtain ⟨u, hu, ha, hn⟩ := exec_tableWord_advances (s := { s with tf := s.tf.htRead i })
      (decodeTableEntry (wordLow (s.tf.htRead i).regs.w) (wordHigh (s.tf.htRead i).regs.w))
      (decodeTableEntry_space _ _) ht hc hm hpo
    refine ⟨u, ?_, ha, fun h => absurd h hn⟩
    rw [show exec (.mac i) s = execMac i s from rfl, execMac, execTableWord_eq, hu]
  case lbr n d =>
    obtain ⟨hE, hu⟩ := TfDce.linCopy_emits (c := copyCount n) ht hc d.toNat
      (by unfold copyCount; omega) (by unfold copyCount; have := n.isLt; omega)
    obtain ⟨ha, hn⟩ := hE.advances ht hm hpo hu
    exact ⟨_, rfl, ha, fun h => absurd h hn⟩
  case prd sel c =>
    obtain ⟨hE, hu⟩ := TfDce.planeXform_emits (c := byteCount c) ht hc sel 0
      (by unfold byteCount; omega) (by unfold byteCount; have := c.isLt; omega)
    obtain ⟨ha, hn⟩ := hE.advances ht hm hpo hu
    exact ⟨_, rfl, ha, fun h => absurd h hn⟩
  case prdn sel c =>
    obtain ⟨hE, hu⟩ := TfDce.planeXform_emits (c := byteCount c) ht hc sel 1
      (by unfold byteCount; omega) (by unfold byteCount; have := c.isLt; omega)
    obtain ⟨ha, hn⟩ := hE.advances ht hm hpo hu
    exact ⟨_, rfl, ha, fun h => absurd h hn⟩
  case prdl sel c =>
    obtain ⟨hE, hu⟩ := TfDce.planeXform_emits (c := byteCount c) ht hc sel 2
      (by unfold byteCount; omega) (by unfold byteCount; have := c.isLt; omega)
    obtain ⟨ha, hn⟩ := hE.advances ht hm hpo hu
    exact ⟨_, rfl, ha, fun h => absurd h hn⟩
  case prdr sel c =>
    obtain ⟨hE, hu⟩ := TfDce.planeXform_emits (c := byteCount c) ht hc sel 3
      (by unfold byteCount; omega) (by unfold byteCount; have := c.isLt; omega)
    obtain ⟨ha, hn⟩ := hE.advances ht hm hpo hu
    exact ⟨_, rfl, ha, fun h => absurd h hn⟩
  case pbr n c =>
    obtain ⟨hE, -, hu⟩ := TfDce.planeCopy_emits (c := byteCount c) (d := nibbleCount n) ht hc hpo
      (by unfold nibbleCount; omega) (by unfold nibbleCount; have := n.isLt; omega)
      (by unfold byteCount; have := c.isLt; omega)
    obtain ⟨ha, hn⟩ := hE.advances ht hm hpo hu
    exact ⟨_, rfl, ha, fun h => absurd h hn⟩
  case mrd sel k c =>
    obtain ⟨hE, hu⟩ := TfDce.maskRead_emits (t := s.tf.ageSlot k) (c := byteCount c) ht hc sel (s.tf.pc.get k)
      (by unfold byteCount; have := c.isLt; omega)
    obtain ⟨ha, hn⟩ := hE.advances (t := s.tf.ageSlot k) ht hm hpo hu
    exact ⟨(s.tf.ageSlot k).maskRead sel (s.tf.pc.get k) (byteCount c), rfl, ha, fun h => absurd h hn⟩
  case mrdi sel m c =>
    obtain ⟨hE, hu⟩ := TfDce.maskRead_emits (t := s.tf.promoteMask m) (c := byteCount c) ht hc sel m
      (by unfold byteCount; have := c.isLt; omega)
    obtain ⟨ha, hn⟩ := hE.advances (t := s.tf.promoteMask m) ht hm hpo hu
    exact ⟨(s.tf.promoteMask m).maskRead sel m (byteCount c), rfl, ha, fun h => absurd h hn⟩
  case pair n v1 v2 =>
    obtain ⟨hE, hu⟩ := TfDce.pairRun_emits (c := nibbleCount n) ht hc v1 v2
      (by unfold nibbleCount; have := n.isLt; omega)
    obtain ⟨ha, hn⟩ := hE.advances ht hm hpo hu
    exact ⟨_, rfl, ha, fun h => absurd h hn⟩
  case lit n bs =>
    have hn := n.isLt
    have htk : (bs.take (nibbleCount n)).length ≤ 16 := by
      rw [List.length_take]
      unfold nibbleCount
      omega
    obtain ⟨hE, hu, hf, hsp, -, -⟩ := TfDce.litRun_emits (bs.take (nibbleCount n)) s.tf ht hc (by omega)
    have hr : s.tf.p + s.tf.room (bs.take (nibbleCount n)).length ≤ 1920 := by
      unfold TfDce.room
      omega
    have hst := hE.2.2.2.2
    have hp := hE.1
    have hmir := hm.emitted hpo hE hr hf.2.2.2.2.1 hu
    by_cases hrun : (s.tf.litRun (bs.take (nibbleCount n))).status = .running
    · have hne : (s.tf.litRun (bs.take (nibbleCount n))).p ≠ 1920 := by
        intro h
        rw [hrun, if_pos (by omega)] at hst
        cases hst
      by_cases hlen : bs.length < nibbleCount n
      · refine ⟨(s.tf.litRun (bs.take (nibbleCount n))).haltTrunc, ?_, ⟨hu, hmir, by simp [hne]⟩, fun _ => ?_⟩
        · simp only [exec, execLit, onTf, TfDce.andThen, if_pos hrun, if_pos hlen]
        · unfold nibbleCount at hlen
          refine ⟨n, bs, rfl, hlen, ?_⟩
          have htl : bs.take (nibbleCount n) = bs := List.take_of_length_le (by unfold nibbleCount; omega)
          rw [htl] at hsp hp hne ⊢
          rw [TfDce.haltTrunc_sp, hsp]
          unfold TfDce.room at hp ⊢
          omega
      · refine ⟨s.tf.litRun (bs.take (nibbleCount n)), ?_, ⟨hu, hmir, by simp [hne, hrun]⟩, fun h => ?_⟩
        · simp only [exec, execLit, onTf, TfDce.andThen, if_pos hrun, if_neg hlen]
        · rw [hrun] at h
          cases h
    · refine ⟨s.tf.litRun (bs.take (nibbleCount n)), ?_, ⟨hu, hmir, ?_⟩, fun h => ?_⟩
      · simp only [exec, execLit, onTf, TfDce.andThen, if_neg hrun]
      · rw [hst, hp]
        split <;> rename_i hfull <;> simp only [hfull, reduceCtorEq]
      · rw [hst] at h
        split at h <;> cases h
  case nib n v =>
    obtain ⟨hE, hu⟩ := TfDce.pairRun_emits (c := nibbleCount n) ht hc (nibPair v).1 (nibPair v).2
      (by unfold nibbleCount; have := n.isLt; omega)
    obtain ⟨ha, hn⟩ := hE.advances ht hm hpo hu
    exact ⟨_, rfl, ha, fun h => absurd h hn⟩
  case rmr sel k c =>
    obtain ⟨hE, hu⟩ := TfDce.rotMaskRead_emits (t := s.tf.ageSlot k) (c := byteCount c) ht hc sel
      (s.tf.pc.get k) (by unfold byteCount; have := c.isLt; omega)
    obtain ⟨ha, hn⟩ := hE.advances (t := s.tf.ageSlot k) ht hm hpo hu
    exact ⟨(s.tf.ageSlot k).rotMaskRead sel (s.tf.pc.get k) (byteCount c), rfl, ha, fun h => absurd h hn⟩
  case rmri sel m c =>
    obtain ⟨hE, hu⟩ := TfDce.rotMaskRead_emits (t := s.tf.promoteMask m) (c := byteCount c) ht hc sel m
      (by unfold byteCount; have := c.isLt; omega)
    obtain ⟨ha, hn⟩ := hE.advances (t := s.tf.promoteMask m) ht hm hpo hu
    exact ⟨(s.tf.promoteMask m).rotMaskRead sel m (byteCount c), rfl, ha, fun h => absurd h hn⟩
  case rle r v =>
    obtain ⟨hE, hu⟩ := TfDce.fill_emits (c := r.toNat) ht hc v (by have := r.isLt; omega)
    obtain ⟨ha, hn⟩ := hE.advances ht hm hpo hu
    exact ⟨_, rfl, ha, fun h => absurd h hn⟩

/-- The start of a call, before and after R452. -/
theorem TfDce.atStart_inv {input : Buffer} (h : input.wf) : (TfDce.atStart input).Inv :=
  ⟨⟨h, ⟨Memory.wf_nil, Memory.wf_nil, Memory.wf_nil, Memory.wf_nil⟩, Memory.wf_nil, Memory.wf_nil,
    by simp [TfDce.atStart, TfResult.initial]⟩, fun hr => by cases hr⟩

theorem TfDce.initialise_inv {input : Buffer} (h : input.wf) : (TfDce.initialise input).Inv := by
  refine ⟨⟨h, ⟨Memory.wf_nil, Memory.wf_nil, Memory.wf_nil, Memory.wf_nil⟩, Memory.wf_nil, Memory.wf_nil,
      by simp [TfDce.initialise, TfDce.atStart, TfResult.initial]⟩,
    fun _ => ⟨⟨rfl, rfl, rfl⟩, ⟨Nat.zero_le _, by simp [TfDce.initialise, TfDce.atStart],
      fun q hq => by simp [TfDce.initialise, TfDce.atStart] at hq, fun k a _ => ?_⟩,
      ⟨by simp [TfDce.initialise, TfDce.atStart], by simp [TfDce.initialise, TfDce.atStart]⟩, Nat.le_refl _⟩⟩
  simp only [TfDce.initialise, TfDce.atStart, Planes.read, Planes.get, Planes.empty]
  repeat' split
  all_goals rfl

/-! ### LS11 -/

/-- The start of a call (R451). -/
theorem Ls11.atStart_inv {input : Buffer} {mode : LsMode} (h : input.wf) : (Ls11.atStart input mode).Inv :=
  ⟨⟨h, Memory.wf_nil, Memory.wf_nil, Memory.wf_nil, by simp [Ls11.atStart]⟩, trivial⟩

/-- The end of a coded entry keeps the invariant of the call (R171). -/
theorem Ls11.endEntry_inv {l : Ls11} (hc : l.canonical) (hL : l.Loaded) (hV : l.Validated)
    (hM : l.mode = .decode) (hE : l.EntriesFit) (hF : l.LoopFits) : l.endEntry.Inv := by
  obtain ⟨h1, h2, h3, h4, h5⟩ := hF
  obtain ⟨hlen, hall⟩ := hE
  have hlt : l.entries.length < l.fat.length := (List.getElem?_eq_some_iff.1 h1).1
  refine ⟨⟨hc.1, hc.2.1, hc.2.2.1, hc.2.2.2.1, fun e he => ?_⟩, hL, hV, hM, ?_, fun i e he => ?_⟩
  · rw [Ls11.endEntry_entries] at he
    rcases List.mem_append.1 he with he | he
    · exact hc.2.2.2.2 e he
    · simp only [List.mem_singleton] at he
      subst he
      exact ⟨hc.2.2.2.1, fun c hcm => by have := h5 c hcm; simp only; omega⟩
  · rw [Ls11.endEntry_entries]
    simp only [List.length_append, List.length_singleton]
    exact hlt
  · rw [Ls11.endEntry_entries] at he
    by_cases hi : i < l.entries.length
    · rw [List.getElem?_append_left hi] at he
      exact hall i e he
    · rw [List.getElem?_append_right (by omega)] at he
      have hi2 := (List.getElem?_eq_some_iff.1 he).1
      simp only [List.length_singleton] at hi2
      have : i = l.entries.length := by omega
      subst this
      simp at he
      subst he
      refine ⟨l.cur, h1, rfl, ?_⟩
      rw [if_neg h2]
      exact ⟨rfl, h3, h5, by simp [entryShort]⟩

end Sys2Proof.Machine
end

