-- ==== Sys2Proof/Laws/PerInstr.lean ====
section
/-! SUPPORT. Families of facts about every instruction as syntax, one lemma per constructor. -/

namespace Sys2Proof.Laws.EncodeSpace

/-- An instruction is encoded in the space of its row of spec/opcode_table.json (R100, R106). -/
def Statement (i : Instr) : Prop := (encode i).space = i.space

theorem mac (i : BitVec 5) : Statement (.mac i) := rfl
theorem lbr (n : BitVec 4) (d : Byte) : Statement (.lbr n d) := rfl
theorem prd (s : BitVec 2) (c : Byte) : Statement (.prd s c) := rfl
theorem prdn (s : BitVec 2) (c : Byte) : Statement (.prdn s c) := rfl
theorem prdl (s : BitVec 2) (c : Byte) : Statement (.prdl s c) := rfl
theorem prdr (s : BitVec 2) (c : Byte) : Statement (.prdr s c) := rfl
theorem pbr (n : BitVec 4) (c : Byte) : Statement (.pbr n c) := rfl
theorem mrd (s : BitVec 2) (k : BitVec 2) (c : Byte) : Statement (.mrd s k c) := rfl
theorem mrdi (s : BitVec 2) (m : Byte) (c : Byte) : Statement (.mrdi s m c) := rfl
theorem pair (n : BitVec 4) (v1 : Byte) (v2 : Byte) : Statement (.pair n v1 v2) := rfl
theorem lit (n : BitVec 4) (bs : List Byte) : Statement (.lit n bs) := rfl
theorem nib (n : BitVec 4) (v : Byte) : Statement (.nib n v) := rfl
theorem rmr (s : BitVec 2) (k : BitVec 2) (c : Byte) : Statement (.rmr s k c) := rfl
theorem rmri (s : BitVec 2) (m : Byte) (c : Byte) : Statement (.rmri s m c) := rfl
theorem rle (r : Byte) (v : Byte) : Statement (.rle r v) := rfl
theorem mLbr (n : BitVec 4) (whi : Byte) : Statement (.mLbr n whi) := rfl
theorem mPrd (s : BitVec 2) (t : BitVec 2) (whi : Byte) : Statement (.mPrd s t whi) := rfl
theorem mPbr (n : BitVec 4) (whi : Byte) : Statement (.mPbr n whi) := rfl
theorem mMrd (s : BitVec 2) (k : BitVec 2) (whi : Byte) : Statement (.mMrd s k whi) := rfl
theorem mLit (x : BitVec 4) (whi : Byte) : Statement (.mLit x whi) := rfl
theorem mNib (n : BitVec 4) (whi : Byte) : Statement (.mNib n whi) := rfl
theorem mRmr (s : BitVec 2) (k : BitVec 2) (whi : Byte) : Statement (.mRmr s k whi) := rfl
theorem mRle (r : Byte) (whi : Byte) : Statement (.mRle r whi) := rfl
theorem mRefused (wlo : Byte) (whi : Byte) : Statement (.mRefused wlo whi) := rfl
theorem litc (c : Byte) : Statement (.litc c) := rfl
theorem matchSym (dist : Nat) (len : Nat) : Statement (.matchSym dist len) := rfl
theorem fatSentinel : Statement .fatSentinel := rfl
theorem entryVerbatim (clen : Word32) (off : Word32) : Statement (.entryVerbatim clen off) := rfl
theorem entryCoded (clen : Word32) (ulen : Word32) (off : Word32) : Statement (.entryCoded clen ulen off) := rfl

end Sys2Proof.Laws.EncodeSpace
end

