-- ==== Sys2Proof/Tests/Slice0.lean ====
section
/-! SUPPORT. The model's own tests. Expected results are taken from spec/95_test_vectors.md (each test names its
vector) or worked out by hand from the rule it names; the words of the decoding tests are written out from
spec/opcode_table.json. The theorems `witness_<Name>` show, for each obligation with hypotheses, concrete data
that meet them, at the boundaries of each clause. -/

namespace Sys2Proof.Tests.Slice0

open Sys2Proof.Machine

/-! ### The checks of WellFormed refuse an ill-formed term -/

theorem test_wellFormed_mrd : (Instr.mrd 3 0 0).wellFormed = false := by decide
theorem test_wellFormed_lit_short : (Instr.lit 1 [0x42]).wellFormed = false := by decide
theorem test_wellFormed_lit_long : (Instr.lit 0 [0x42, 0x43]).wellFormed = false := by decide
theorem test_wellFormed_rmr : (Instr.rmr 3 1 0).wellFormed = false := by decide
theorem test_wellFormed_rle_low : (Instr.rle 1 0).wellFormed = false := by decide
theorem test_wellFormed_rle_high : (Instr.rle 98 0).wellFormed = false := by decide
theorem test_wellFormed_mMrd : (Instr.mMrd 3 0 0).wellFormed = false := by decide
theorem test_wellFormed_mRmr : (Instr.mRmr 3 0 0).wellFormed = false := by decide
theorem test_wellFormed_mRle_low : (Instr.mRle 1 0).wellFormed = false := by decide
theorem test_wellFormed_mRle_high : (Instr.mRle 98 0).wellFormed = false := by decide
theorem test_wellFormed_mRefused : (Instr.mRefused 0x50 0).wellFormed = false := by decide
theorem test_wellFormed_matchSym : (Instr.matchSym 5 2).wellFormed = false := by decide
theorem test_wellFormed_entryVerbatim : (Instr.entryVerbatim 0 312).wellFormed = false := by decide
theorem test_wellFormed_entryCoded_zero : (Instr.entryCoded 0 7 315).wellFormed = false := by decide
theorem test_wellFormed_entryCoded_equal : (Instr.entryCoded 7 7 315).wellFormed = false := by decide

/-! ### Decoding: one word of every constructor, written out from its encoding -/

/-- The encoding decodes to the instruction. -/
def decodesTo (e : Encoded) (i : Instr) : Bool :=
  match decode e with
  | .ok j => j == i
  | .error _ => false

/-- A bit string, as the vectors write it. -/
def bits (ones : List Nat) : List Bool := ones.map fun b => b == 1

theorem test_decode_mac : decodesTo (.command [0b00010011]) (.mac 0b10011) = true := by decide
theorem test_decode_lbr : decodesTo (.command [0b00100010, 0x02]) (.lbr 2 2) = true := by decide
theorem test_decode_prd : decodesTo (.command [0b00111000, 0x05]) (.prd 2 5) = true := by decide
theorem test_decode_prdn : decodesTo (.command [0b00110001, 0x01]) (.prdn 0 1) = true := by decide
theorem test_decode_prdl : decodesTo (.command [0b00111110, 0xFE]) (.prdl 3 0xFE) = true := by decide
theorem test_decode_prdr : decodesTo (.command [0b00110111, 0x00]) (.prdr 1 0) = true := by decide
theorem test_decode_pbr : decodesTo (.command [0b01001111, 0x10]) (.pbr 15 0x10) = true := by decide
theorem test_decode_mrd : decodesTo (.command [0b01011001, 0x7E]) (.mrd 2 1 0x7E) = true := by decide
theorem test_decode_mrdi : decodesTo (.command [0b01011110, 0x0F, 0x33]) (.mrdi 2 0x0F 0x33) = true := by decide
theorem test_decode_pair : decodesTo (.command [0b01100001, 0x12, 0x34]) (.pair 1 0x12 0x34) = true := by decide
theorem test_decode_lit : decodesTo (.command [0b01110001, 0x81, 0x42]) (.lit 1 [0x81, 0x42]) = true := by decide
theorem test_decode_nib : decodesTo (.command [0b10000001, 0xAB]) (.nib 1 0xAB) = true := by decide
theorem test_decode_rmr : decodesTo (.command [0b10010110, 0xFE]) (.rmr 1 2 0xFE) = true := by decide
theorem test_decode_rmri : decodesTo (.command [0b10011101, 0x0F, 0x33]) (.rmri 1 0x0F 0x33) = true := by decide
theorem test_decode_rle_low : decodesTo (.command [0xA0, 0x55]) (.rle 2 0x55) = true := by decide
theorem test_decode_rle_high : decodesTo (.command [0xFF, 0x55]) (.rle 97 0x55) = true := by decide
theorem test_decode_mLbr : decodesTo (.tableWord 0b00100010 0x03) (.mLbr 2 3) = true := by decide
theorem test_decode_mPrd : decodesTo (.tableWord 0b00110110 0x01) (.mPrd 1 2 1) = true := by decide
theorem test_decode_mPbr : decodesTo (.tableWord 0b01000101 0x07) (.mPbr 5 7) = true := by decide
theorem test_decode_mMrd : decodesTo (.tableWord 0b01010011 0x00) (.mMrd 0 3 0) = true := by decide
theorem test_decode_mLit : decodesTo (.tableWord 0b01111010 0x42) (.mLit 10 0x42) = true := by decide
theorem test_decode_mNib : decodesTo (.tableWord 0b10000001 0xAB) (.mNib 1 0xAB) = true := by decide
theorem test_decode_mRmr : decodesTo (.tableWord 0b10010110 0x06) (.mRmr 1 2 6) = true := by decide
theorem test_decode_mRle : decodesTo (.tableWord 0xA5 0x99) (.mRle 7 0x99) = true := by decide
theorem test_decode_mRefused : decodesTo (.tableWord 0b01011101 0x1F) (.mRefused 0x5D 0x1F) = true := by decide
/-- V2.1q, the largest literal. -/
theorem test_decode_litc :
    decodesTo (.symbol (bits [1, 1, 1, 1, 1, 1, 1, 0, 0, 0, 0, 0, 0, 0, 0, 1])) (.litc 255) = true := by decide
/-- V2.1t and V2.1c: distance 2, length 5. -/
theorem test_decode_matchSym :
    decodesTo (.symbol (bits ([1, 1, 1, 1, 1, 1, 1, 0, 0, 0, 0, 0, 0, 1, 0, 0] ++ [1, 0, 0, 0]))) (.matchSym 2 5) =
      true := by decide
theorem test_decode_fatSentinel : decodesTo (.fatRecord [0, 0, 0, 0]) .fatSentinel = true := by decide
/-- V2.29. -/
theorem test_decode_entryVerbatim :
    decodesTo (.fatRecord [0, 0, 0, 3, 0, 0, 0, 3, 0, 0, 1, 0x1C]) (.entryVerbatim 3 284) = true := by decide
/-- P1, entry 1. -/
theorem test_decode_entryCoded :
    decodesTo (.fatRecord [0, 0, 0, 6, 0, 0, 0, 7, 0, 0, 1, 0x3B]) (.entryCoded 6 7 315) = true := by decide
/-- A word in the numbering of the opcode table: the second byte is bits 15 to 8. -/
theorem test_decodeTableWord : decodeTableWord 16 0x0222 = some (.lbr 2 2) := by decide

/-! ### TF-DCE: one command on a small state -/

/-- The dispatch loop of a running engine, with a table, a stream, P, OUT and the planes. -/
def tfState (table stream : List Byte) (p : Nat) (out : Memory) (pm : Planes) : State :=
  { State.reset with
    tf :=
      { TfDce.atStart
          (Buffer.ofBytes ([0, 0, 0, 0, 0, 0, 0, 0, 0, BitVec.ofNat 8 (table.length / 2)] ++ table ++ stream)) with
        phase := .run
        n := BitVec.ofNat 8 (table.length / 2)
        sp := 10 + table.length
        p := p
        out := out
        pm := pm } }

/-- Plane 0 with `v` at the addresses of the first `n` positions of a section. -/
def plane0 (v : Byte) (n : Nat) : Planes := { Planes.empty with m0 := (List.range n).map fun i => (80 * i, v) }

/-- The bytes that one step emits, with STATUS, OOBF and PC after it. -/
def emitted (s : State) : Option (List Byte × TfStatus × Bool × PatternCache) :=
  match step s with
  | .next t =>
    some ((List.range (t.tf.p - s.tf.p)).map (fun i => t.tf.out.read (s.tf.p + i)), t.tf.status, t.tf.oobf, t.tf.pc)
  | _ => none

/-- V2.60. -/
theorem test_lbr : emitted (tfState [] [0x22, 0x02] 3 (Memory.ofBytes 0 [0x41, 0x42, 0x43]) Planes.empty) =
    some ([0x42, 0x43, 0x42, 0x43, 0x42], .running, false, PatternCache.initial) := by decide
/-- V2.62: a distance past the start. -/
theorem test_lbr_far : emitted (tfState [] [0x20, 0x05] 1 (Memory.ofBytes 0 [0xAA]) Planes.empty) =
    some ([0, 0, 0], .running, true, PatternCache.initial) := by decide
/-- V2.71. -/
theorem test_prd : emitted (tfState [] [0x30, 0x00] 640 [] (plane0 0xC3 2)) =
    some ([0xC3, 0xC3], .running, false, PatternCache.initial) := by decide
/-- V2.64: the fallback of section 0. -/
theorem test_prd_fallback : emitted (tfState [] [0x30, 0x01] 1 (Memory.ofBytes 0 [0x81]) Planes.empty) =
    some ([0x81, 0x81, 0x81], .running, false, PatternCache.initial) := by decide
/-- V2.72. -/
theorem test_prdn : emitted (tfState [] [0x31, 0x00] 640 [] (plane0 0xC3 2)) =
    some ([0x3C, 0x3C], .running, false, PatternCache.initial) := by decide
/-- V2.69. -/
theorem test_prdn_start : emitted (tfState [] [0x31, 0x01] 0 [] Planes.empty) =
    some ([0xFF, 0x00, 0xFF], .running, true, PatternCache.initial) := by decide
/-- V2.76: from section 0 into section 1. -/
theorem test_prdl :
    emitted (tfState [] [0x32, 0x03] 638 (Memory.ofBytes 637 [0x11]) (plane0 0x11 3)) =
      some ([0x22, 0x44, 0x22, 0x22, 0x22], .running, false, PatternCache.initial) := by decide
/-- V2.74. -/
theorem test_prdr : emitted (tfState [] [0x33, 0x00] 640 [] (plane0 0xC3 2)) =
    some ([0xE1, 0xE1], .running, false, PatternCache.initial) := by decide
/-- V2.77: at P = 80, on the first cell of column 1. -/
theorem test_pbr :
    emitted (tfState [] [0x40, 0x00] 80 [] { Planes.empty with m0 := [(6240, 0xAA), (6320, 0xBB)] }) =
      some ([0xBB, 0xAA], .running, false, PatternCache.initial) := by decide
/-- V2.78. -/
theorem test_pbr_start : emitted (tfState [] [0x40, 0x00] 0 [] Planes.empty) =
    some ([0, 0], .running, true, PatternCache.initial) := by decide
/-- V2.80, its first command. -/
theorem test_mrd : emitted (tfState [] [0x53, 0x00] 640 [] (plane0 0xF3 2)) =
    some ([0xA2, 0xA2], .running, false, ⟨0x00, 0xFF, 0xAA, 0x55⟩) := by decide
/-- V2.83, its first command. -/
theorem test_mrdi : emitted (tfState [] [0x5C, 0x3C, 0x00] 640 [] (plane0 0xF3 2)) =
    some ([0x30, 0x30], .running, false, ⟨0x00, 0xFF, 0x3C, 0x55⟩) := by decide
/-- V2.86. -/
theorem test_pair : emitted (tfState [] [0x61, 0x12, 0x34] 0 [] Planes.empty) =
    some ([0x12, 0x34, 0x12, 0x34], .running, false, PatternCache.initial) := by decide
/-- V2.50d: the fourth byte is dropped. -/
theorem test_pair_full : emitted (tfState [] [0x61, 0x0A, 0x0B] 1917 [] Planes.empty) =
    some ([0x0A, 0x0B, 0x0A], .done, false, PatternCache.initial) := by decide
/-- V2.89. -/
theorem test_lit : emitted (tfState [] [0x73, 1, 2, 3, 4] 0 [] Planes.empty) =
    some ([1, 2, 3, 4], .running, false, PatternCache.initial) := by decide
/-- S9: a cut literal run. -/
theorem test_lit_cut : emitted (tfState [] [0x71, 0x42] 0 [] Planes.empty) =
    some ([0x42], .trunc, false, PatternCache.initial) := by decide
/-- V2.91. -/
theorem test_nib : emitted (tfState [] [0x81, 0xAB] 0 [] Planes.empty) =
    some ([0xBB, 0xAA, 0xBB, 0xAA], .running, false, PatternCache.initial) := by decide
/-- V2.94. -/
theorem test_rmr : emitted (tfState [] [0x93, 0x06] 640 [] (plane0 0xFF 8)) =
    some ([0xAA, 0x55, 0xAA, 0x55, 0xAA, 0x55, 0xAA, 0x55], .running, false, ⟨0x00, 0xFF, 0xAA, 0x55⟩) := by decide
/-- V2.96. -/
theorem test_rmri : emitted (tfState [] [0x9C, 0x03, 0x06] 640 [] (plane0 0xFF 8)) =
    some ([0x03, 0x0C, 0x30, 0xC0, 0x03, 0x0C, 0x30, 0xC0], .running, false, ⟨0x00, 0xFF, 0x03, 0x55⟩) := by decide
/-- V2.99. -/
theorem test_rle : emitted (tfState [] [0xA0, 0x55] 0 [] Planes.empty) =
    some ([0x55, 0x55], .running, false, PatternCache.initial) := by decide
/-- V2.110: a table distance of 0 means 1. -/
theorem test_mLbr : emitted (tfState [0x22, 0x00] [0x00] 1 (Memory.ofBytes 0 [0x41]) Planes.empty) =
    some ([0x41, 0x41, 0x41, 0x41, 0x41], .running, false, PatternCache.initial) := by decide
/-- V2.112. -/
theorem test_mPrd : emitted (tfState [0x32, 0x01] [0x00] 1 (Memory.ofBytes 0 [0x81]) Planes.empty) =
    some ([0x03, 0x06, 0x0C], .running, false, PatternCache.initial) := by decide
/-- V2.113. -/
theorem test_mPbr :
    emitted (tfState [0x40, 0x00] [0x00] 80 [] { Planes.empty with m0 := [(6240, 0xAA), (6320, 0xBB)] }) =
      some ([0xBB, 0xAA], .running, false, PatternCache.initial) := by decide
/-- V2.114. -/
theorem test_mMrd : emitted (tfState [0x53, 0x00] [0x00] 640 [] (plane0 0xF3 2)) =
    some ([0xA2, 0xA2], .running, false, ⟨0x00, 0xFF, 0xAA, 0x55⟩) := by decide
/-- V2.115. -/
theorem test_mLit : emitted (tfState [0x70, 0x42] [0x00] 0 [] Planes.empty) =
    some ([0x42], .running, false, PatternCache.initial) := by decide
/-- V2.116. -/
theorem test_mNib : emitted (tfState [0x81, 0xAB] [0x00] 0 [] Planes.empty) =
    some ([0xBB, 0xAA, 0xBB, 0xAA], .running, false, PatternCache.initial) := by decide
/-- V2.117. -/
theorem test_mRmr : emitted (tfState [0x92, 0x06] [0x00] 640 [] (plane0 0xFF 8)) =
    some ([0x55, 0xAA, 0x55, 0xAA, 0x55, 0xAA, 0x55, 0xAA], .running, false, ⟨0x00, 0x55, 0xFF, 0xAA⟩) := by decide
/-- V2.118. -/
theorem test_mRle : emitted (tfState [0xA5, 0x99] [0x00] 0 [] Planes.empty) =
    some ([0x99, 0x99, 0x99, 0x99, 0x99, 0x99, 0x99], .running, false, PatternCache.initial) := by decide

/-- STATUS, TF_REFUSE, OOBF and SP after one step. -/
def refusal (s : State) : Option (TfStatus × TfRefuse × Bool × Nat) :=
  match step s with
  | .next t => some (t.tf.status, t.tf.result.refuse, t.tf.oobf, t.tf.sp)
  | _ => none

/-- V2.119: an index past the table. -/
theorem test_mac_past_table : refusal (tfState [] [0x05] 0 [] Planes.empty) =
    some (.refused, ⟨0x05, 10, 0x00⟩, true, 11) := by decide
/-- V2.120's word 009D, as the first command. -/
theorem test_mRefused : refusal (tfState [0x9D, 0x00] [0x00] 0 [] Planes.empty) =
    some (.refused, ⟨0x00, 12, 0x9D⟩, false, 13) := by decide
/-- V2.102: a missing operand. -/
theorem test_missing_operand : emitted (tfState [] [0x5C, 0x11] 0 [] Planes.empty) =
    some ([], .trunc, false, PatternCache.initial) := by decide
/-- The word A0 55 as the first instruction after reset. -/
theorem test_withFetchWord : emitted (State.reset.withFetchWord 16 0x55A0) =
    some ([0x55, 0x55], .running, false, PatternCache.initial) := by decide

/-! ### LS11: one record or symbol on a small state -/

/-- The symbol loop over a slice at the start of the buffer. -/
def lsState (slice : List Byte) (ulen bc : Nat) (eout dict : Memory) (ep : Nat) : State :=
  { State.reset with
    engine := .ls11
    ls :=
      { Ls11.atStart (Buffer.ofBytes slice) .decode with
        phase := .symbols
        cur := ⟨BitVec.ofNat 32 slice.length, BitVec.ofNat 32 ulen, 0⟩
        bc := bc
        eout := eout
        ep := ep
        dict := dict } }

/-- EOUT[0..EP), BC and EOOB after one step. -/
def symbolStep (s : State) : Option (List Byte × Nat × Bool) :=
  match step s with
  | .next t => some ((List.range t.ls.ep).map fun i => t.ls.eout.read i, t.ls.bc, t.ls.eoob)
  | _ => none

/-- V2.7, its first symbol. -/
theorem test_litc : symbolStep (lsState [0xF8, 0x3F, 0x84, 0xFE, 0x04, 0x80] 7 0 [] [(0x41, 0x41)] 0) =
    some ([0x41], 12, false) := by decide
/-- V2.7, its match. -/
theorem test_matchSym :
    symbolStep (lsState [0xF8, 0x3F, 0x84, 0xFE, 0x04, 0x80] 7 24 (Memory.ofBytes 0 [0x41, 0x42]) [] 2) =
      some ([0x41, 0x42, 0x41, 0x42, 0x41, 0x42, 0x41], 44, false) := by decide
/-- V2.10: a distance past the start. -/
theorem test_matchSym_far :
    symbolStep (lsState [0xFC, 0x03, 0xF8, 0x1C] 4 14 (Memory.ofBytes 0 [0x7E]) [] 1) =
      some ([0x7E, 0x00, 0x00, 0x00], 32, true) := by decide
/-- V2.14: a match whose length code is cut off emits nothing; the entry is ended. -/
theorem test_cut_match : symbolStep (lsState [0x7F, 0x80, 0xFF] 6 2 (Memory.ofBytes 0 [0x01]) [] 1) =
    some ([0x01], 24, false) := by decide

/-- An LS11 engine in a phase, with an archive of the given length that holds the given bytes at an offset. -/
def archive (phase : LsPhase) (len off : Nat) (bytes : List Byte) (fat : List FatRec) : State :=
  { State.reset with
    engine := .ls11
    ls := { Ls11.atStart ⟨len, Memory.ofBytes off bytes⟩ .decode with phase := phase, fat := fat } }

/-- The phase, LS_FAULT and LS_FAULT_REC after one step. -/
def phaseStep (s : State) : Option (LsPhase × LsFault × Nat) :=
  match step s with
  | .next t => some (t.ls.phase, t.ls.fault, t.ls.faultRec)
  | _ => none

/-- V2.20. -/
theorem test_header_short : phaseStep (archive .start 271 0 [] []) = some (.ended, .hdrShort, 0) := by decide
/-- V2.22. -/
theorem test_fat_trunc : phaseStep (archive .fat 275 0 [] []) = some (.ended, .fatTrunc, 0) := by decide
/-- V2.23. -/
theorem test_fatSentinel : phaseStep (archive .fat 276 0 [] []) = some (.validate, .none, 0) := by decide
/-- V2.28. -/
theorem test_fat_range : phaseStep (archive .validate 300 0 [] [⟨20, 40, 290⟩]) = some (.ended, .fatRange, 0) := by
  decide
/-- P1, entry 0. -/
theorem test_entryVerbatim :
    (match step (archive .entries 325 312 [0x01, 0x02, 0x03] [⟨3, 3, 312⟩]) with
      | .next t => some t.ls.entries
      | _ => none) =
      some [⟨⟨3, [(0, 0x01), (1, 0x02), (2, 0x03)]⟩, .verbatim, 3, false, false⟩] := by decide
/-- R39: the flags of the coded entry before it are reset. -/
theorem test_entryVerbatim_flags :
    (match exec (.entryVerbatim 3 312)
        { archive .entries 325 312 [] [] with
          ls := { (archive .entries 325 312 [] []).ls with eshort := true, eoob := true } } with
      | .next t => some (t.ls.eshort, t.ls.eoob)
      | _ => none) = some (false, false) := by decide
/-- P1, entry 1. -/
theorem test_entryCoded : phaseStep (archive .entries 325 0 [] [⟨6, 7, 315⟩]) = some (.symbols, .none, 0) := by decide

/-! ### Reset -/

theorem test_reset_memory :
    State.reset.tf.canonical ∧ State.reset.ls.input.wf ∧ State.reset.ls.hdr.wf ∧ State.reset.ls.dict.wf ∧
      State.reset.ls.eout.wf := by decide

/-! ### Witnesses: the hypotheses of each obligation can be met -/

/-- A running engine with room for all of the output. -/
def start : State := tfState [] [0x71, 0x42] 0 [] Planes.empty

/-- A running engine with room for one byte. -/
def last : State := tfState [] [0x71, 0x42] 1919 [] Planes.empty

/-- Both are states that every statement about a command allows. -/
theorem witness_ready : (start.tf.ready ∧ start.tf.canonical ∧ start.tf.po.isPermutation) ∧
    (last.tf.ready ∧ last.tf.canonical ∧ last.tf.po.isPermutation) ∧ start.tf.p = 0 ∧ last.tf.p = 1919 :=
  ⟨⟨by decide, by decide, by decide⟩, ⟨by decide, by decide, by decide⟩, rfl, rfl⟩

theorem witness_DecodeEncodeAgree :
    (Instr.rle 2 0).wellFormed = true ∧ encode (.rle 2 0) = .command [0xA0, 0x00] ∧
      (Instr.rle 97 0).wellFormed = true ∧ (Instr.lit 15 (List.replicate 16 0)).wellFormed = true ∧
      (Instr.matchSym 0 3).wellFormed = true ∧
      encode (.matchSym 0 3) =
        .symbol (bits ([1, 1, 1, 1, 1, 1, 1, 0, 0, 0, 0, 0, 0, 0, 1, 0] ++ [0, 0])) := by decide

theorem witness_CodeFormat : [true].length = 0 + 1 ∧ (List.replicate 9 false).length = 8 + 1 := by decide

theorem witness_CodeHasOneEncoding :
    readCode [false, false] = some (⟨0, 1, 0⟩, []) ∧ readCode [true, false, true, true] = some (⟨2, 2, 3⟩, []) ∧
      (2 ^ (0 + 1) - 2 ≤ 0 ∧ 1 ≤ 2 ^ (0 + 2) - 3) ∧ 2 ^ (7 + 1) - 2 ≤ 254 ∧ 509 ≤ 2 ^ (7 + 2) - 3 := by
  decide

theorem witness_CommandMapTotal : 16 ≤ (List.replicate 16 (0 : Byte)).length := by decide

/-- The last two lines are S9, a LIT whose second literal is missing, and one with no literal at all. -/
theorem witness_StepRunsCommand :
    start.engine = .tfdce ∧ start.tf.phase = .run ∧ start.tf.ready ∧
      (tfState [] [0x22, 0x02] 0 [] Planes.empty).tf.input.bytesFrom 10 17 = [0x22, 0x02] ∧
      decodeCommand 0x22 [0x02] = .ok (.lbr 2 2, []) ∧
      (tfState [] [0x5C, 0x3C, 0x00] 0 [] Planes.empty).tf.input.bytesFrom 10 17 = [0x5C, 0x3C, 0x00] ∧
      decodeCommand 0x5C [0x3C, 0x00] = .ok (.mrdi 0 0x3C 0x00, []) ∧
      (tfState [] [0x05] 0 [] Planes.empty).tf.input.bytesFrom 10 17 = [0x05] ∧
      decodeCommand 0x05 [] = .ok (.mac 5, []) ∧
      (start.tf.input.bytesFrom start.tf.sp 17 = [0x71, 0x42] ∧ (0x71 : Byte).toNat / 16 = 7 ∧
        [(0x42 : Byte)].length < (0x71 : Byte).toNat % 16 + 1) ∧
      (tfState [] [0x70] 0 [] Planes.empty).tf.input.bytesFrom 10 17 = [0x70] ∧
      ([] : List Byte).length < (0x70 : Byte).toNat % 16 + 1 :=
  ⟨rfl, rfl, by decide, by decide, rfl, by decide, rfl, by decide, rfl, by decide, by decide, by decide⟩

/-- A literal with four bits after it, one byte short of the target, and a match with four bits after it (V2.7). -/
theorem witness_StepRunsSymbol :
    (lsState [0xF8, 0x30] 7 0 [] [] 6).engine = .ls11 ∧ (lsState [0xF8, 0x30] 7 0 [] [] 6).ls.phase = .symbols ∧
      (lsState [0xF8, 0x30] 7 0 [] [] 6).ls.ep < 7 ∧ (lsState [0xF8, 0x30] 7 0 [] [] 6).ls.bc < 8 * 2 ∧
      (Instr.litc 0x41).wellFormed = true ∧
      encode (.litc 0x41) = .symbol (bits [1, 1, 1, 1, 1, 0, 0, 0, 0, 0, 1, 1]) ∧
      (lsState [0xF8, 0x30] 7 0 [] [] 6).ls.pendingBits =
        bits [1, 1, 1, 1, 1, 0, 0, 0, 0, 0, 1, 1] ++ bits [0, 0, 0, 0] ∧
      (lsState [0xFE, 0x04, 0x80] 7 0 [] [] 2).ls.ep < 7 ∧ (lsState [0xFE, 0x04, 0x80] 7 0 [] [] 2).ls.bc < 8 * 3 ∧
      (Instr.matchSym 2 5).wellFormed = true ∧
      encode (.matchSym 2 5) = .symbol (bits ([1, 1, 1, 1, 1, 1, 1, 0, 0, 0, 0, 0, 0, 1, 0, 0] ++ [1, 0, 0, 0])) ∧
      (lsState [0xFE, 0x04, 0x80] 7 0 [] [] 2).ls.pendingBits =
        bits ([1, 1, 1, 1, 1, 1, 1, 0, 0, 0, 0, 0, 0, 1, 0, 0] ++ [1, 0, 0, 0]) ++ bits [0, 0, 0, 0] := by decide

theorem witness_StepRunsRecord :
    (archive .entries 325 0 [] [⟨3, 3, 312⟩, ⟨6, 7, 315⟩]).ls.fat[0]? = some ⟨3, 3, 312⟩ ∧
      (archive .entries 325 0 [] [⟨6, 7, 315⟩]).ls.fat[0]? = some ⟨6, 7, 315⟩ ∧ (3 : Word32) ≠ 0 ∧ (6 : Word32) ≠ 0 ∧
      (archive .entries 325 0 [] []).engine = .ls11 ∧ (archive .entries 325 0 [] []).ls.phase = .entries := by decide

/-- No operand of one, and one operand of two. -/
theorem witness_MissingOperandHalts :
    (tfState [] [0x20] 0 [] Planes.empty).tf.input.bytesFrom 10 17 = [0x20] ∧ ([] : List Byte).length < operandCount 0x20 ∧
      (tfState [] [0x5C, 0x11] 0 [] Planes.empty).tf.input.bytesFrom 10 17 = [0x5C, 0x11] ∧
      [(0x11 : Byte)].length < operandCount 0x5C ∧ (tfState [] [0x20] 0 [] Planes.empty).tf.ready := by decide

/-- A full output, a stream pointer at the end and past it, and a stopped engine. -/
theorem witness_EndOfRun :
    (tfState [] [] 1920 [] Planes.empty).tf.status = .running ∧ (tfState [] [] 1920 [] Planes.empty).tf.p = 1920 ∧
      (tfState [] [] 1919 [] Planes.empty).tf.ready ∧
      (tfState [] [] 1919 [] Planes.empty).tf.input.len ≤ (tfState [] [] 1919 [] Planes.empty).tf.sp ∧
      (TfDce.atStart (Buffer.ofBytes [0])).input.len ≤ (TfDce.atStart (Buffer.ofBytes [0])).sp ∧
      start.tf.haltTrunc.status ≠ .running := by decide

theorem witness_ZigzagBijection : 1919 / 640 = 1919 / 640 ∧ zigzag 639 = zigzag 639 ∧ 79 < 80 ∧ 7 < 8 := by decide

theorem witness_EmitEffect : start.tf.ready ∧ start.tf.canonical ∧ last.tf.ready ∧ last.tf.canonical := by decide

theorem witness_OutReadZeroFill :
    (1 ≤ 1919 ∧ 1919 ≤ last.tf.p) ∧ (1 ≤ 1 ∧ 1 ≤ last.tf.p) ∧ last.tf.p < 1920 ∧ start.tf.p < 1 := by decide

theorem witness_DestReadZeroFill : 0 ≤ zigzag start.tf.p ∧ zigzag start.tf.p < 1 ∧ 7 ≤ zigzag last.tf.p ∧
    zigzag last.tf.p < 8 := by decide

theorem witness_PlaneSelectors : 0 < 1920 ∧ 639 < 640 ∧ 640 < 1280 ∧ 1279 < 1280 ∧ 1919 < 1920 := by decide

theorem witness_PlaneOrderLookup : (0xC7 : Byte) ∉ [(0xC6 : Byte), 0xC9, 0xD2, 0xD8, 0xE1, 0xE4] := by decide

theorem witness_LinearBackReferences : start.tf.ready ∧ start.tf.canonical ∧ last.tf.ready ∧ last.tf.canonical := by
  decide

/-- Each of the four transforms has its command. -/
theorem witness_PlaneReads (sel : BitVec 2) (c : Byte) :
    start.tf.ready ∧ start.tf.canonical ∧
      ∀ x : BitVec 2, ∃ (f : Byte → Byte) (i : Instr),
        ((x = 0 ∧ f = id) ∨ (x = 1 ∧ f = fun b => ~~~b) ∨ (x = 2 ∧ f = fun b => b.rotateLeft 1) ∨
          (x = 3 ∧ f = fun b => b.rotateRight 1)) ∧
        i ≠ .mPrd sel x c ∧
        ((x = 0 ∧ i = .prd sel c) ∨ (x = 1 ∧ i = .prdn sel c) ∨ (x = 2 ∧ i = .prdl sel c) ∨
          (x = 3 ∧ i = .prdr sel c)) := by
  refine ⟨by decide, by decide, fun x => ?_⟩
  have hx : x = 0 ∨ x = 1 ∨ x = 2 ∨ x = 3 := by revert x; decide
  rcases hx with rfl | rfl | rfl | rfl
  · exact ⟨_, .prd sel c, .inl ⟨rfl, rfl⟩, by simp, .inl ⟨rfl, rfl⟩⟩
  · exact ⟨_, .prdn sel c, .inr (.inl ⟨rfl, rfl⟩), by simp, .inr (.inl ⟨rfl, rfl⟩)⟩
  · exact ⟨_, .prdl sel c, .inr (.inr (.inl ⟨rfl, rfl⟩)), by simp, .inr (.inr (.inl ⟨rfl, rfl⟩))⟩
  · exact ⟨_, .prdr sel c, .inr (.inr (.inr ⟨rfl, rfl⟩)), by simp, .inr (.inr (.inr ⟨rfl, rfl⟩))⟩

theorem witness_PlaneBackReferences :
    (start.tf.ready ∧ start.tf.canonical ∧ start.tf.po.isPermutation) ∧
      last.tf.ready ∧ last.tf.canonical ∧ last.tf.po.isPermutation :=
  ⟨⟨by decide, by decide, by decide⟩, by decide, by decide, by decide⟩

theorem witness_CachedMaskReads : start.tf.ready ∧ start.tf.canonical ∧ last.tf.ready ∧ last.tf.canonical := by decide
theorem witness_ImmediateMaskRead : start.tf.ready ∧ start.tf.canonical ∧ last.tf.ready ∧ last.tf.canonical := by decide
theorem witness_CachedRotatingReads : start.tf.ready ∧ start.tf.canonical ∧ last.tf.ready ∧ last.tf.canonical := by
  decide
theorem witness_ImmediateRotatingRead : start.tf.ready ∧ start.tf.canonical ∧ last.tf.ready ∧ last.tf.canonical := by
  decide
theorem witness_PairRepeats : start.tf.ready ∧ start.tf.canonical ∧ last.tf.ready ∧ last.tf.canonical := by decide
theorem witness_NibblePairRepeats : start.tf.ready ∧ start.tf.canonical ∧ last.tf.ready ∧ last.tf.canonical := by
  decide
theorem witness_TableLiteral : start.tf.ready ∧ start.tf.canonical ∧ last.tf.ready ∧ last.tf.canonical := by decide

theorem witness_LiteralRun : start.tf.ready ∧ start.tf.canonical ∧ last.tf.ready ∧ last.tf.canonical ∧
    [(0x42 : Byte)].length = (0 : BitVec 4).toNat + 1 ∧
    (List.replicate 16 (0 : Byte)).length = (15 : BitVec 4).toNat + 1 := by decide

/-- No literal of one, and fifteen of sixteen; and one of two, where it fills the output. -/
theorem witness_CutLiteralRun : start.tf.ready ∧ start.tf.canonical ∧ last.tf.ready ∧ last.tf.canonical ∧
    ([] : List Byte).length < (0 : BitVec 4).toNat + 1 ∧
    (List.replicate 15 (0 : Byte)).length < (15 : BitVec 4).toNat + 1 ∧
    [(0x42 : Byte)].length < (1 : BitVec 4).toNat + 1 ∧ ¬last.tf.p + [(0x42 : Byte)].length < 1920 := by decide

theorem witness_Fills : start.tf.ready ∧ start.tf.canonical ∧ (Instr.rle 2 0).wellFormed = true ∧
    (Instr.rle 97 0).wellFormed = true ∧ (Instr.mRle 2 0).wellFormed = true ∧
    (Instr.mRle 97 0).wellFormed = true := by decide

/-- An index past an empty table (V2.119), and the largest MAC. -/
theorem witness_RefusalNamesTheCommand :
    (tfState [] [0x1F] 0 [] Planes.empty).tf.ready ∧
      (tfState [] [0x1F] 0 [] Planes.empty).tf.input.bytesFrom 10 17 = [0x1F] ∧ (0x1F : Byte).toNat < 0x20 ∧
      refusedWlo ((tfState [] [0x1F] 0 [] Planes.empty).tf.tableByte (2 * 31)) = true ∧
      (tfState [0x9D, 0x00] [0x00] 0 [] Planes.empty).tf.input.bytesFrom 12 17 = [0x00] ∧
      refusedWlo ((tfState [0x9D, 0x00] [0x00] 0 [] Planes.empty).tf.tableByte 0) = true := by decide

theorem witness_BitReadingOrder : (lsState [0xA0] 4 0 [] [] 0).ls.bc + 7 < 8 * 1 ∧
    (lsState [0xA0] 4 7 [] [] 0).ls.bc + 0 < 8 * 1 := by decide

theorem witness_LiteralSymbol : (lsState [0xA0] 4 0 [] [] 3).ls.ep < 4 ∧
    (lsState [0xA0] 4 0 [] [] 3).ls.canonical := by
  refine ⟨by decide, by decide, by decide, by decide, by decide, fun e h => by cases h⟩

/-- A match with no room left, and one with room. -/
theorem witness_MatchSymbol : (lsState [0xA0] 4 0 [] [] 4).ls.ep ≤ 4 ∧ (lsState [0xA0] 4 0 [] [] 0).ls.ep ≤ 4 ∧
    (lsState [0xA0] 4 0 [] [] 4).ls.canonical := by
  refine ⟨by decide, by decide, by decide, by decide, by decide, by decide, fun e h => by cases h⟩

theorem witness_VerbatimRecord :
    (322 : Word32).toNat + (3 : Word32).toNat ≤ (archive .entries 325 0 [] []).ls.input.len := by decide

theorem witness_CodedRecord :
    (321 : Word32).toNat + (4 : Word32).toNat ≤ (archive .entries 325 0 [] []).ls.input.len := by decide

theorem witness_SliceOutsideArchiveStops :
    (archive .entries 325 0 [] []).ls.input.len < (323 : Word32).toNat + (3 : Word32).toNat := by decide

theorem witness_ArchiveStart :
    (archive .start 271 0 [] []).engine = .ls11 ∧ (archive .start 271 0 [] []).ls.phase = .start ∧
      (archive .start 271 0 [] []).ls.input.len < 272 ∧ 272 ≤ (archive .start 272 0 [] []).ls.input.len := by decide

/-- The three clauses: V2.22, V2.23, and a record of eleven bytes. -/
theorem witness_FatTermination :
    (archive .fat 275 0 [] []).ls.input.len < 272 + 4 ∧ 272 + 4 ≤ (archive .fat 276 0 [] []).ls.input.len ∧
      (archive .fat 276 0 [] []).ls.input.u32 272 = 0 ∧ (archive .fat 283 275 [1] []).ls.input.u32 272 ≠ 0 ∧
      (archive .fat 283 275 [1] []).ls.input.len < 272 + 12 := by decide

/-- A record whose twelve bytes are the last of the archive. -/
theorem witness_FatRecordAppended :
    (archive .fat 284 275 [1] []).engine = .ls11 ∧ (archive .fat 284 275 [1] []).ls.phase = .fat ∧
      272 + 12 * (archive .fat 284 275 [1] []).ls.fat.length + 12 ≤ (archive .fat 284 275 [1] []).ls.input.len ∧
      (archive .fat 284 275 [1] []).ls.input.u32 (272 + 12 * (archive .fat 284 275 [1] []).ls.fat.length) ≠ 0 := by
  decide

/-- V2.28, a record that ends at the end of the archive, and both modes. -/
theorem witness_FatValidation :
    (archive .validate 300 0 [] [⟨20, 40, 290⟩]).ls.fat[0]? = some ⟨20, 40, 290⟩ ∧
      ¬(FatRec.mk 20 40 290).inside 300 ∧ (FatRec.mk 10 40 290).inside 300 ∧
      (archive .validate 300 0 [] [⟨10, 40, 290⟩]).ls.mode = .decode := by
  refine ⟨by decide, ?_, ?_, by decide⟩ <;> unfold FatRec.inside <;> decide

/-- A full target, no bits left, and a symbol that is cut off (V2.18). -/
theorem witness_CodedEntryEnd :
    4 ≤ (lsState [0xA0] 4 0 [] [] 4).ls.ep ∧ 8 * 1 ≤ (lsState [0xA0] 4 8 [] [] 3).ls.bc ∧
      readSymbol (lsState [0xFF] 3 0 [] [] 0).ls.pendingBits = none := by decide

theorem witness_ArchiveResult :
    (archive .entries 300 0 [] []).ls.entries.length = (archive .entries 300 0 [] []).ls.fat.length ∧
      (archive .ended 300 0 [] []).ls.phase = .ended := by decide

/-- S5: an all-zero dictionary. -/
theorem witness_ZeroDictionary :
    (lsState [0x00] 4 0 [] [] 0).ls.phase = .symbols ∧ (lsState [0x00] 4 0 [] [] 0).ls.canonical ∧
      (∀ a, (lsState [0x00] 4 0 [] [] 0).ls.dict.read a = 0) ∧
      (∀ a, (lsState [0x00] 4 0 [] [] 0).ls.eout.read a = 0) ∧
      ∃ t, step (lsState [0x00] 4 0 [] [] 0) = .next t :=
  ⟨rfl, ⟨by decide, by decide, by decide, by decide, fun e h => by cases h⟩, fun _ => rfl, fun _ => rfl, _, rfl⟩

theorem witness_RecordStart : State.reset.engine = .tfdce ∧ State.reset.tf.phase = .start := by decide

theorem witness_StepKeepsInvariant : State.reset.Inv ∧ ∃ t, step State.reset = .next t :=
  ⟨⟨TfDce.atStart_inv (by decide), Ls11.atStart_inv (by decide)⟩, _, rfl⟩

theorem witness_InvariantAtStart : State.reset.Inv ∧ (Buffer.ofBytes [0x71, 0x42]).wf :=
  ⟨witness_StepKeepsInvariant.1, by decide⟩

theorem witness_StepAlwaysAnswers : State.reset.Inv := witness_StepKeepsInvariant.1

theorem witness_UnusedPlaneCells :
    (TfDce.initialise (Buffer.ofBytes [0x71])).Inv ∧ (TfDce.initialise (Buffer.ofBytes [0x71])).phase = .run ∧
      8 ≤ 79 % 80 ∧ 8 ≤ 8 % 80 :=
  ⟨TfDce.initialise_inv (by decide), rfl, by decide, by decide⟩

theorem witness_EnginesShareNoState :
    (∃ t, step State.reset = .next t) ∧ ∃ t, step (archive .start 271 0 [] []) = .next t := ⟨⟨_, rfl⟩, _, rfl⟩

theorem witness_InputsAreReadOnly :
    (∃ t, step State.reset = .next t) ∧ ∃ t, step (archive .start 271 0 [] []) = .next t := ⟨⟨_, rfl⟩, _, rfl⟩

theorem witness_CallsForgetThePast :
    (∃ t, Sys2Proof.core.run 1 (start.callTfdce Buffer.empty) = .next t) ∧
      ∃ t, Sys2Proof.core.run 1 (start.callLs11 Buffer.empty .decode) = .next t := ⟨⟨_, rfl⟩, _, rfl⟩

theorem witness_RecordCallTerminates : start.engine = .tfdce ∧ start.tf.phase = .run := by decide

/-- An archive of one coded record (CLEN 1, ULEN 4, OFF 284), just after its load. -/
def loaded : State :=
  { State.reset with
    engine := .ls11
    ls :=
      Ls11.initialise ⟨285, [(275, 1), (279, 4), (282, 0x01), (283, 0x1C), (284, 0xA0)]⟩ .decode }

/-- The same call inside the symbol loop of that record. -/
def looping : State :=
  { loaded with ls := { loaded.ls with phase := .symbols, fat := [⟨1, 4, 284⟩], cur := ⟨1, 4, 284⟩ } }

/-- A call at its start, one in the FAT parse and one in the symbol loop. -/
theorem witness_ArchiveCallTerminates :
    (State.reset.callLs11 Buffer.empty .decode).engine = .ls11 ∧
      (State.reset.callLs11 Buffer.empty .decode).Inv ∧
      (loaded.engine = .ls11 ∧ loaded.Inv ∧ loaded.ls.phase = .fat) ∧
      looping.engine = .ls11 ∧ looping.Inv ∧ looping.ls.phase = .symbols ∧ ∃ t, step looping = .next t := by
  have htf : State.reset.tf.Inv := TfDce.atStart_inv (by decide)
  refine ⟨rfl, ⟨htf, Ls11.atStart_inv (by decide)⟩, ⟨rfl, ⟨htf, ?_, ?_⟩, rfl⟩, rfl, ⟨htf, ?_, ?_⟩, rfl, _, rfl⟩
  · exact ⟨by decide, by decide, by decide, by decide, fun e h => by cases h⟩
  · exact ⟨⟨by decide, rfl, rfl, fun i r h => by cases h⟩, rfl⟩
  · exact ⟨by decide, by decide, by decide, by decide, fun e h => by cases h⟩
  · refine ⟨⟨by decide, rfl, rfl, fun i r h => ?_⟩, fun r h => ?_, rfl, ⟨by decide, fun i e h => by cases h⟩, rfl,
      by decide, by decide, by decide, by decide⟩
    · cases i with
      | zero =>
        cases h
        exact ⟨by decide, by decide⟩
      | succ i => cases h
    · simp only [looping, List.mem_singleton] at h
      subst h
      decide

end Sys2Proof.Tests.Slice0
end

section
namespace Sys2Proof.Machine

/-- R45 slot by slot: the old slot 2 moves to slot 3 before the mask takes its place, and no slot of the result
comes from the old slot 3. -/
theorem PatternCache.promote_eq (pc : PatternCache) (m : Byte) :
    pc.promote m = ⟨pc.s0, pc.s1, m, pc.s2⟩ := rfl

/-- Settles O19: the slot-by-slot equation of R45, for a cache written out by its four slots. -/
theorem cachePromotion : Obligations.CachePromotion := by
  unfold Obligations.CachePromotion
  intro a b c d m
  exact PatternCache.promote_eq ⟨a, b, c, d⟩ m

end Sys2Proof.Machine
end

section
namespace Sys2Proof.Machine

/-- R31, R77: bit i of the slice is the digit of weight 2^(7 − i mod 8) of slice byte floor(i/8). -/
theorem Ls11.bitAt_eq_decide_div_mod (l : Ls11) (i : Nat) :
    l.bitAt i =
      decide ((l.input.read (l.cur.off.toNat + i / 8)).toNat / 2 ^ (7 - i % 8) % 2 = 1) := by
  rw [Ls11.bitAt, BitVec.getLsbD, Nat.testBit_eq_decide_div_mod_eq]

/-- R160: as many bits are pending as the slice has after BC. -/
theorem Ls11.length_pendingBits (l : Ls11) : l.pendingBits.length = 8 * l.cur.clen.toNat - l.bc :=
  l.length_bitsFrom l.bc _

/-- R160: the i-th pending bit is the bit of the slice i places after BC. -/
theorem Ls11.getElem?_pendingBits (l : Ls11) {i : Nat} (h : l.bc + i < 8 * l.cur.clen.toNat) :
    l.pendingBits[i]? = some (l.bitAt (l.bc + i)) :=
  l.getElem?_bitsFrom (Nat.lt_sub_iff_add_lt'.mpr h)

/-- R161: a 1 is accumulated and phase A goes on. -/
theorem readUnary_true (acc cnt : Nat) (rest : List Bool) :
    readUnary acc cnt (true :: rest) = readUnary (acc * 2 + 1) (cnt + 1) rest := rfl

/-- R161: the first 0 is accumulated and ends phase A. -/
theorem readUnary_false (acc cnt : Nat) (rest : List Bool) :
    readUnary acc cnt (false :: rest) = some (acc * 2, cnt + 1, rest) := rfl

/-- R162: phase B accumulates the next bit and has one bit fewer to read. -/
theorem readBinary_cons (n acc : Nat) (b : Bool) (rest : List Bool) :
    readBinary acc (n + 1) (b :: rest) = readBinary (acc * 2 + b.toNat) n rest := rfl

/-- Settles O36: the pending bits are the slice's bits from BC on, each read as a binary digit of its byte, and
the two phases of getCode are the accumulations of R161 and R162. -/
theorem bitReadingOrder : Obligations.BitReadingOrder := by
  unfold Obligations.BitReadingOrder
  refine ⟨fun l => ⟨l.length_pendingBits, fun i hi => ?_⟩, fun acc cnt rest => ?_, readBinary_cons⟩
  · rw [l.getElem?_pendingBits hi, l.bitAt_eq_decide_div_mod]
  · exact ⟨readUnary_true acc cnt rest, readUnary_false acc cnt rest⟩

end Sys2Proof.Machine
end

section
namespace Sys2Proof.Machine

/-! ### The literal -/

/-- Settles O37: EP < ULEN lets the byte through to EOUT, and in a canonical EOUT one write changes one byte. -/
theorem literalSymbol : Obligations.LiteralSymbol := by
  unfold Obligations.LiteralSymbol
  rintro c s hep ⟨-, -, -, heout, -⟩
  refine ⟨s.ls.eout.write s.ls.ep (s.ls.dict.read c.toNat), ?_, fun q => Memory.read_write heout⟩
  calc exec (.litc c) s = .next { s with ls := s.ls.literal c } := rfl
    _ = _ := by rw [Ls11.literal_eq hep]

/-! ### The symbol step -/

/-- The encoding of a well-formed symbol is read back as it, whatever bits follow (R103, R104, R164). -/
theorem readSymbol_encode {i : Instr} {bits : List Bool} (hi : i.wellFormed = true)
    (he : encode i = .symbol bits) (rest : List Bool) :
    ∃ r, readSymbol (bits ++ rest) = some r ∧ r.instr = i ∧ r.rest = rest := by
  cases i <;> simp only [encode, Encoded.symbol.injEq, reduceCtorEq] at he
  case litc c =>
    subst he
    obtain ⟨r, hr, hv, -⟩ := readSymbol_litc c rest
    exact ⟨_, hr, by simp [SymbolRead.instr, hv], rfl⟩
  case matchSym dist len =>
    subst he
    obtain ⟨r, r', hr, hv, -, hv', -⟩ :=
      readSymbol_matchSym (dist + 256) (len - Config.lsMinMatch) rest (Nat.le_add_left 256 dist)
    have hlen : Config.lsMinMatch ≤ len := of_decide_eq_true hi
    exact ⟨_, by rw [List.append_assoc, hr], by simp [SymbolRead.instr, hv, hv', Nat.sub_add_cancel hlen], rfl⟩

/-- The first code of a symbol that has been read is the literal's byte, or 256 more than the distance: a code
below 256 is never read as a match, nor one from 256 on as a literal (R164). -/
theorem readSymbol_code {bits : List Bool} {r : SymbolRead} (h : readSymbol bits = some r) :
    (∀ c, r.instr = .litc c → r.first.value = c.toNat) ∧
      ∀ dist len, r.instr = .matchSym dist len → r.first.value = 256 + dist := by
  unfold readSymbol at h
  split at h
  · cases h
  · rename_i c bits' hc
    split at h
    · rename_i hlit
      cases h
      refine ⟨fun b hb => ?_, fun _ _ hm => by simp [SymbolRead.instr] at hm⟩
      obtain rfl : BitVec.ofNat 8 c.value = b := Instr.litc.inj hb
      exact (Nat.mod_eq_of_lt hlit).symm
    · rename_i hmatch
      split at h
      · cases h
      · cases h
        refine ⟨fun _ hb => by simp [SymbolRead.instr] at hb, fun dist len hm => ?_⟩
        obtain rfl : c.value - 256 = dist := (Instr.matchSym.inj hm).1
        exact (Nat.add_sub_cancel' (Nat.le_of_not_lt hmatch)).symm

/-- A symbol has as many bits as stood before what it leaves over (R160). -/
theorem symbolBits_of_readSymbol {bits : List Bool} {r : SymbolRead}
    (h : readSymbol (bits ++ r.rest) = some r) : symbolBits r = bits.length := by
  obtain ⟨used, hused, hlen, -⟩ := readSymbol_inv h
  rw [← hlen, List.append_cancel_right hused]

/-- A step inside the symbol loop that finds a whole symbol runs it past its bits (R164). -/
theorem step_symbol {s : State} {r : SymbolRead} (heng : s.engine = .ls11) (hph : s.ls.phase = .symbols)
    (hleft : s.ls.symbolsLeft = true) (hr : readSymbol s.ls.pendingBits = some r) :
    step s = exec r.instr { s with ls := s.ls.consume r } := by
  rw [step_eq_fetchLs heng, fetchLs_symbol hph hleft hr]

/-- R160, R164: a symbol that has been read moves BC and the transient registers only. -/
theorem Ls11.consume_eq (r : SymbolRead) (l : Ls11) :
    l.consume r = { l with bc := l.bc + symbolBits r, regs := (l.consume r).regs } := rfl

/-- Settles O8: the pending bits are read back as the symbol they encode, and the step runs it with BC past its
bits and CODE its first code. -/
theorem stepRunsSymbol : Obligations.StepRunsSymbol := by
  unfold Obligations.StepRunsSymbol
  intro s i bits rest heng hph hep hbc hi he hbits
  obtain ⟨r, hr, rfl, rfl⟩ := readSymbol_encode hi he rest
  obtain ⟨hlit, hmatch⟩ := readSymbol_code hr
  have hleft : s.ls.symbolsLeft = true := by simp [Ls11.symbolsLeft, Ls11.sliceBits, hep, hbc]
  refine ⟨(s.ls.consume r).regs, ?_, hlit, hmatch⟩
  rw [step_symbol heng hph hleft (hbits ▸ hr), Ls11.consume_eq, symbolBits_of_readSymbol hr]

end Sys2Proof.Machine
end

section
/-! SUPPORT. Decode and encode, space by space: an equation per row of the opcode map (R120), the operation of
every header-table word (R124), and from them the statements about the encodings. -/

namespace Sys2Proof.Machine

/-! ### The rows of the opcode map (R120) -/

section Rows

variable {cmd : Byte} (rest : List Byte)

theorem decodeCommand_mac (h : cmd.toNat < 0x20) :
    decodeCommand cmd rest = .ok (.mac (cmd.extractLsb' 0 5), rest) := if_pos h

theorem decodeCommand_lbr (h : 0x20 ≤ cmd.toNat) (h' : cmd.toNat < 0x30) :
    decodeCommand cmd rest = withByte rest (.lbr (lowNibble cmd)) := by
  unfold decodeCommand
  rw [if_neg (by omega), if_pos h']

theorem decodeCommand_planeRead (h : 0x30 ≤ cmd.toNat) (h' : cmd.toNat < 0x40) :
    decodeCommand cmd rest = withByte rest (planeReadOf (selField cmd) (lowPair cmd)) := by
  unfold decodeCommand
  iterate 2 rw [if_neg (by omega)]
  rw [if_pos h']

theorem decodeCommand_pbr (h : 0x40 ≤ cmd.toNat) (h' : cmd.toNat < 0x50) :
    decodeCommand cmd rest = withByte rest (.pbr (lowNibble cmd)) := by
  unfold decodeCommand
  iterate 3 rw [if_neg (by omega)]
  rw [if_pos h']

theorem decodeCommand_mrd (h : 0x50 ≤ cmd.toNat) (h' : cmd.toNat < 0x5C) :
    decodeCommand cmd rest = withByte rest (.mrd (selField cmd) (lowPair cmd)) := by
  unfold decodeCommand
  iterate 4 rw [if_neg (by omega)]
  rw [if_pos h']

theorem decodeCommand_mrdi (h : 0x5C ≤ cmd.toNat) (h' : cmd.toNat < 0x60) :
    decodeCommand cmd rest = withTwoBytes rest (.mrdi (lowPair cmd)) := by
  unfold decodeCommand
  iterate 5 rw [if_neg (by omega)]
  rw [if_pos h']

theorem decodeCommand_pair (h : 0x60 ≤ cmd.toNat) (h' : cmd.toNat < 0x70) :
    decodeCommand cmd rest = withTwoBytes rest (.pair (lowNibble cmd)) := by
  unfold decodeCommand
  iterate 6 rw [if_neg (by omega)]
  rw [if_pos h']

theorem decodeCommand_lit (h : 0x70 ≤ cmd.toNat) (h' : cmd.toNat < 0x80) :
    decodeCommand cmd rest =
      if rest.length < (lowNibble cmd).toNat + 1 then .error .missingBytes
      else .ok (.lit (lowNibble cmd) (rest.take ((lowNibble cmd).toNat + 1)),
        rest.drop ((lowNibble cmd).toNat + 1)) := by
  unfold decodeCommand
  iterate 7 rw [if_neg (by omega)]
  rw [if_pos h']

theorem decodeCommand_nib (h : 0x80 ≤ cmd.toNat) (h' : cmd.toNat < 0x90) :
    decodeCommand cmd rest = withByte rest (.nib (lowNibble cmd)) := by
  unfold decodeCommand
  iterate 8 rw [if_neg (by omega)]
  rw [if_pos h']

theorem decodeCommand_rmr (h : 0x90 ≤ cmd.toNat) (h' : cmd.toNat < 0x9C) :
    decodeCommand cmd rest = withByte rest (.rmr (selField cmd) (lowPair cmd)) := by
  unfold decodeCommand
  iterate 9 rw [if_neg (by omega)]
  rw [if_pos h']

theorem decodeCommand_rmri (h : 0x9C ≤ cmd.toNat) (h' : cmd.toNat < 0xA0) :
    decodeCommand cmd rest = withTwoBytes rest (.rmri (lowPair cmd)) := by
  unfold decodeCommand
  iterate 10 rw [if_neg (by omega)]
  rw [if_pos h']

theorem decodeCommand_rle (h : 0xA0 ≤ cmd.toNat) :
    decodeCommand cmd rest = withByte rest (.rle (fillCount cmd)) := by
  unfold decodeCommand
  iterate 11 rw [if_neg (by omega)]

/-- A plane read at any of its sixteen command bytes (R120). -/
theorem decodeCommand_nibblePairs_three (s k : BitVec 2) (c : Byte) :
    decodeCommand (nibblePairs 0x3 s k) (c :: rest) = .ok (planeReadOf s k c, rest) := by
  have hb : (nibblePairs 0x3 s k).toNat = 48 + 4 * s.toNat + k.toNat := nibblePairs_toNat 3 s k
  rw [decodeCommand_planeRead _ (by omega) (by omega), selField_nibblePairs, lowPair_nibblePairs]
  rfl

end Rows

/-! ### The code byte of a fill count (R130) -/

theorem fillCount_fillByte (r : Byte) : fillCount (fillByte r) = r := BitVec.add_sub_cancel r 0x9E

theorem fillByte_fillCount (b : Byte) : fillByte (fillCount b) = b := BitVec.sub_add_cancel b 0x9E

theorem fillByte_toNat {r : Byte} (h : r.toNat ≤ 97) : (fillByte r).toNat = r.toNat + 158 := by
  rw [fillByte, BitVec.toNat_add]
  exact Nat.mod_eq_of_lt (by show r.toNat + 158 < 256; omega)

/-! ### Commands -/

/-- The encoding of a well-formed command is read back as it, whatever bytes follow (R120). -/
theorem decodeBytes_encode {i : Instr} {bytes : List Byte} (hi : i.wellFormed = true)
    (he : encode i = .command bytes) (rest : List Byte) : decodeBytes (bytes ++ rest) = .ok (i, rest) := by
  cases i <;> simp only [encode, Encoded.command.injEq, reduceCtorEq] at he <;> subst he <;>
    simp only [List.cons_append, List.nil_append, decodeBytes]
  case mac i =>
    have hb : (0#3 ++ i : Byte).toNat < 0x20 ∧ (0#3 ++ i : Byte).extractLsb' 0 5 = i := by revert i; decide
    rw [decodeCommand_mac rest hb.1, hb.2]
  case lbr n d =>
    have hb : (nibbles 0x2 n).toNat = 32 + n.toNat := nibbles_toNat 2 n
    rw [decodeCommand_lbr _ (by omega) (by omega), lowNibble_nibbles]
    rfl
  case prd s c => exact decodeCommand_nibblePairs_three rest s 0 c
  case prdn s c => exact decodeCommand_nibblePairs_three rest s 1 c
  case prdl s c => exact decodeCommand_nibblePairs_three rest s 2 c
  case prdr s c => exact decodeCommand_nibblePairs_three rest s 3 c
  case pbr n c =>
    have hb : (nibbles 0x4 n).toNat = 64 + n.toNat := nibbles_toNat 4 n
    rw [decodeCommand_pbr _ (by omega) (by omega), lowNibble_nibbles]
    rfl
  case mrd s k c =>
    have hb : (nibblePairs 0x5 s k).toNat = 80 + 4 * s.toNat + k.toNat := nibblePairs_toNat 5 s k
    have hs : s.toNat ≠ 3 := fun h => bne_iff_ne.1 hi (BitVec.eq_of_toNat_eq h)
    rw [decodeCommand_mrd _ (by omega) (by omega), selField_nibblePairs, lowPair_nibblePairs]
    rfl
  case mrdi s m c =>
    have hb : (nibblePairs 0x5 3 s).toNat = 92 + s.toNat := nibblePairs_toNat 5 3 s
    rw [decodeCommand_mrdi _ (by omega) (by omega), lowPair_nibblePairs]
    rfl
  case pair n v1 v2 =>
    have hb : (nibbles 0x6 n).toNat = 96 + n.toNat := nibbles_toNat 6 n
    rw [decodeCommand_pair _ (by omega) (by omega), lowNibble_nibbles]
    rfl
  case lit n bs =>
    have hb : (nibbles 0x7 n).toNat = 112 + n.toNat := nibbles_toNat 7 n
    have hlen : bs.length = n.toNat + 1 := beq_iff_eq.1 hi
    rw [decodeCommand_lit _ (by omega) (by omega), lowNibble_nibbles, List.length_append,
      if_neg (by omega), ← hlen, List.take_left, List.drop_left]
  case nib n v =>
    have hb : (nibbles 0x8 n).toNat = 128 + n.toNat := nibbles_toNat 8 n
    rw [decodeCommand_nib _ (by omega) (by omega), lowNibble_nibbles]
    rfl
  case rmr s k c =>
    have hb : (nibblePairs 0x9 s k).toNat = 144 + 4 * s.toNat + k.toNat := nibblePairs_toNat 9 s k
    have hs : s.toNat ≠ 3 := fun h => bne_iff_ne.1 hi (BitVec.eq_of_toNat_eq h)
    rw [decodeCommand_rmr _ (by omega) (by omega), selField_nibblePairs, lowPair_nibblePairs]
    rfl
  case rmri s m c =>
    have hb : (nibblePairs 0x9 3 s).toNat = 156 + s.toNat := nibblePairs_toNat 9 3 s
    rw [decodeCommand_rmri _ (by omega) (by omega), lowPair_nibblePairs]
    rfl
  case rle r v =>
    obtain ⟨hlo, hhi⟩ : 2 ≤ r.toNat ∧ r.toNat ≤ 97 := by simpa [Instr.wellFormed] using hi
    have hb := fillByte_toNat hhi
    rw [decodeCommand_rle _ (by omega), fillCount_fillByte]
    rfl

/-- A decoded command's encoding is exactly the bytes that were read (R120, R125). -/
theorem encode_of_decodeCommand {cmd : Byte} {rest left : List Byte} {i : Instr}
    (h : decodeCommand cmd rest = .ok (i, left)) :
    ∃ bytes, encode i = .command bytes ∧ cmd :: rest = bytes ++ left := by
  have hlt := cmd.isLt
  have hmac : ∀ b : Byte, b.toNat < 0x20 → (0#3 ++ b.extractLsb' 0 5 : Byte) = b := by decide
  have hsel : ∀ b : Byte, 0x5C ≤ b.toNat ∧ b.toNat < 0x60 ∨ 0x9C ≤ b.toNat ∧ b.toNat < 0xA0 →
      selField b = 3 := by decide
  have hread : ∀ (s k : BitVec 2) (c : Byte),
      encode (planeReadOf s k c) = .command [nibblePairs 0x3 s k, c] := by
    intro s k c
    have hk : k = 0 ∨ k = 1 ∨ k = 2 ∨ k = 3 := by revert k; decide
    rcases hk with rfl | rfl | rfl | rfl <;> rfl
  rcases Nat.lt_or_ge cmd.toNat 0x20 with h0 | h0
  · rw [decodeCommand_mac _ h0] at h
    cases h
    exact ⟨_, congrArg (fun b => Encoded.command [b]) (hmac cmd h0), rfl⟩
  rcases Nat.lt_or_ge cmd.toNat 0x30 with h1 | h1
  · rw [decodeCommand_lbr _ h0 h1] at h
    obtain ⟨b, rfl, rfl⟩ := withByte_ok h
    exact ⟨[cmd, b], by rw [encode, nibbles_lowNibble cmd 2 (by show _ = 2; omega)], rfl⟩
  rcases Nat.lt_or_ge cmd.toNat 0x40 with h2 | h2
  · rw [decodeCommand_planeRead _ h1 h2] at h
    obtain ⟨b, rfl, rfl⟩ := withByte_ok h
    exact ⟨[cmd, b], by rw [hread, nibblePairs_fields cmd 3 (by show _ = 3; omega)], rfl⟩
  rcases Nat.lt_or_ge cmd.toNat 0x50 with h3 | h3
  · rw [decodeCommand_pbr _ h2 h3] at h
    obtain ⟨b, rfl, rfl⟩ := withByte_ok h
    exact ⟨[cmd, b], by rw [encode, nibbles_lowNibble cmd 4 (by show _ = 4; omega)], rfl⟩
  rcases Nat.lt_or_ge cmd.toNat 0x5C with h4 | h4
  · rw [decodeCommand_mrd _ h3 h4] at h
    obtain ⟨b, rfl, rfl⟩ := withByte_ok h
    exact ⟨[cmd, b], by rw [encode, nibblePairs_fields cmd 5 (by show _ = 5; omega)], rfl⟩
  rcases Nat.lt_or_ge cmd.toNat 0x60 with h5 | h5
  · rw [decodeCommand_mrdi _ h4 h5] at h
    obtain ⟨b, c, rfl, rfl⟩ := withTwoBytes_ok h
    refine ⟨[cmd, b, c], ?_, rfl⟩
    rw [encode, ← hsel cmd (.inl ⟨h4, h5⟩), nibblePairs_fields cmd 5 (by show _ = 5; omega)]
  rcases Nat.lt_or_ge cmd.toNat 0x70 with h6 | h6
  · rw [decodeCommand_pair _ h5 h6] at h
    obtain ⟨b, c, rfl, rfl⟩ := withTwoBytes_ok h
    exact ⟨[cmd, b, c], by rw [encode, nibbles_lowNibble cmd 6 (by show _ = 6; omega)], rfl⟩
  rcases Nat.lt_or_ge cmd.toNat 0x80 with h7 | h7
  · rw [decodeCommand_lit _ h6 h7] at h
    split at h
    · cases h
    · cases h
      refine ⟨cmd :: rest.take _, by rw [encode, nibbles_lowNibble cmd 7 (by show _ = 7; omega)], ?_⟩
      rw [List.cons_append, List.take_append_drop]
  rcases Nat.lt_or_ge cmd.toNat 0x90 with h8 | h8
  · rw [decodeCommand_nib _ h7 h8] at h
    obtain ⟨b, rfl, rfl⟩ := withByte_ok h
    exact ⟨[cmd, b], by rw [encode, nibbles_lowNibble cmd 8 (by show _ = 8; omega)], rfl⟩
  rcases Nat.lt_or_ge cmd.toNat 0x9C with h9 | h9
  · rw [decodeCommand_rmr _ h8 h9] at h
    obtain ⟨b, rfl, rfl⟩ := withByte_ok h
    exact ⟨[cmd, b], by rw [encode, nibblePairs_fields cmd 9 (by show _ = 9; omega)], rfl⟩
  rcases Nat.lt_or_ge cmd.toNat 0xA0 with h10 | h10
  · rw [decodeCommand_rmri _ h9 h10] at h
    obtain ⟨b, c, rfl, rfl⟩ := withTwoBytes_ok h
    refine ⟨[cmd, b, c], ?_, rfl⟩
    rw [encode, ← hsel cmd (.inr ⟨h9, h10⟩), nibblePairs_fields cmd 9 (by show _ = 9; omega)]
  · rw [decodeCommand_rle _ h10] at h
    obtain ⟨b, rfl, rfl⟩ := withByte_ok h
    exact ⟨[cmd, b], by rw [encode, fillByte_fillCount], rfl⟩

/-- No command has more than two fixed operand bytes (R121). -/
theorem operandCount_le_two (cmd : Byte) : operandCount cmd ≤ 2 := by
  unfold operandCount
  repeat' split
  all_goals omega

/-- With sixteen bytes behind it, every command byte decodes (R120, R125). -/
theorem decodeCommand_total (cmd : Byte) {rest : List Byte} (h : 16 ≤ rest.length) :
    ∃ i left, decodeCommand cmd rest = .ok (i, left) := by
  have hops := operandCount_le_two cmd
  cases hi : streamInstr cmd rest with
  | none => have := (streamInstr_eq_none cmd rest).1 hi; omega
  | some i =>
    rcases streamInstr_some hi with ⟨left, hd⟩ | ⟨-, hcut, -⟩
    · exact ⟨i, left, hd⟩
    · have := (lowNibble cmd).isLt; omega

/-- Settles O4: sixteen bytes hold the operands of any command, and its encoding is rebuilt row by row. -/
theorem commandMapTotal : Obligations.CommandMapTotal := by
  unfold Obligations.CommandMapTotal
  intro cmd rest hlen
  obtain ⟨i, left, hd⟩ := decodeCommand_total cmd hlen
  obtain ⟨hspace, hwf⟩ := decodeCommand_ok hd
  obtain ⟨bytes, he, hb⟩ := encode_of_decodeCommand hd
  exact ⟨i, left, bytes, hd, hwf, hspace, he, hb⟩

/-! ### Header-table words -/

/-- MACRO_MAP by the high nibble and wsel of the low byte (R124, R303). -/
theorem tableOp_eq (wlo : Byte) :
    tableOp wlo =
      if 0xA ≤ wlo.toNat / 16 then .mRle
      else if wlo.toNat / 16 = 0x2 then .mLbr
      else if wlo.toNat / 16 = 0x3 then .mPrd
      else if wlo.toNat / 16 = 0x4 then .mPbr
      else if wlo.toNat / 16 = 0x5 ∧ wlo.extractLsb' 2 2 ≠ 3 then .mMrd
      else if wlo.toNat / 16 = 0x7 then .mLit
      else if wlo.toNat / 16 = 0x8 then .mNib
      else if wlo.toNat / 16 = 0x9 ∧ wlo.extractLsb' 2 2 ≠ 3 then .mRmr
      else .refused := by
  revert wlo
  decide

/-- The words that no operation is mapped to are those R312 refuses. -/
theorem tableOp_eq_refused_iff (wlo : Byte) : tableOp wlo = .refused ↔ refusedWlo wlo = true := by
  revert wlo
  decide

/-- The encoding of a well-formed table word is read back as it (R124). -/
theorem decodeTableEntry_encode {i : Instr} {wlo whi : Byte} (hi : i.wellFormed = true)
    (he : encode i = .tableWord wlo whi) : decodeTableEntry wlo whi = i := by
  cases i <;> simp only [encode, Encoded.tableWord.injEq, reduceCtorEq] at he <;>
    obtain ⟨rfl, rfl⟩ := he
  case mLbr n whi =>
    have hop : ∀ n, tableOp (nibbles 0x2 n) = .mLbr := by decide
    simp only [decodeTableEntry, hop, lowNibble_nibbles]
  case mPrd s t whi =>
    have hop : ∀ s t, tableOp (nibblePairs 0x3 s t) = .mPrd := by decide
    simp only [decodeTableEntry, hop, selField_nibblePairs, lowPair_nibblePairs]
  case mPbr n whi =>
    have hop : ∀ n, tableOp (nibbles 0x4 n) = .mPbr := by decide
    simp only [decodeTableEntry, hop, lowNibble_nibbles]
  case mMrd s k whi =>
    have hop : ∀ s k, s ≠ 3 → tableOp (nibblePairs 0x5 s k) = .mMrd := by decide
    simp only [decodeTableEntry, hop s k (bne_iff_ne.1 hi), selField_nibblePairs, lowPair_nibblePairs]
  case mLit x whi =>
    have hop : ∀ x, tableOp (nibbles 0x7 x) = .mLit := by decide
    simp only [decodeTableEntry, hop, lowNibble_nibbles]
  case mNib n whi =>
    have hop : ∀ n, tableOp (nibbles 0x8 n) = .mNib := by decide
    simp only [decodeTableEntry, hop, lowNibble_nibbles]
  case mRmr s k whi =>
    have hop : ∀ s k, s ≠ 3 → tableOp (nibblePairs 0x9 s k) = .mRmr := by decide
    simp only [decodeTableEntry, hop s k (bne_iff_ne.1 hi), selField_nibblePairs, lowPair_nibblePairs]
  case mRle r whi =>
    obtain ⟨hlo, hhi⟩ : 2 ≤ r.toNat ∧ r.toNat ≤ 97 := by simpa [Instr.wellFormed] using hi
    have hop : tableOp (fillByte r) = .mRle := by
      rw [tableOp_eq, fillByte_toNat hhi, if_pos (by omega)]
    simp only [decodeTableEntry, hop, fillCount_fillByte]
  case mRefused =>
    simp only [decodeTableEntry, (tableOp_eq_refused_iff _).2 hi]

/-- Every word is the encoding of what it decodes to (R124, R303). -/
theorem encode_decodeTableEntry (wlo whi : Byte) : encode (decodeTableEntry wlo whi) = .tableWord wlo whi := by
  have hrow := tableOp_eq wlo
  unfold decodeTableEntry
  split_ifs at hrow <;> rw [hrow] <;> simp only [encode]
  · rw [fillByte_fillCount]
  · rw [nibbles_lowNibble wlo 2 ‹_›]
  · rw [nibblePairs_fields wlo 3 ‹_›]
  · rw [nibbles_lowNibble wlo 4 ‹_›]
  · rw [nibblePairs_fields wlo 5 (And.left ‹_›)]
  · rw [nibbles_lowNibble wlo 7 ‹_›]
  · rw [nibbles_lowNibble wlo 8 ‹_›]
  · rw [nibblePairs_fields wlo 9 (And.left ‹_›)]

/-- What a word decodes to is well-formed (R124). -/
theorem decodeTableEntry_wellFormed (wlo whi : Byte) : (decodeTableEntry wlo whi).wellFormed = true := by
  have hsel : ∀ b : Byte, tableOp b = .mMrd ∨ tableOp b = .mRmr → (selField b != 3) = true := by decide
  have hfill : ∀ b : Byte, tableOp b = .mRle →
      (decide (2 ≤ (fillCount b).toNat) && decide ((fillCount b).toNat ≤ 97)) = true := by decide
  unfold decodeTableEntry
  cases h : tableOp wlo
  case mMrd => exact hsel wlo (.inl h)
  case mRmr => exact hsel wlo (.inr h)
  case mRle => exact hfill wlo h
  case refused => exact (tableOp_eq_refused_iff wlo).1 h
  all_goals rfl

/-- The sub-index is the high nibble of wlo (R123). -/
theorem subIndex_eq (wlo : Byte) : subIndex wlo = wlo.extractLsb' 4 4 := by
  revert wlo
  decide

/-- Settles O5: the map row by row is `tableOp_eq`, and each row is rebuilt from its fields. -/
theorem tableWordMap : Obligations.TableWordMap := by
  unfold Obligations.TableWordMap
  intro wlo whi
  refine ⟨subIndex_eq wlo, decodeTableEntry_wellFormed wlo whi, encode_decodeTableEntry wlo whi, ?_⟩
  dsimp only
  rw [decodeTableEntry, tableOp_eq]
  split_ifs <;> rfl

/-! ### FAT records -/

/-- Twelve bytes of a record whose CLEN is not 0 are read back (R106, R142). -/
theorem readFatRecord_bytesBE {clen : Word32} (h : clen ≠ 0) (ulen off : Word32) :
    readFatRecord (bytesBE clen ++ bytesBE ulen ++ bytesBE off) = .ok ((clen, ulen, off), []) := by
  simp only [bytesBE, List.cons_append, List.nil_append, readFatRecord, be32_bytesBE, if_neg h]

/-- A well-formed record is read back from its bytes (R106). -/
theorem decode_fatRecord {i : Instr} (hs : i.space = .fatRecord) (hi : i.wellFormed = true) :
    decode (encode i) = .ok i := by
  cases i <;> simp only [Instr.space, reduceCtorEq] at hs
  case fatSentinel => rfl
  case entryVerbatim clen off =>
    have hc : clen ≠ 0 := bne_iff_ne.1 hi
    simp only [encode, decode, readFatRecord_bytesBE hc, recordInstr, if_neg hc, if_true]
  case entryCoded clen ulen off =>
    obtain ⟨hc, hu⟩ : clen ≠ 0 ∧ clen ≠ ulen := by simpa [Instr.wellFormed] using hi
    simp only [encode, decode, readFatRecord_bytesBE hc, recordInstr, if_neg hc, if_neg hu]

/-! ### All four spaces -/

/-- Decoding the encoding of a well-formed instruction gives it back, in each of the four spaces. -/
theorem decode_encode {i : Instr} (hi : i.wellFormed = true) : decode (encode i) = .ok i := by
  cases he : encode i with
  | command bytes =>
    have hd := decodeBytes_encode hi he []
    rw [List.append_nil] at hd
    simp only [decode, hd]
  | tableWord wlo whi => simp only [decode, decodeTableEntry_encode hi he]
  | symbol bits =>
    obtain ⟨r, hr, hinstr, hrest⟩ := readSymbol_encode hi he []
    rw [List.append_nil] at hr
    simp only [decode, hr, hrest, hinstr, if_true]
  | fatRecord bytes =>
    rw [← he]
    refine decode_fatRecord ?_ hi
    cases i <;> simp only [encode, reduceCtorEq] at he <;> rfl

/-- Settles O1: the stream spaces by `decodeBytes_encode` and `readSymbol_encode`, all four by `decode_encode`. -/
theorem decodeEncodeAgree : Obligations.DecodeEncodeAgree := by
  unfold Obligations.DecodeEncodeAgree
  intro i hi
  exact ⟨decode_encode hi, fun bytes rest he => decodeBytes_encode hi he rest,
    fun bits rest he => readSymbol_encode hi he rest⟩

/-- Settles O6: each word is the encoding of the instruction it stands for. -/
theorem writtenOutWordsDecode : Obligations.WrittenOutWordsDecode := by
  unfold Obligations.WrittenOutWordsDecode
  exact ⟨decode_encode (i := .lbr 2 2) rfl, decode_encode (i := .prdr 2 1) rfl,
    decode_encode (i := .rmr 1 1 0xFE) rfl, decode_encode (i := .mrdi 3 0x0F 0) rfl,
    decode_encode (i := .rle 7 0x99) rfl, decode_encode (i := .mac 5) rfl,
    decode_encode (i := .mMrd 0 3 0) rfl, decode_encode (i := .litc 5) rfl,
    decode_encode (i := .matchSym 2 5) rfl, decode_encode (i := .entryVerbatim 3 284) rfl⟩

/-! ### Codes -/

/-- getCode on j ones, a zero and a suffix of j + 1 bits (R101, R161, R162). -/
theorem readCode_format {j : Nat} {suffix : List Bool} (h : suffix.length = j + 1) (rest : List Bool) :
    readCode (List.replicate j true ++ false :: (suffix ++ rest)) =
      some (⟨2 ^ (j + 1) - 2, j + 1, bitsValue suffix⟩, rest) := by
  have hB := readBinary_append suffix rest 0
  rw [h] at hB
  unfold readCode
  rw [readUnary_ones, Nat.zero_add, Nat.one_mul, Nat.zero_add]
  simp only [hB, bitsValue]

/-- Settles O2: phase A reads the ones and the zero, phase B the suffix. -/
theorem codeFormat : Obligations.CodeFormat := by
  unfold Obligations.CodeFormat
  intro j suffix rest hlen
  have hlt := bitsValue_lt suffix
  rw [hlen] at hlt
  refine ⟨readCode_format hlen rest, rfl, ?_, by omega⟩
  simp only [List.length_append, List.length_replicate, List.length_cons, hlen]
  omega

/-- CNT of the codes from 2^(j+1) − 2 to 2^(j+2) − 3 is j + 1 (R102). -/
theorem codeCnt_eq {c j : Nat} (hlo : 2 ^ (j + 1) - 2 ≤ c) (hhi : c ≤ 2 ^ (j + 2) - 3) : codeCnt c = j + 1 := by
  have h2 : 2 ^ 1 ≤ 2 ^ (j + 1) := Nat.pow_le_pow_right (by omega) (by omega)
  have hsucc : 2 ^ (j + 2) = 2 * 2 ^ (j + 1) := by rw [Nat.pow_succ, Nat.mul_comm]
  exact (Nat.log2_eq_iff (by omega)).2 ⟨by omega, by omega⟩

/-- Settles O3: the encoder gives each code one string, and `encodeCode_of_readCode` says there is no other. -/
theorem codeHasOneEncoding : Obligations.CodeHasOneEncoding := by
  unfold Obligations.CodeHasOneEncoding
  refine ⟨fun c rest => ?_, fun c j hlo hhi => ?_, fun bits r rest hr => ?_⟩
  · have hspec := codeCnt_spec c
    have h2 : 2 ^ 1 ≤ 2 ^ codeCnt c := Nat.pow_le_pow_right (by omega) hspec.1
    exact ⟨_, readCode_encodeCode c rest, by simp only [CodeRead.value]; omega, encodeCode_length c⟩
  · have hcnt := codeCnt_eq hlo hhi
    have h2 : 2 ^ 1 ≤ 2 ^ (j + 1) := Nat.pow_le_pow_right (by omega) (by omega)
    have hsucc : 2 ^ (j + 2) = 2 * 2 ^ (j + 1) := by rw [Nat.pow_succ, Nat.mul_comm]
    refine ⟨natBits (j + 1) (c + 2 - 2 ^ (j + 1)), natBits_length _ _, ?_, by rw [encodeCode, hcnt]; rfl⟩
    rw [bitsValue_natBits, Nat.mod_eq_of_lt (by omega)]
    omega
  · obtain ⟨hbits, hcnt⟩ := encodeCode_of_readCode hr
    obtain ⟨hpos, hlo, hhi⟩ := codeCnt_spec r.value
    rw [hcnt]
    exact ⟨hbits, hpos, by omega, by omega⟩

end Sys2Proof.Machine
end

section
/-! SUPPORT. The primitives of the TF-DCE engine: the zig-zag map, Emit, the zero-fill reads, the plane order and
the pattern cache. -/

namespace Sys2Proof.Machine

/-! ### The zig-zag map (R204) -/

/-- An address of the map is its row and its column: the two do not run into each other. -/
theorem zigzag_row_col (p : Nat) : zigzag p / 80 = zigzagRow p ∧ zigzag p % 80 = p % 640 / 80 := by
  have hrow := zigzagRow_lt p
  have heq := zigzag_eq p
  constructor <;> omega

/-- Two positions of one section have different addresses. -/
theorem zigzag_injOn_section {p q : Nat} (hs : p / 640 = q / 640) (hz : zigzag p = zigzag q) : p = q := by
  rcases Nat.lt_trichotomy p q with h | h | h
  · exact absurd hz (zigzag_ne h (by omega))
  · exact h
  · exact absurd hz.symm (zigzag_ne h (by omega))

/-- The position of a section that is mapped to a row and a column. -/
def zigzagInverse (sec row col : Nat) : Nat := sec * 640 + col * 80 + if col % 2 = 0 then row else 79 - row

theorem zigzagInverse_spec (sec : Nat) {row col : Nat} (hr : row < 80) (hc : col < 8) :
    zigzagInverse sec row col / 640 = sec ∧ zigzag (zigzagInverse sec row col) = row * 80 + col := by
  rw [zigzag_eq, zigzagRow, zigzagInverse]
  by_cases h : col % 2 = 0
  · have hcol : (sec * 640 + col * 80 + row) % 640 / 80 = col := by omega
    rw [if_pos h, hcol, if_pos h]
    omega
  · have hcol : (sec * 640 + col * 80 + (79 - row)) % 640 / 80 = col := by omega
    rw [if_neg h, hcol, if_neg h]
    omega

/-- Settles O12: rows and columns by `zigzag_row_col`, the inverse is written out. -/
theorem zigzagBijection : Obligations.ZigzagBijection := by
  unfold Obligations.ZigzagBijection
  refine ⟨fun p => rfl, fun p q => zigzag_injOn_section, fun p => ?_, fun sec row col hr hc => ?_⟩
  · have hrow := zigzagRow_lt p
    obtain ⟨h1, h2⟩ := zigzag_row_col p
    omega
  · exact ⟨_, zigzagInverse_spec sec hr hc⟩

/-! ### Emit (R207, R208) -/

/-- Emit where the output has room. -/
theorem TfDce.emit_eq {t : TfDce} (h : t.p < 1920) (v : Byte) :
    t.emit v =
      { t with
        out := t.out.write t.p v
        pm := t.pm.write (destPlane t.po t.p) (zigzag t.p) v
        p := t.p + 1
        status := if t.p + 1 = 1920 then .done else t.status } := if_pos h

/-- Settles O13: in canonical memories each of the two writes changes one byte. -/
theorem emitEffect : Obligations.EmitEffect := by
  unfold Obligations.EmitEffect
  rintro t v ⟨hrun, hroom⟩ ⟨hin, hpm, hout, hres⟩
  rw [TfDce.emit_eq hroom]
  exact ⟨fun q => Memory.read_write hout, fun k a => Planes.read_write hpm, rfl, by rw [hrun],
    ⟨hin, Planes.write_wf hpm, Memory.write_wf hout, hres⟩,
    ⟨rfl, rfl, rfl, rfl, rfl, rfl, rfl, rfl, rfl, rfl⟩, rfl, rfl, rfl, rfl⟩

/-! ### Reads with the zero-fill policy (R78, R80) -/

theorem outReadOob_iff (p d : Nat) : outReadOob p d = true ↔ d = 0 ∨ p < d := by
  simp only [outReadOob, Bool.or_eq_true, beq_iff_eq, decide_eq_true_eq]

/-- Settles O14: `outReadOob` is the test of the distance. -/
theorem outReadZeroFill : Obligations.OutReadZeroFill := by
  unfold Obligations.OutReadZeroFill
  intro t d
  refine ⟨fun h1 h2 => if_neg fun h => ?_, fun h => if_pos ((outReadOob_iff t.p d).2 h)⟩
  have := (outReadOob_iff t.p d).1 h
  omega

/-- Settles O15: an address of the map is never past the plane, so only one below 0 is out of range. -/
theorem destReadZeroFill : Obligations.DestReadZeroFill := by
  unfold Obligations.DestReadZeroFill
  intro t d
  refine ⟨fun h => if_neg fun hc => ?_, fun h => if_pos ((TfDce.destReadOob_iff t.p d).2 h)⟩
  have := (TfDce.destReadOob_iff t.p d).1 hc
  omega

/-! ### Plane order and pattern cache (R44, R81, R202) -/

/-- The destination plane of each section (R205). -/
theorem destPlane_eq (po : PlaneOrder) {p : Nat} (h : p < 1920) :
    destPlane po p = if p < 640 then po.o0 else if p < 1280 then po.o1 else po.o2 := by
  have hs : destPlane po p = po.get (p / 640) := rfl
  rw [hs]
  split
  · rw [show p / 640 = 0 by omega]; rfl
  · split
    · rw [show p / 640 = 1 by omega]; rfl
    · rw [show p / 640 = 2 by omega]; rfl

/-- Settles O16: selectors 0 to 2 index PO, and 3 is the destination plane. -/
theorem planeSelectors : Obligations.PlaneSelectors := by
  unfold Obligations.PlaneSelectors
  intro po p hp
  exact ⟨rfl, rfl, rfl, destPlane_eq po hp⟩

/-- Every selector byte that is no key gives the default order (R203). -/
theorem planeOrderTable_of_not_key {selb : Byte} (h : selb ∉ [0xC6, 0xC9, 0xD2, 0xD8, 0xE1, 0xE4]) :
    planeOrderTable selb = ⟨0, 2, 1⟩ := by
  simp only [List.mem_cons, List.not_mem_nil, or_false, not_or] at h
  obtain ⟨h1, h2, h3, h4, h5, h6⟩ := h
  rw [planeOrderTable, if_neg h1, if_neg h2, if_neg h3, if_neg h4, if_neg h5, if_neg h6]
  rfl

/-- Settles O17: the six keys are rows of the table. -/
theorem planeOrderLookup : Obligations.PlaneOrderLookup := by
  unfold Obligations.PlaneOrderLookup
  exact ⟨rfl, rfl, rfl, rfl, rfl, rfl, fun selb =>
    ⟨planeOrderTable_isPermutation selb, planeOrderTable_of_not_key⟩⟩

/-- Settles O18: aging by the four slots. -/
theorem cacheAging : Obligations.CacheAging := by
  unfold Obligations.CacheAging
  exact ⟨rfl, fun a b c d => ⟨rfl, rfl, rfl, rfl⟩⟩

end Sys2Proof.Machine
end

section
/-! SUPPORT. The TF-DCE instructions: each runs one generic body, whose law of Laws/Bodies gives its whole effect
once the counts, distances and masks are read as the rules name them. -/

namespace Sys2Proof.Machine

theorem TfDce.clean_of_canonical {t : TfDce} (h : t.canonical) : t.clean := ⟨h.2.1, h.2.2.1⟩

/-- The bytes and the flag may be written in any way that gives the same values. -/
theorem TfDce.Emits.congr {t u : TfDce} {c : Nat} {v v' : Nat → Byte} {pc : PatternCache} {o o' : Bool}
    (h : t.Emits u c v pc o) (hv : ∀ q, v q = v' q) (ho : o = o') : t.Emits u c v' pc o' := by
  obtain rfl : v = v' := funext hv
  exact ho ▸ h

/-! ### Counts fit a section (R111) -/

theorem copyCount_le (n : BitVec 4) : copyCount n ≤ 640 := by unfold copyCount; omega

theorem copyCount_pos (n : BitVec 4) : 1 ≤ copyCount n := by unfold copyCount; omega

theorem byteCount_le (c : Byte) : byteCount c ≤ 640 := by unfold byteCount; omega

theorem byteCount_pos (c : Byte) : 1 ≤ byteCount c := by unfold byteCount; omega

theorem nibbleCount_pos (n : BitVec 4) : 1 ≤ nibbleCount n := by unfold nibbleCount; omega

theorem nibbleCount_le (n : BitVec 4) : nibbleCount n ≤ 16 := by unfold nibbleCount; omega

/-! ### LBR and PBR: copies -/

theorem byte_eq_zero_iff (d : Byte) : d = 0 ↔ d.toNat = 0 :=
  ⟨fun h => by rw [h]; rfl, fun h => BitVec.eq_of_toNat_eq h⟩

theorem tableDistance_pos (whi : Byte) : 1 ≤ tableDistance whi := by
  unfold tableDistance
  split
  · exact Nat.le_refl 1
  · exact Nat.pos_of_ne_zero (mt (byte_eq_zero_iff whi).2 ‹_›)

theorem outReadOob_eq (p d : Nat) : outReadOob p d = decide (d = 0 ∨ p < d) :=
  Bool.eq_iff_iff.2 (by rw [outReadOob_iff, decide_eq_true_eq])

/-- LinCopy (R240) at a distance that is not 0: only a source before the output's first byte is missing. -/
theorem TfDce.linCopy_emits_of_pos {t : TfDce} {c d : Nat} (ht : t.ready) (hc : t.clean) (hd : 1 ≤ d) (h1 : 1 ≤ c)
    (h2 : c ≤ 640) :
    t.Emits (t.linCopy c d) c (fun q => if q < d then 0 else (t.linCopy c d).out.read (q - d)) t.pc
      (t.oobf || decide (t.p < d)) := by
  have hd0 : d ≠ 0 := Nat.ne_of_gt hd
  refine (TfDce.linCopy_emits ht hc d h1 h2).1.congr (fun q => ?_) ?_
  · simp only [hd0, false_or]
  · simp only [outReadOob_eq, hd0, false_or]

/-- Settles O20: both are LinCopy (R240), at the distance as it stands or with 0 read as 1. -/
theorem linearBackReferences : Obligations.LinearBackReferences := by
  unfold Obligations.LinearBackReferences
  intro n d s hready hcan
  have hclean := TfDce.clean_of_canonical hcan
  have hE := (TfDce.linCopy_emits hready hclean d.toNat (copyCount_pos n) (copyCount_le n)).1
  refine ⟨⟨_, rfl, hE.congr (fun q => ?_) ?_⟩, ⟨_, rfl, TfDce.linCopy_emits_of_pos hready hclean
    (tableDistance_pos d) (copyCount_pos n) (copyCount_le n)⟩⟩
  · simp only [byte_eq_zero_iff]
  · simp only [byte_eq_zero_iff, outReadOob_eq]

/-- Settles O22: both are PlaneCopy (R250) at distance n + 1. -/
theorem planeBackReferences : Obligations.PlaneBackReferences := by
  unfold Obligations.PlaneBackReferences
  intro n c s hready hcan hperm i hi
  obtain ⟨hE, hoob, -⟩ := TfDce.planeCopy_emits hready (TfDce.clean_of_canonical hcan) hperm (nibbleCount_pos n)
    (nibbleCount_le n) (byteCount_le c)
  rcases hi with rfl | rfl <;> exact ⟨_, rfl, hE, hoob⟩

/-! ### PRD to PRDR: plane reads -/

/-- What the transform number does to a byte (R242). -/
theorem planeTransform_of_cases {x : BitVec 2} {f : Byte → Byte}
    (h : (x = 0 ∧ f = id) ∨ (x = 1 ∧ f = fun b => ~~~b) ∨ (x = 2 ∧ f = fun b => b.rotateLeft 1) ∨
      (x = 3 ∧ f = fun b => b.rotateRight 1)) (v : Byte) : planeTransform x v = f v := by
  rcases h with ⟨rfl, rfl⟩ | ⟨rfl, rfl⟩ | ⟨rfl, rfl⟩ | ⟨rfl, rfl⟩ <;> rfl

/-- The four commands and the forms of M.PRD are PlaneXform with the transform number x (R243 to R246, R305). -/
theorem exec_planeRead {sel x : BitVec 2} {c : Byte} {i : Instr}
    (h : i = .mPrd sel x c ∨ (x = 0 ∧ i = .prd sel c) ∨ (x = 1 ∧ i = .prdn sel c) ∨
      (x = 2 ∧ i = .prdl sel c) ∨ (x = 3 ∧ i = .prdr sel c)) (s : State) :
    exec i s = .next { s with tf := s.tf.planeXform sel x (byteCount c) } := by
  rcases h with rfl | ⟨rfl, rfl⟩ | ⟨rfl, rfl⟩ | ⟨rfl, rfl⟩ | ⟨rfl, rfl⟩ <;> rfl

/-- Settles O21: each is PlaneXform (R242). -/
theorem planeReads : Obligations.PlaneReads := by
  unfold Obligations.PlaneReads
  intro sel c s hready hcan x f hf i hi
  have hE := (TfDce.planeXform_emits hready (TfDce.clean_of_canonical hcan) sel x (byteCount_pos c)
    (byteCount_le c)).1
  exact ⟨_, exec_planeRead hi s, hE.congr (fun q => planeTransform_of_cases hf _) rfl⟩

/-! ### MRD to RMRI: masked reads -/

/-- Settles O23: MaskRead (R252) after the slot has been aged, with the value it held before. -/
theorem cachedMaskReads : Obligations.CachedMaskReads := by
  unfold Obligations.CachedMaskReads
  intro sel k c s hready hcan i hi
  have hE := (TfDce.maskRead_emits (t := s.tf.ageSlot k) hready (TfDce.clean_of_canonical hcan) sel (s.tf.pc.get k)
    (byteCount_le c)).1
  rcases hi with rfl | rfl <;> exact ⟨_, rfl, hE⟩

/-- Settles O24: MaskRead (R252) after the promotion. -/
theorem immediateMaskRead : Obligations.ImmediateMaskRead := by
  unfold Obligations.ImmediateMaskRead
  intro sel m c s hready hcan
  exact ⟨_, rfl, (TfDce.maskRead_emits (t := s.tf.promoteMask m) hready (TfDce.clean_of_canonical hcan) sel m
    (byteCount_le c)).1⟩

/-- Settles O25: RotMaskRead (R266) after the slot has been aged, with the value it held before. -/
theorem cachedRotatingReads : Obligations.CachedRotatingReads := by
  unfold Obligations.CachedRotatingReads
  intro sel k c s hready hcan i hi
  have hE := (TfDce.rotMaskRead_emits (t := s.tf.ageSlot k) hready (TfDce.clean_of_canonical hcan) sel
    (s.tf.pc.get k) (byteCount_le c)).1
  rcases hi with rfl | rfl <;> exact ⟨_, rfl, hE⟩

/-- Settles O26: RotMaskRead (R266) after the promotion of the unrotated mask. -/
theorem immediateRotatingRead : Obligations.ImmediateRotatingRead := by
  unfold Obligations.ImmediateRotatingRead
  intro sel m c s hready hcan
  exact ⟨_, rfl, (TfDce.rotMaskRead_emits (t := s.tf.promoteMask m) hready (TfDce.clean_of_canonical hcan) sel m
    (byteCount_le c)).1⟩

/-! ### PAIR, NIB, RLE and M.LIT: bytes from the operands -/

/-- A nibble count of pairs fits a section. -/
theorem two_mul_nibbleCount_le (n : BitVec 4) : 2 * nibbleCount n ≤ 640 := by
  have := nibbleCount_le n
  omega

/-- Settles O27: the pair body with the two operands. -/
theorem pairRepeats : Obligations.PairRepeats := by
  unfold Obligations.PairRepeats
  intro n v1 v2 s hready hcan
  exact ⟨_, rfl,
    (TfDce.pairRun_emits hready (TfDce.clean_of_canonical hcan) v1 v2 (two_mul_nibbleCount_le n)).1⟩

/-- The two bytes of the nibble pair: the low nibble doubled, then the high nibble doubled (R262). -/
theorem nibPair_eq (v : Byte) :
    nibPair v = (v.extractLsb' 0 4 ++ v.extractLsb' 0 4, v.extractLsb' 4 4 ++ v.extractLsb' 4 4) := by
  revert v
  decide

/-- Settles O28: the pair body with the two bytes of the nibble pair. -/
theorem nibblePairRepeats : Obligations.NibblePairRepeats := by
  unfold Obligations.NibblePairRepeats
  intro n v s hready hcan i hi
  have hE := (TfDce.pairRun_emits hready (TfDce.clean_of_canonical hcan) (nibPair v).1 (nibPair v).2
    (two_mul_nibbleCount_le n)).1
  refine ⟨s.tf.pairRun (nibPair v).1 (nibPair v).2 (nibbleCount n), ?_, hE.congr (fun q => ?_) rfl⟩
  · rcases hi with rfl | rfl <;> rfl
  · rw [nibPair_eq]

/-- Settles O31: Fill (R271). -/
theorem fills : Obligations.Fills := by
  unfold Obligations.Fills
  intro r v s hready hcan i hi _
  have hE := (TfDce.fill_emits (c := r.toNat) hready (TfDce.clean_of_canonical hcan) v (by omega)).1
  rcases hi with rfl | rfl <;> exact ⟨_, rfl, hE⟩

/-- Settles O32: one Emit. -/
theorem tableLiteral : Obligations.TableLiteral := by
  unfold Obligations.TableLiteral
  intro x whi s hready hcan
  have hroom : s.tf.room 1 = 1 := Nat.min_eq_left (by have := hready.2; omega)
  refine ⟨s.tf.emit whi, ?_, ?_, TfDce.emit_frame _ _, TfDce.emit_sp _ _, TfDce.emit_pc _ _, TfDce.emit_oobf _ _⟩
  · simp only [exec, execMLit, onTf, TfDce.andThen, if_pos hready.1]
  · rw [hroom]
    exact (TfDce.emit_emitted hready (TfDce.clean_of_canonical hcan) whi).1

/-! ### LIT -/

/-- A literal run whose literals are all there stops nothing but a full output. -/
theorem exec_lit_complete {n : BitVec 4} {bs : List Byte} (h : bs.length = nibbleCount n) (s : State) :
    exec (.lit n bs) s = .next { s with tf := s.tf.litRun bs } := by
  simp only [exec, execLit, onTf, ← h, List.take_length, Nat.lt_irrefl, if_false, TfDce.andThen, ite_self]

/-- A literal run that is cut off halts after its last literal, unless that literal has filled the output (R211). -/
theorem exec_lit_cut {n : BitVec 4} {bs : List Byte} (h : bs.length < nibbleCount n) (s : State) :
    exec (.lit n bs) s = .next
      { s with
        tf := if (s.tf.litRun bs).status = .running then (s.tf.litRun bs).haltTrunc else s.tf.litRun bs } := by
  simp only [exec, execLit, onTf, List.take_of_length_le (Nat.le_of_lt h), if_pos h, TfDce.andThen]

/-- Settles O29: the literal run (R258). -/
theorem literalRun : Obligations.LiteralRun := by
  unfold Obligations.LiteralRun
  intro n bs s hready hcan hlen
  obtain ⟨hE, -, hf, hsp, hpc, hoob⟩ :=
    TfDce.litRun_emits bs s.tf hready (TfDce.clean_of_canonical hcan) (by omega)
  rw [hlen] at hE hsp
  exact ⟨_, exec_lit_complete hlen s, hE, hf, hsp, hpc, hoob⟩

/-- Settles O30: the literal run (R258), after which the engine still runs exactly when the output has room. -/
theorem cutLiteralRun : Obligations.CutLiteralRun := by
  unfold Obligations.CutLiteralRun
  intro n bs s hready hcan hlen
  obtain ⟨hE, -, hf, hsp, hpc, hoob⟩ :=
    TfDce.litRun_emits bs s.tf hready (TfDce.clean_of_canonical hcan) (by omega)
  refine ⟨s.tf.litRun bs, hE, hf, hsp, hpc, hoob, ?_⟩
  have hstatus : (s.tf.litRun bs).status = if s.tf.p + s.tf.room bs.length = 1920 then .done else .running :=
    hE.2.2.2.2
  have hlt := hready.2
  rw [exec_lit_cut hlen]
  by_cases hroom : s.tf.p + bs.length < 1920
  · have hne : s.tf.p + s.tf.room bs.length ≠ 1920 := by unfold TfDce.room; omega
    rw [if_pos hroom, if_pos (by rw [hstatus, if_neg hne])]
    rfl
  · have hfull : s.tf.p + s.tf.room bs.length = 1920 := by unfold TfDce.room; omega
    rw [if_neg hroom, if_neg (by rw [hstatus, if_pos hfull]; decide)]

end Sys2Proof.Machine
end

section
/-! SUPPORT. The steps of the TF-DCE engine: what the dispatch loop does in each of its cases (R212), and the
statements about single commands and about the start and the end of a run. -/

namespace Sys2Proof.Machine

/-! ### The cases of the dispatch loop (R212) -/

section Dispatch

variable {s : State}

/-- The first step of a call (R452). -/
theorem step_tf_start (heng : s.engine = .tfdce) (hph : s.tf.phase = .start) :
    step s = .next { s with tf := TfDce.initialise s.tf.input } := by
  rw [step_eq_fetchTf heng, fetchTf_start hph]

/-- A stopped engine writes its result registers (R213). -/
theorem step_tf_stopped (heng : s.engine = .tfdce) (hph : s.tf.phase = .run) (hst : s.tf.status ≠ .running) :
    step s = .next { s with tf := s.tf.writeResult } := by
  rw [step_eq_fetchTf heng, fetchTf_stopped hph hst]

/-- A full output stops the run with DONE (R406). -/
theorem step_tf_full (heng : s.engine = .tfdce) (hph : s.tf.phase = .run) (hst : s.tf.status = .running)
    (hp : 1920 ≤ s.tf.p) : step s = .next { s with tf := s.tf.stop .done } := by
  rw [step_eq_fetchTf heng, fetchTf_full hph hst hp]

/-- A stream at its end stops the run with TRUNC (R212). -/
theorem step_tf_exhausted (heng : s.engine = .tfdce) (hph : s.tf.phase = .run) (hready : s.tf.ready)
    (hsp : s.tf.input.len ≤ s.tf.sp) : step s = .next { s with tf := s.tf.stop .trunc } := by
  rw [step_eq_fetchTf heng, fetchTf_exhausted hph hready.1 hready.2 hsp]

variable {cmd : Byte} {rest : List Byte}

/-- A missing operand halts before any effect (R211). -/
theorem step_tf_missing (heng : s.engine = .tfdce) (hph : s.tf.phase = .run) (hready : s.tf.ready)
    (hb : s.tf.streamBytes = cmd :: rest) (hi : streamInstr cmd rest = none) :
    step s = .next { s with tf := (s.tf.readCommand cmd rest).haltTrunc } := by
  rw [step_eq_fetchTf heng, fetchTf_missing hph hready.1 hready.2 hb hi]

/-- A command is executed after its bytes have been read (R212). -/
theorem step_tf_command {i : Instr} (heng : s.engine = .tfdce) (hph : s.tf.phase = .run) (hready : s.tf.ready)
    (hb : s.tf.streamBytes = cmd :: rest) (hi : streamInstr cmd rest = some i) :
    step s = exec i { s with tf := s.tf.readCommand cmd rest } := by
  rw [step_eq_fetchTf heng, fetchTf_run hph hready.1 hready.2 hb hi]

/-- A running engine with room either stands at the end of the stream or finds a command byte. -/
theorem TfDce.streamBytes_cases (t : TfDce) :
    t.input.len ≤ t.sp ∨ ∃ cmd rest, t.streamBytes = cmd :: rest := by
  cases hb : t.streamBytes with
  | nil => exact .inl (Buffer.bytesFrom_eq_nil hb)
  | cons cmd rest => exact .inr ⟨cmd, rest, rfl⟩

/-- When fewer than the sixteen bytes asked for follow the command byte, they are all that is left. -/
theorem TfDce.length_of_streamBytes {t : TfDce} (hb : t.streamBytes = cmd :: rest) (hshort : rest.length < 16) :
    t.sp + 1 + rest.length = t.input.len := by
  have hlen : (t.input.bytesFrom t.sp 17).length = rest.length + 1 := congrArg List.length hb
  rw [Buffer.length_bytesFrom] at hlen
  omega

end Dispatch

/-! ### One command (R211, R212) -/

theorem streamInstr_of_decodeCommand {cmd : Byte} {rest left : List Byte} {i : Instr}
    (h : decodeCommand cmd rest = .ok (i, left)) : streamInstr cmd rest = some i := by
  simp only [streamInstr, h]

/-- The reading of a command whose fixed operands are all there. -/
theorem TfDce.readCommand_eq {cmd : Byte} {rest : List Byte} (h : operandCount cmd ≤ rest.length) (t : TfDce) :
    t.readCommand cmd rest =
      { t with
        sp := t.sp + 1 + operandCount cmd
        regs :=
          ⟨cmd, if 1 ≤ operandCount cmd then rest.getD 0 0 else 0,
            if 2 ≤ operandCount cmd then rest.getD 1 0 else 0, 0, 0, 0, 0, 0⟩ } := by
  rw [TfDce.readCommand, Nat.min_eq_left h]
  rfl

/-- A LIT has no fixed operand (R121, R211). -/
theorem operandCount_lit {cmd : Byte} (h : cmd.toNat / 16 = 7) : operandCount cmd = 0 := by
  revert cmd
  decide

theorem lowNibble_toNat (b : Byte) : (lowNibble b).toNat = b.toNat % 16 := by
  revert b
  decide

/-- A LIT whose literals the end of the stream cuts off is held with the literals that are there (R211). -/
theorem cutLiteral_eq {cmd : Byte} {rest : List Byte} (h7 : cmd.toNat / 16 = 7)
    (hshort : rest.length < cmd.toNat % 16 + 1) : cutLiteral cmd rest = some (.lit (lowNibble cmd) rest) := by
  rw [← lowNibble_toNat] at hshort
  exact if_pos ⟨by omega, by omega, hshort⟩

theorem streamInstr_cut {cmd : Byte} {rest : List Byte} (h7 : cmd.toNat / 16 = 7)
    (hshort : rest.length < cmd.toNat % 16 + 1) : streamInstr cmd rest = some (.lit (lowNibble cmd) rest) := by
  have hd : decodeCommand cmd rest = .error .missingBytes := by
    rw [decodeCommand_lit _ (by omega) (by omega), if_pos (by rwa [lowNibble_toNat])]
  simp only [streamInstr, hd, cutLiteral_eq h7 hshort]

/-- Settles O7: the bytes at SP are a whole command, or a LIT that the stream cuts off. -/
theorem stepRunsCommand : Obligations.StepRunsCommand := by
  unfold Obligations.StepRunsCommand
  intro s cmd rest heng hph hready hb
  refine ⟨fun i left hd => ⟨(decodeCommand_ok hd).2, ?_⟩, fun h7 hshort => ⟨cutLiteral_eq h7 hshort, ?_⟩⟩
  · have hi := streamInstr_of_decodeCommand hd
    rw [step_tf_command heng hph hready hb hi, TfDce.readCommand_eq (operandCount_le hi)]
  · have hops := operandCount_lit h7
    have hi := streamInstr_cut h7 hshort
    rw [step_tf_command heng hph hready hb hi, TfDce.readCommand_eq (operandCount_le hi), hops]
    rfl

/-- A command cut inside its fixed operands leaves SP at the end of the stream (R211). -/
theorem TfDce.readCommand_sp_missing {t : TfDce} {cmd : Byte} {rest : List Byte}
    (hb : t.streamBytes = cmd :: rest) (hmiss : rest.length < operandCount cmd) :
    (t.readCommand cmd rest).sp = t.input.len := by
  have hops := operandCount_le_two cmd
  rw [← TfDce.length_of_streamBytes hb (by omega), TfDce.readCommand, Nat.min_eq_right (Nat.le_of_lt hmiss)]

/-- Settles O10: no command is decoded, and the bytes that are there are passed over. -/
theorem missingOperandHalts : Obligations.MissingOperandHalts := by
  unfold Obligations.MissingOperandHalts
  intro s cmd rest heng hph hready hb hmiss
  refine ⟨(s.tf.readCommand cmd rest).regs, ?_⟩
  rw [step_tf_missing heng hph hready hb ((streamInstr_eq_none cmd rest).2 hmiss),
    ← TfDce.readCommand_sp_missing hb hmiss]
  rfl

/-! ### The start and the end of a run (R213, R452) -/

/-- Settles O11: the three cases of the dispatch loop that run no command. -/
theorem endOfRun : Obligations.EndOfRun := by
  unfold Obligations.EndOfRun
  intro s heng hph
  exact ⟨fun hst hp => step_tf_full heng hph hst (Nat.le_of_eq hp.symm),
    fun hready hsp => step_tf_exhausted heng hph hready hsp, fun hst => step_tf_stopped heng hph hst⟩

theorem Planes.read_empty (k : BitVec 2) (a : Nat) : Planes.empty.read k a = 0 := by
  have hget : Planes.empty.get k = [] := by
    unfold Planes.get Planes.empty
    repeat' split
    all_goals rfl
  rw [Planes.read, hget, Memory.read_nil]

/-- Byte 7 is missing only where byte 9 is (R200). -/
theorem headerOob_eq (len : Nat) : headerOob len = decide (len ≤ 9) :=
  Bool.eq_iff_iff.2 (by
    simp only [headerOob, Config.tfSelOff, Config.tfNOff, Bool.or_eq_true, decide_eq_true_eq]
    omega)

/-- Settles O51: the initialisation field by field. -/
theorem recordStart : Obligations.RecordStart := by
  unfold Obligations.RecordStart
  intro s heng hph
  exact ⟨_, step_tf_start heng hph, rfl, rfl, rfl, rfl, rfl, headerOob_eq _, rfl, rfl, rfl, Planes.read_empty,
    Memory.read_nil, rfl⟩

/-! ### MAC and the refused words (R300 to R303, R312) -/

/-- Settles O33: `TfDce.refuse` is the effect that R312 gives. -/
theorem refusedWord : Obligations.RefusedWord := by
  unfold Obligations.RefusedWord
  intro wlo whi s
  rfl

/-- MAC runs the instruction of its header-table word, in the state HTRead leaves (R300, R303). -/
theorem exec_mac (i : BitVec 5) (s : State) :
    exec (.mac i) s =
      exec (decodeTableEntry (s.tf.tableByte (2 * i.toNat)) (s.tf.tableByte (2 * i.toNat + 1)))
        { s with tf := s.tf.htRead i } := by
  have hexec : exec (.mac i) s = execMac i s := rfl
  rw [hexec, execMac, execTableWord_eq, wordLow_htRead, wordHigh_htRead]

theorem tableReadOob_iff (n : Byte) (len off : Nat) :
    tableReadOob n len off = true ↔ ¬(off < 2 * n.toNat ∧ 10 + off < len) := by
  simp only [tableReadOob, Config.tfHtBase, Bool.or_eq_true, decide_eq_true_eq]
  omega

/-- A byte of the header table, 0 past the table or the buffer (R301). -/
theorem TfDce.tableByte_eq (t : TfDce) (off : Nat) :
    t.tableByte off =
      if off < 2 * t.n.toNat ∧ 10 + off < t.input.len then t.input.read (10 + off) else 0 := by
  have hiff := tableReadOob_iff t.n t.input.len off
  unfold TfDce.tableByte
  split
  · rw [if_neg (hiff.1 ‹_›)]
  · rw [if_pos (Classical.not_not.1 (mt hiff.2 ‹_›))]

/-- A missing low byte of a word leaves its high byte missing too, so the high byte decides OOBF (R301). -/
theorem TfDce.htRead_eq (i : BitVec 5) (t : TfDce) :
    t.htRead i =
      { t with
        regs := { t.regs with w := t.tableByte (2 * i.toNat + 1) ++ t.tableByte (2 * i.toNat) }
        oobf := t.oobf ||
          decide (¬(2 * i.toNat + 1 < 2 * t.n.toNat ∧ 10 + (2 * i.toNat + 1) < t.input.len)) } := by
  have hlow : (tableReadOob t.n t.input.len (2 * i.toNat) || tableReadOob t.n t.input.len (2 * i.toNat + 1)) =
      decide (¬(2 * i.toNat + 1 < 2 * t.n.toNat ∧ 10 + (2 * i.toNat + 1) < t.input.len)) :=
    Bool.eq_iff_iff.2 (by
      rw [Bool.or_eq_true, tableReadOob_iff, tableReadOob_iff, decide_eq_true_eq]
      omega)
  rw [TfDce.htRead, Bool.or_assoc, hlow]

/-- Settles O34: the two bytes of the word by `tableByte_eq`, the state the word runs in by `htRead_eq`. -/
theorem macRunsTableWord : Obligations.MacRunsTableWord := by
  unfold Obligations.MacRunsTableWord
  intro i s
  obtain ⟨f, hf, -⟩ := exec_tableWord
    (decodeTableEntry (s.tf.tableByte (2 * i.toNat)) (s.tf.tableByte (2 * i.toNat + 1)))
    (decodeTableEntry_space _ _)
  refine ⟨s.tf.tableByte (2 * i.toNat), s.tf.tableByte (2 * i.toNat + 1), f (s.tf.htRead i),
    fun j b hj => ?_, ?_, ?_⟩
  · rcases hj with ⟨rfl, rfl⟩ | ⟨rfl, rfl⟩ <;> exact TfDce.tableByte_eq _ _
  · rw [exec_mac, hf]
  · rw [hf, TfDce.htRead_eq]

/-- A refused low byte decodes to M.REFUSED (R312). -/
theorem decodeTableEntry_refused {wlo : Byte} (h : refusedWlo wlo = true) (whi : Byte) :
    decodeTableEntry wlo whi = .mRefused wlo whi := by
  simp only [decodeTableEntry, (tableOp_eq_refused_iff wlo).2 h]

theorem exec_mac_refused {i : BitVec 5} {s : State} (h : refusedWlo (s.tf.tableByte (2 * i.toNat)) = true) :
    exec (.mac i) s =
      .next { s with tf := (s.tf.htRead i).refuse (s.tf.tableByte (2 * i.toNat)) } := by
  rw [exec_mac, decodeTableEntry_refused h]
  rfl

/-- Settles O35: MAC reads one byte, so the offset that `refuse` names is that of the command. -/
theorem refusalNamesTheCommand : Obligations.RefusalNamesTheCommand := by
  unfold Obligations.RefusalNamesTheCommand
  intro s cmd rest heng hph hready hb hmac href
  have hfield : ∀ b : Byte, b.toNat < 0x20 → (b.extractLsb' 0 5).toNat = b.toNat := by decide
  have hidx := hfield cmd hmac
  have hi := streamInstr_of_decodeCommand (decodeCommand_mac rest hmac)
  have hsp : (s.tf.readCommand cmd rest).sp = s.tf.sp + 1 := by
    rw [TfDce.readCommand_eq (operandCount_le hi)]
    exact congrArg (s.tf.sp + 1 + ·) (if_pos hmac)
  have hstep := step_tf_command heng hph hready hb hi
  rw [exec_mac_refused (by rw [hidx]; exact href), hidx] at hstep
  refine ⟨_, hstep, rfl, ?_, (TfDce.refuse_sp _ _).trans hsp, TfDce.refuse_p _ _, TfDce.refuse_out _ _,
    TfDce.refuse_pm _ _, TfDce.refuse_pc _ _, TfDce.refuse_po _ _⟩
  exact congrArg (fun sp => TfRefuse.mk cmd (sp - 1) (s.tf.tableByte (2 * cmd.toNat))) hsp

end Sys2Proof.Machine
end

section
/-! SUPPORT. The steps of the LS11 engine: one equation per case of the phases of R140, and the statements about
the symbols, the records and the phases of a call. -/

namespace Sys2Proof.Machine

/-! ### The cases of the phases (R140) -/

section Phases

variable {s : State}

theorem step_ls_start (heng : s.engine = .ls11) (hph : s.ls.phase = .start) :
    step s = .next { s with ls := Ls11.initialise s.ls.input s.ls.mode } := by
  simp only [step_eq_fetchLs heng, fetchLs, hph]

/-- A record that is not all there (R143). -/
theorem step_fat_trunc {e : DecodeError} (heng : s.engine = .ls11) (hph : s.ls.phase = .fat)
    (hr : readFatRecord s.ls.recordBytes = .error e) :
    step s = .next { s with ls := s.ls.raise .fatTrunc s.ls.fat.length } := by
  simp only [step_eq_fetchLs heng, fetchLs, hph, hr]

/-- The sentinel (R143). -/
theorem step_fat_sentinel {v : Word32 × Word32} {rest : List Byte} (heng : s.engine = .ls11)
    (hph : s.ls.phase = .fat) (hr : readFatRecord s.ls.recordBytes = .ok ((0, v), rest)) :
    step s = .next { s with ls := s.ls.endFat } := by
  simp only [step_eq_fetchLs heng, fetchLs, hph, hr, if_true]
  rfl

/-- Any other record (R142). -/
theorem step_fat_record {clen ulen off : Word32} {rest : List Byte} (heng : s.engine = .ls11)
    (hph : s.ls.phase = .fat) (hr : readFatRecord s.ls.recordBytes = .ok ((clen, ulen, off), rest))
    (hc : clen ≠ 0) : step s = .next { s with ls := s.ls.appendRecord ⟨clen, ulen, off⟩ } := by
  simp only [step_eq_fetchLs heng, fetchLs, hph, hr, if_neg hc]

theorem step_validate (heng : s.engine = .ls11) (hph : s.ls.phase = .validate) :
    step s = .next { s with ls := s.ls.validate } := by
  simp only [step_eq_fetchLs heng, fetchLs, hph]

/-- The dispatch of the next record (R145). -/
theorem step_record {r : FatRec} (heng : s.engine = .ls11) (hph : s.ls.phase = .entries)
    (hg : s.ls.fat[s.ls.entries.length]? = some r) : step s = exec (recordInstr r.clen r.ulen r.off) s := by
  rw [step_eq_fetchLs heng, fetchLs_record hph hg]

/-- No record is left (R147). -/
theorem step_finish (heng : s.engine = .ls11) (hph : s.ls.phase = .entries)
    (hg : s.ls.fat[s.ls.entries.length]? = none) : step s = .next { s with ls := s.ls.finish } := by
  rw [step_eq_fetchLs heng, fetchLs_finish hph hg]

/-- The target is full or the bits are used up (R169). -/
theorem step_endEntry (heng : s.engine = .ls11) (hph : s.ls.phase = .symbols) (hl : ¬s.ls.symbolsLeft = true) :
    step s = .next { s with ls := s.ls.endEntry } := by
  rw [step_eq_fetchLs heng, fetchLs_end hph hl]

/-- The symbol at BC is cut off (R170). -/
theorem step_cutEntry (heng : s.engine = .ls11) (hph : s.ls.phase = .symbols) (hl : s.ls.symbolsLeft = true)
    (hr : readSymbol s.ls.pendingBits = none) : step s = .next { s with ls := s.ls.cutEntry } := by
  rw [step_eq_fetchLs heng, fetchLs_cut hph hl hr]

theorem step_ended (heng : s.engine = .ls11) (hph : s.ls.phase = .ended) : step s = .next s := by
  simp only [step_eq_fetchLs heng, fetchLs, hph]

theorem Ls11.symbolsLeft_iff (l : Ls11) :
    l.symbolsLeft = true ↔ l.ep < l.cur.ulen.toNat ∧ l.bc < 8 * l.cur.clen.toNat := by
  simp only [Ls11.symbolsLeft, Bool.and_eq_true, decide_eq_true_eq]
  exact Iff.rfl

/-- A symbol that has been read is a literal or a match (R164). -/
theorem exec_symbol {bits : List Bool} {r : SymbolRead} (hr : readSymbol bits = some r) (s : State) :
    (∃ c, exec r.instr s = .next { s with ls := s.ls.literal c }) ∨
      ∃ dist len, exec r.instr s = .next { s with ls := s.ls.matchCopy dist len } := by
  obtain ⟨-, -, -, -, ⟨c, hc⟩ | ⟨dist, len, hm⟩⟩ := readSymbol_inv hr
  · exact .inl ⟨c, by rw [hc]; rfl⟩
  · exact .inr ⟨dist, len, by rw [hm]; rfl⟩

/-- Everything a step inside the symbol loop can do (R164 to R171). -/
theorem step_symbols_cases (heng : s.engine = .ls11) (hph : s.ls.phase = .symbols) :
    (¬s.ls.symbolsLeft = true ∧ step s = .next { s with ls := s.ls.endEntry }) ∨
      (s.ls.symbolsLeft = true ∧ readSymbol s.ls.pendingBits = none ∧
        step s = .next { s with ls := s.ls.cutEntry }) ∨
      ∃ r, s.ls.symbolsLeft = true ∧ readSymbol s.ls.pendingBits = some r ∧
        ((∃ c, step s = .next { s with ls := (s.ls.consume r).literal c }) ∨
          ∃ dist len, step s = .next { s with ls := (s.ls.consume r).matchCopy dist len }) := by
  by_cases hl : s.ls.symbolsLeft = true
  · cases hr : readSymbol s.ls.pendingBits with
    | none => exact .inr (.inl ⟨hl, rfl, step_cutEntry heng hph hl hr⟩)
    | some r =>
      rw [step_symbol heng hph hl hr]
      exact .inr (.inr ⟨r, hl, rfl, exec_symbol hr _⟩)
  · exact .inl ⟨hl, step_endEntry heng hph hl⟩

end Phases

/-! ### The match (R166) -/

theorem eoReadOob_eq (ep dist : Nat) : eoReadOob ep dist = decide (dist = 0 ∨ ep < dist) :=
  Bool.eq_iff_iff.2 (by simp only [eoReadOob, Bool.or_eq_true, beq_iff_eq, decide_eq_true_eq])

/-- Settles O38: the copy loop's law, with the flag as one test. -/
theorem matchSymbol : Obligations.MatchSymbol := by
  unfold Obligations.MatchSymbol
  rintro dist len s hep ⟨-, -, -, heout, -⟩
  obtain ⟨m, -, hcopy, hread⟩ := Ls11.matchCopy_eq dist len s.ls heout hep
  refine ⟨m, ?_, hread⟩
  have hexec : exec (.matchSym dist len) s = .next { s with ls := s.ls.matchCopy dist len } := rfl
  rw [hexec, hcopy, eoReadOob_eq, ← Bool.decide_and]

/-! ### The records (R143, R145, R148, R169) -/

/-- Settles O39: `Ls11.endFat` is the effect that R143 gives. -/
theorem sentinelRecord : Obligations.SentinelRecord := by
  unfold Obligations.SentinelRecord
  intro s
  rfl

theorem Ls11.sliceInside_iff (l : Ls11) (off clen : Word32) :
    l.sliceInside off clen = true ↔ off.toNat + clen.toNat ≤ l.input.len := by
  simp only [Ls11.sliceInside, decide_eq_true_eq]

theorem onSlice_inside {off clen : Word32} {s : State} (h : off.toNat + clen.toNat ≤ s.ls.input.len)
    (f : Ls11 → Ls11) : onSlice off clen f s = .next { s with ls := f s.ls } :=
  if_pos ((s.ls.sliceInside_iff off clen).2 h)

theorem onSlice_outside {off clen : Word32} {s : State} (h : s.ls.input.len < off.toNat + clen.toNat)
    (f : Ls11 → Ls11) : onSlice off clen f s = .fault .inputRange :=
  if_neg (mt (s.ls.sliceInside_iff off clen).1 (Nat.not_le.2 h))

/-- Settles O40: the bytes of the entry are those of the slice. -/
theorem verbatimRecord : Obligations.VerbatimRecord := by
  unfold Obligations.VerbatimRecord
  intro clen off s h
  refine ⟨s.ls.input.slice off.toNat clen.toNat, onSlice_inside h _, rfl, fun a ha => ?_⟩
  exact Memory.read_slice.trans (if_pos ha)

/-- Settles O41: the start of the symbol loop, on a slice that is there. -/
theorem codedRecord : Obligations.CodedRecord := by
  unfold Obligations.CodedRecord
  intro clen ulen off s h
  exact onSlice_inside h _

/-- Settles O42: both kinds of entry read their slice. -/
theorem sliceOutsideArchiveStops : Obligations.SliceOutsideArchiveStops := by
  unfold Obligations.SliceOutsideArchiveStops
  intro clen ulen off s h
  exact ⟨onSlice_outside h _, onSlice_outside h _⟩

theorem recordInstr_of_ne_zero {clen : Word32} (h : clen ≠ 0) (ulen off : Word32) :
    recordInstr clen ulen off = if clen = ulen then .entryVerbatim clen off else .entryCoded clen ulen off :=
  if_neg h

/-- Settles O9: no record of the FAT is the sentinel, so the kind is decided by CLEN = ULEN. -/
theorem stepRunsRecord : Obligations.StepRunsRecord := by
  unfold Obligations.StepRunsRecord
  intro s r heng hph hg hc
  rw [step_record heng hph hg, recordInstr_of_ne_zero hc]

/-! ### The start of a call (R141, R451) -/

/-- Settles O43: the two branches of the initialisation. -/
theorem archiveStart : Obligations.ArchiveStart := by
  unfold Obligations.ArchiveStart
  intro s heng hph
  rw [step_ls_start heng hph]
  refine ⟨fun h => ?_, fun h => ⟨s.ls.input.cells.slice 0 16, s.ls.input.cells.slice 16 256, ?_, fun a => ?_,
    fun a => Memory.read_slice⟩⟩
  · rw [Ls11.initialise, if_pos h]
    rfl
  · rw [Ls11.initialise, if_neg (Nat.not_lt.2 h)]
  · rw [Memory.read_slice, Nat.zero_add]
    rfl

/-! ### The FAT (R142, R143) -/

/-- Four bytes of the archive read as a FAT field are its big-endian value (R75). -/
theorem Buffer.be32_toNat_eq_u32 (b : Buffer) (a : Nat) :
    (be32 (b.read a) (b.read (a + 1)) (b.read (a + 2)) (b.read (a + 3))).toNat = b.u32 a := be32_toNat _ _ _ _

/-- The CLEN of the record at `a` is the sentinel's exactly when its value is 0. -/
theorem Buffer.be32_eq_zero_iff (b : Buffer) (a : Nat) :
    be32 (b.read a) (b.read (a + 1)) (b.read (a + 2)) (b.read (a + 3)) = 0 ↔ b.u32 a = 0 := by
  rw [← Buffer.be32_toNat_eq_u32]
  exact ⟨fun h => by rw [h]; rfl, fun h => BitVec.eq_of_toNat_eq h⟩

/-- A record whose CLEN is cut off (R143). -/
theorem readFatRecord_short {bytes : List Byte} (h : bytes.length < 4) :
    readFatRecord bytes = .error .missingBytes := by
  match bytes with
  | [] | [_] | [_, _] | [_, _, _] => rfl
  | _ :: _ :: _ :: _ :: _ => simp only [List.length_cons] at h; omega

section Record

variable {c0 c1 c2 c3 : Byte}

/-- The sentinel, whatever follows its CLEN (R143). -/
theorem readFatRecord_sentinel (hc : be32 c0 c1 c2 c3 = 0) (tail : List Byte) :
    readFatRecord (c0 :: c1 :: c2 :: c3 :: tail) = .ok ((0, 0, 0), tail) := if_pos hc

/-- A whole record (R142). -/
theorem readFatRecord_whole (hc : be32 c0 c1 c2 c3 ≠ 0) (u0 u1 u2 u3 o0 o1 o2 o3 : Byte) :
    readFatRecord [c0, c1, c2, c3, u0, u1, u2, u3, o0, o1, o2, o3] =
      .ok ((be32 c0 c1 c2 c3, be32 u0 u1 u2 u3, be32 o0 o1 o2 o3), []) := if_neg hc

/-- A record that is cut off behind its CLEN (R143). -/
theorem readFatRecord_cut {tail : List Byte} (hc : be32 c0 c1 c2 c3 ≠ 0) (h : tail.length < 8) :
    readFatRecord (c0 :: c1 :: c2 :: c3 :: tail) = .error .missingBytes := by
  match tail with
  | [] | [_] | [_, _] | [_, _, _] | [_, _, _, _] | [_, _, _, _, _] | [_, _, _, _, _, _]
  | [_, _, _, _, _, _, _] => exact if_neg hc
  | _ :: _ :: _ :: _ :: _ :: _ :: _ :: _ :: _ => simp only [List.length_cons] at h; omega

end Record

/-- Settles O44: the bytes of the record are cut inside CLEN, hold a CLEN of 0, or are cut behind it. -/
theorem fatTermination : Obligations.FatTermination := by
  unfold Obligations.FatTermination
  intro s heng hph r
  have hbytes : s.ls.recordBytes = s.ls.input.bytesFrom r 12 := rfl
  refine ⟨fun h => ?_, fun h hzero => ?_, fun h hne hcut => ?_⟩
  · refine step_fat_trunc heng hph (readFatRecord_short ?_)
    rw [hbytes, Buffer.length_bytesFrom]
    omega
  · obtain ⟨tail, htail, -⟩ := s.ls.input.bytesFrom_four r h
    refine step_fat_sentinel (v := (0, 0)) (rest := tail) heng hph ?_
    rw [hbytes, htail, readFatRecord_sentinel ((s.ls.input.be32_eq_zero_iff r).2 hzero)]
  · obtain ⟨tail, htail, hlen⟩ := s.ls.input.bytesFrom_four r h
    refine step_fat_trunc (e := .missingBytes) heng hph ?_
    rw [hbytes, htail]
    exact readFatRecord_cut (mt (s.ls.input.be32_eq_zero_iff r).1 hne) (by omega)

/-- Settles O45: the twelve bytes of the record are three big-endian fields. -/
theorem fatRecordAppended : Obligations.FatRecordAppended := by
  unfold Obligations.FatRecordAppended
  intro s heng hph hlen hne
  have hbytes : s.ls.recordBytes = s.ls.input.bytesFrom (272 + 12 * s.ls.fat.length) 12 := rfl
  generalize 272 + 12 * s.ls.fat.length = a at hbytes hlen hne ⊢
  have hc := mt (s.ls.input.be32_eq_zero_iff a).1 hne
  rw [s.ls.input.bytesFrom_twelve a hlen] at hbytes
  exact ⟨_, step_fat_record heng hph (hbytes ▸ readFatRecord_whole hc _ _ _ _ _ _ _ _) hc,
    s.ls.input.be32_toNat_eq_u32 a, s.ls.input.be32_toNat_eq_u32 (a + 4), s.ls.input.be32_toNat_eq_u32 (a + 8)⟩

/-! ### Validation and the ends of a call (R144 to R147) -/

theorem Ls11.validate_some {l : Ls11} {i : Nat} (h : firstOutOfRange l.input.len 0 l.fat = some i) :
    l.validate = l.faulted .fatRange i := by
  simp only [Ls11.validate, h]
  rfl

theorem Ls11.validate_none {l : Ls11} (h : firstOutOfRange l.input.len 0 l.fat = none) :
    l.validate = if l.mode = .count then l.completed else { l with phase := .entries } := by
  simp only [Ls11.validate, h]
  cases hm : l.mode <;> rfl

/-- Settles O46: the first record out of range, or none. -/
theorem fatValidation : Obligations.FatValidation := by
  unfold Obligations.FatValidation
  intro s heng hph
  rw [step_validate heng hph]
  refine ⟨fun i r hg hout hin => ?_, fun hin => ?_⟩
  · rw [Ls11.validate_some (firstOutOfRange_eq hg hout hin)]
  · rw [Ls11.validate_none (firstOutOfRange_none.2 hin)]

/-- Settles O48: after the last record there is none to dispatch. -/
theorem archiveResult : Obligations.ArchiveResult := by
  unfold Obligations.ArchiveResult
  intro s heng
  exact ⟨fun hph hlen => step_finish heng hph (List.getElem?_eq_none (Nat.le_of_eq hlen.symm)), step_ended heng⟩

/-! ### The ends of a coded entry (R169 to R172) -/

/-- Settles O47: the loop's two tests end the entry as it stands, a cut symbol after BC is moved to the end. -/
theorem codedEntryEnd : Obligations.CodedEntryEnd := by
  unfold Obligations.CodedEntryEnd
  intro s heng hph hend
  by_cases hl : s.ls.symbolsLeft = true
  · obtain ⟨hep, hbc⟩ := s.ls.symbolsLeft_iff.1 hl
    have hcut : readSymbol s.ls.pendingBits = none := (hend.resolve_left (by omega)).resolve_left (by omega)
    exact ⟨_, _, step_cutEntry heng hph hl hcut⟩
  · exact ⟨s.ls.bc, s.ls.regs, step_endEntry heng hph hl⟩

/-- EOUT is all zero (R172). -/
def Ls11.EoutZero (l : Ls11) : Prop := ∀ a, l.eout.read a = 0

/-- A literal of an all-zero dictionary writes a zero (R172). -/
theorem Ls11.literal_eoutZero {l : Ls11} (hw : l.eout.wf) (hd : ∀ a, l.dict.read a = 0) (hz : l.EoutZero)
    (c : Byte) : (l.literal c).EoutZero := by
  intro a
  by_cases h : l.ep < l.cur.ulen.toNat
  · rw [Ls11.literal_eq h, Memory.read_write hw, hd, hz, ite_self]
  · rw [Ls11.literal, Ls11.putByte, if_neg h]
    exact hz a

/-- One byte of a match copies a zero, or fills one in (R73, R172). -/
theorem Ls11.copyByte_eoutZero {l : Ls11} (hw : l.eout.wf) (hz : l.EoutZero) (h : l.ep < l.cur.ulen.toNat) :
    l.copyByte.EoutZero ∧ l.copyByte.eout.wf := by
  have hbyte : l.eoRead = 0 := by
    unfold Ls11.eoRead
    split
    · rfl
    · exact hz _
  rw [Ls11.copyByte_eq h]
  refine ⟨fun a => ?_, Memory.write_wf hw⟩
  rw [Memory.read_write hw, hbyte, hz, ite_self]

theorem Ls11.copyLoop_eoutZero (n : Nat) {l : Ls11} (hw : l.eout.wf) (hz : l.EoutZero) :
    (Ls11.copyLoop n l).EoutZero := by
  induction n generalizing l with
  | zero => exact hz
  | succ n ih =>
    rw [Ls11.copyLoop]
    split
    · obtain ⟨hz', hw'⟩ := Ls11.copyByte_eoutZero hw hz ‹_›
      exact ih hw' hz'
    · exact hz

/-- A match appends no entry. -/
theorem Ls11.copyLoop_entries (n : Nat) (l : Ls11) : (Ls11.copyLoop n l).entries = l.entries := by
  induction n generalizing l with
  | zero => rfl
  | succ n ih =>
    rw [Ls11.copyLoop]
    split
    · rw [ih, Ls11.copyByte, Ls11.putByte_entries]
    · rfl

/-- Settles O49: a symbol keeps EOUT all zero, and an entry that ends holds EOUT. -/
theorem zeroDictionary : Obligations.ZeroDictionary := by
  unfold Obligations.ZeroDictionary
  rintro s t heng hph ⟨-, -, -, hw, -⟩ hd hz ht
  have hentry : ∀ e ∈ s.ls.endEntry.entries, e ∈ s.ls.entries ∨
      (e.data.len = s.ls.cur.ulen.toNat ∧ ∀ a, e.data.read a = 0) := by
    intro e he
    rw [Ls11.endEntry_entries, List.mem_append, List.mem_singleton] at he
    rcases he with he | rfl
    · exact .inl he
    · exact .inr ⟨rfl, hz⟩
  rcases step_symbols_cases heng hph with ⟨-, h⟩ | ⟨-, -, h⟩ | ⟨r, -, -, ⟨c, h⟩ | ⟨dist, len, h⟩⟩ <;>
    rw [h] at ht <;> cases ht
  · exact ⟨hz, hentry⟩
  · exact ⟨hz, hentry⟩
  · refine ⟨Ls11.literal_eoutZero (l := s.ls.consume r) hw hd hz c, fun e he => .inl ?_⟩
    rwa [Ls11.literal, Ls11.putByte_entries] at he
  · refine ⟨Ls11.copyLoop_eoutZero len (l := { s.ls.consume r with regs := _ }) hw hz, fun e he => .inl ?_⟩
    rwa [Ls11.matchCopy, Ls11.copyLoop_entries] at he

end Sys2Proof.Machine
end

section
/-! SUPPORT. The whole machine: a step is a function of one engine's state (Laws/Step), so the engines share
nothing, inputs are read-only, and calls forget the past; and runs that a measure bounds. -/

namespace Sys2Proof.Machine

/-! ### One step -/

/-- Settles O56: a step is an effect on its own engine. -/
theorem enginesShareNoState : Obligations.EnginesShareNoState := by
  unfold Obligations.EnginesShareNoState
  intro s t h
  cases heng : s.engine with
  | tfdce =>
    obtain ⟨f, hf, -⟩ := step_tfdce
    rw [hf s heng] at h
    cases h
    exact ⟨heng, fun _ => rfl, nofun⟩
  | ls11 =>
    obtain ⟨f, hf, -⟩ := step_ls11
    rw [hf s heng] at h
    cases hl : f s.ls <;> rw [hl] at h <;> cases h
    exact ⟨heng, nofun, fun _ => rfl⟩

/-- Settles O57: the effect on either engine keeps its input. -/
theorem inputsAreReadOnly : Obligations.InputsAreReadOnly := by
  unfold Obligations.InputsAreReadOnly
  intro s t h
  cases heng : s.engine with
  | tfdce =>
    obtain ⟨f, hf, hk, -⟩ := step_tfdce
    rw [hf s heng] at h
    cases h
    exact ⟨(hk s.tf).1, rfl, rfl⟩
  | ls11 =>
    obtain ⟨f, hf, hk⟩ := step_ls11
    rw [hf s heng] at h
    cases hl : f s.ls <;> rw [hl] at h <;> cases h
    exact ⟨rfl, hk _ _ hl⟩

/-- Settles O50: the reset values, field by field. -/
theorem resetValues : Obligations.ResetValues := by
  unfold Obligations.ResetValues
  exact ⟨rfl, rfl, rfl, rfl, rfl, rfl, rfl, Planes.read_empty, Memory.read_nil, rfl, rfl, rfl⟩

/-- Settles O53: the start of a call of either engine has the invariant, and leaves the other engine as it is. -/
theorem invariantAtStart : Obligations.InvariantAtStart := by
  unfold Obligations.InvariantAtStart
  have hempty : Buffer.empty.wf := ⟨Memory.wf_nil, by simp [Buffer.empty]⟩
  exact ⟨⟨TfDce.atStart_inv hempty, Ls11.atStart_inv hempty⟩, fun s input mode hs hin =>
    ⟨⟨TfDce.atStart_inv hin, hs.2⟩, ⟨hs.1, Ls11.atStart_inv hin⟩⟩⟩

/-! ### Runs -/

theorem run_succ_of_next {s s' : State} (h : step s = .next s') (k : Nat) :
    Sys2Proof.core.run (k + 1) s = Sys2Proof.core.run k s' := by
  simp only [Host.Core.run, show Sys2Proof.core.step s = .next s' from h]

theorem run_succ_of_fault {s : State} {e : Fault} (h : step s = .fault e) (k : Nat) :
    Sys2Proof.core.run (k + 1) s = .fault e := by
  simp only [Host.Core.run, show Sys2Proof.core.step s = .fault e from h]

/-- Two runs in a row. -/
theorem run_add {s t : State} {k : Nat} (h : Sys2Proof.core.run k s = .next t) (j : Nat) :
    Sys2Proof.core.run (k + j) s = Sys2Proof.core.run j t := by
  induction k generalizing s with
  | zero => cases h; rw [Nat.zero_add]
  | succ k ih =>
    rw [Nat.succ_add]
    cases hs : step s with
    | next s' =>
      rw [run_succ_of_next hs] at h ⊢
      exact ih h
    | fault e => rw [run_succ_of_fault hs] at h; cases h
    | refused r =>
      simp only [Host.Core.run, show Sys2Proof.core.step s = .refused r from hs, reduceCtorEq] at h

/-- A measure that every step on the way to a goal lowers bounds the steps to the goal. -/
theorem run_until {P goal : State → Prop} {measure : State → Nat}
    (hstep : ∀ s, P s → ¬goal s → ∃ s', step s = .next s' ∧ P s' ∧ measure s' < measure s) (s : State)
    (hs : P s) :
    ∃ k t, k ≤ measure s ∧ Sys2Proof.core.run k s = .next t ∧ P t ∧ goal t := by
  induction hn : measure s using Nat.strong_induction_on generalizing s with
  | _ n ih =>
    by_cases hg : goal s
    · exact ⟨0, s, Nat.zero_le _, rfl, hs, hg⟩
    · obtain ⟨s', hnext, hs', hlt⟩ := hstep s hs hg
      obtain ⟨k, t, hk, hrun, hP, hG⟩ := ih _ (hn ▸ hlt) s' hs' rfl
      exact ⟨k + 1, t, by omega, by rw [run_succ_of_next hnext, hrun], hP, hG⟩

/-- A run of the TF-DCE engine is an iteration on that engine's state. -/
theorem run_tfdce : ∃ f : TfDce → TfDce, ∀ (k : Nat) (s : State), s.engine = .tfdce →
    Sys2Proof.core.run k s = .next { s with tf := f^[k] s.tf } := by
  obtain ⟨f, hf, -⟩ := step_tfdce
  refine ⟨f, fun k => ?_⟩
  induction k with
  | zero => exact fun _ _ => rfl
  | succ k ih =>
    intro s heng
    rw [run_succ_of_next (hf s heng)]
    exact ih _ heng

/-- Two runs of the LS11 engine from the same state of it agree. -/
theorem run_ls11_congr (k : Nat) {s s' t : State} (heng : s.engine = .ls11) (heng' : s'.engine = .ls11)
    (hls : s'.ls = s.ls) (h : Sys2Proof.core.run k s = .next t) :
    ∃ t' : State, Sys2Proof.core.run k s' = .next t' ∧ t'.ls = t.ls := by
  obtain ⟨f, hf, -⟩ := step_ls11
  induction k generalizing s s' with
  | zero =>
    cases h
    exact ⟨s', rfl, hls⟩
  | succ k ih =>
    have hs := hf s heng
    have hs' := hf s' heng'
    rw [hls] at hs'
    cases hl : f s.ls <;> rw [hl] at hs hs'
    case none =>
      rw [run_succ_of_fault hs] at h
      cases h
    case some l =>
      rw [run_succ_of_next hs] at h
      rw [run_succ_of_next hs']
      exact ih (s := { s with ls := l }) (s' := { s' with ls := l }) heng heng' rfl h

/-- Settles O58: both calls start the engine in the same state. -/
theorem callsForgetThePast : Obligations.CallsForgetThePast := by
  unfold Obligations.CallsForgetThePast
  intro s s' input mode k t
  refine ⟨fun h => ?_, fun h => run_ls11_congr k (s := s.callLs11 input mode) rfl rfl rfl h⟩
  obtain ⟨f, hf⟩ := run_tfdce
  rw [hf k (s.callTfdce input) rfl] at h
  cases h
  exact ⟨_, hf k (s'.callTfdce input) rfl, rfl⟩

/-- The steps left to a running TF-DCE engine: one for each stream byte, and one that stops (R214). -/
def TfDce.stepsLeft (t : TfDce) : Nat := if t.status = .running then t.input.len - t.sp + 1 else 0

/-- A step of a running engine takes a byte from the stream, or stops (R214). -/
theorem step_tf_lt {s : State} (heng : s.engine = .tfdce) (hph : s.tf.phase = .run) (hst : s.tf.status = .running) :
    ∃ u, step s = .next { s with tf := u } ∧ u.phase = .run ∧ u.stepsLeft < s.tf.stepsLeft := by
  obtain ⟨f, hf, hkeep, hmove⟩ := step_tfdce
  refine ⟨_, hf s heng, (hkeep s.tf).2, ?_⟩
  simp only [TfDce.stepsLeft, if_pos hst, (hkeep s.tf).1]
  split
  · have := (hmove s.tf hph).2 ‹_›
    omega
  · exact Nat.succ_pos _

/-- Settles O59: every step of a running engine lowers the steps left. -/
theorem recordCallTerminates : Obligations.RecordCallTerminates := by
  unfold Obligations.RecordCallTerminates
  intro s heng hph
  obtain ⟨k, t, hk, hrun, -, hgoal⟩ := run_until (P := fun u => u.engine = .tfdce ∧ u.tf.phase = .run)
    (goal := fun u => u.tf.status ≠ .running) (measure := fun u => u.tf.stepsLeft)
    (fun u ⟨heng, hph⟩ hgoal => by
      obtain ⟨v, hs, hph', hlt⟩ := step_tf_lt heng hph (Classical.not_not.1 hgoal)
      exact ⟨_, hs, ⟨heng, hph'⟩, hlt⟩) s ⟨heng, hph⟩
  refine ⟨k, t, Nat.le_trans hk ?_, hrun, hgoal⟩
  unfold TfDce.stepsLeft
  split <;> omega

end Sys2Proof.Machine
end

section
/-! SUPPORT. Every step from a state with the invariant answers, and keeps the invariant: the TF-DCE engine by the
cases of the dispatch loop (R212), the LS11 engine phase by phase (R140). -/

namespace Sys2Proof.Machine

/-! ### TF-DCE -/

/-- The end of a run writes OUT, which lies inside 1920 bytes, to the result (R213). -/
theorem TfDce.stop_inv {t : TfDce} {status : TfStatus} (h : t.Inv) (hph : t.phase = .run)
    (hdone : status = .done ↔ t.p = 1920) (htrunc : status = .trunc → t.input.len ≤ t.sp) :
    (t.stop status).Inv := by
  obtain ⟨⟨hin, hpm, hout, -⟩, hrun⟩ := h
  obtain ⟨hhdr, hmir, -, hsp⟩ := hrun hph
  have hbelow : t.out.below 1920 := fun c hc => Nat.lt_of_lt_of_le (hmir.2.1 c hc) hmir.1
  exact ⟨⟨hin, hpm, hout, hout, hbelow⟩, fun _ => ⟨hhdr, hmir, ⟨hdone, htrunc⟩, hsp⟩⟩

/-- A command cut inside its fixed operands stops at the end of the stream (R211). -/
theorem TfDce.haltTrunc_readCommand_inv {t : TfDce} {cmd : Byte} {rest : List Byte} (h : t.Inv)
    (hph : t.phase = .run) (hp : t.p < 1920) (hb : t.streamBytes = cmd :: rest)
    (hmiss : rest.length < operandCount cmd) : ((t.readCommand cmd rest).haltTrunc).Inv := by
  obtain ⟨hcan, hrun⟩ := h
  obtain ⟨hhdr, hmir, -, hsp⟩ := hrun hph
  have hend : (t.readCommand cmd rest).sp = t.input.len := TfDce.readCommand_sp_missing hb hmiss
  have hlt := (Buffer.bytesFrom_eq_cons hb).1
  refine ⟨hcan, fun _ => ⟨hhdr, hmir, ⟨?_, fun _ => Nat.le_of_eq hend.symm⟩, ?_⟩⟩
  · simp only [TfDce.haltTrunc_status, TfDce.haltTrunc_p, TfDce.readCommand_p, reduceCtorEq, false_iff]
    omega
  · simp only [TfDce.haltTrunc_n, TfDce.readCommand_n, TfDce.haltTrunc_sp, hend]
    omega

/-- A literal run holds fewer literals than it asks for only where the stream cut it off, all its bytes read
(R211). -/
theorem TfDce.sp_of_cut_literal {t : TfDce} {cmd : Byte} {rest : List Byte} {n : BitVec 4} {bs : List Byte}
    (hb : t.streamBytes = cmd :: rest) (hi : streamInstr cmd rest = some (.lit n bs))
    (hcut : bs.length < n.toNat + 1) :
    (t.readCommand cmd rest).sp + bs.length = t.input.len := by
  rcases streamInstr_some hi with ⟨left, hd⟩ | ⟨hlit, hshort, hops⟩
  · have hwf : bs.length = n.toNat + 1 := beq_iff_eq.1 (decodeCommand_ok hd).2
    omega
  · obtain ⟨rfl, rfl⟩ := Instr.lit.inj hlit
    have hlen := TfDce.length_of_streamBytes hb (by omega)
    rw [TfDce.readCommand_eq (by omega), hops]
    exact hlen

/-- A command keeps the invariant (R212). -/
theorem step_tf_command_inv {s : State} {cmd : Byte} {rest : List Byte} {i : Instr} (heng : s.engine = .tfdce)
    (h : s.tf.Inv) (hph : s.tf.phase = .run) (hready : s.tf.ready) (hb : s.tf.streamBytes = cmd :: rest)
    (hi : streamInstr cmd rest = some i) : ∃ u, step s = .next { s with tf := u } ∧ u.Inv := by
  obtain ⟨hcan, hrun⟩ := h
  obtain ⟨⟨hselb, hn, hpo⟩, hmir, -, hsp⟩ := hrun hph
  have hperm : s.tf.po.isPermutation := hpo ▸ planeOrderTable_isPermutation _
  have hspace := streamInstr_space hi
  obtain ⟨u, hu, hadv, htrunc⟩ := exec_command_advances (s := { s with tf := s.tf.readCommand cmd rest }) i hspace
    hready (TfDce.clean_of_canonical hcan) hmir hperm
  obtain ⟨f, hf, hfollows⟩ := exec_command i hspace
  have huf : f (s.tf.readCommand cmd rest) = u := by
    have heq := (hf { s with tf := s.tf.readCommand cmd rest }).symm.trans hu
    exact congrArg State.tf (Host.Outcome.next.inj heq)
  have hkeep := huf ▸ hfollows (s.tf.readCommand cmd rest)
  have hread : s.tf.sp ≤ (s.tf.readCommand cmd rest).sp := by
    rw [TfDce.readCommand_eq (operandCount_le hi), Nat.add_assoc]
    exact Nat.le_add_right _ _
  have hinput : u.input = s.tf.input := hkeep.input
  have hun : u.n = s.tf.n := hkeep.n
  refine ⟨u, (step_tf_command heng hph hready hb hi).trans hu, ⟨?_, hadv.clean.1, hadv.clean.2, ?_⟩, fun _ =>
    ⟨⟨?_, ?_, ?_⟩, hadv.mirror, ⟨hadv.done, fun ht => ?_⟩, ?_⟩⟩
  · exact hinput ▸ hcan.1
  · exact hkeep.resultOut ▸ hcan.2.2.2
  · rw [hkeep.selb, hinput]
    exact hselb
  · rw [hun, hinput]
    exact hn
  · rw [hkeep.po, hkeep.selb]
    exact hpo
  · obtain ⟨n, bs, rfl, hcut, husp⟩ := htrunc ht
    rw [hinput, husp]
    exact Nat.le_of_eq (TfDce.sp_of_cut_literal hb hi hcut).symm
  · rw [hun]
    exact Nat.le_trans hsp (Nat.le_trans hread hkeep.sp)

/-- A step of the TF-DCE engine answers, and keeps its invariant. -/
theorem step_tf_inv {s : State} (heng : s.engine = .tfdce) (h : s.tf.Inv) :
    ∃ u, step s = .next { s with tf := u } ∧ u.Inv := by
  cases hph : s.tf.phase with
  | start => exact ⟨_, step_tf_start heng hph, TfDce.initialise_inv h.1.1⟩
  | run =>
    obtain ⟨-, hmir, ⟨hdone, htrunc⟩, -⟩ := h.2 hph
    by_cases hst : s.tf.status = .running
    · rcases Nat.lt_or_ge s.tf.p 1920 with hp | hp
      · rcases s.tf.streamBytes_cases with hend | ⟨cmd, rest, hb⟩
        · refine ⟨_, step_tf_exhausted heng hph ⟨hst, hp⟩ hend, TfDce.stop_inv h hph ?_ fun _ => hend⟩
          simp only [reduceCtorEq, false_iff]
          omega
        · cases hi : streamInstr cmd rest with
          | none => exact ⟨_, step_tf_missing heng hph ⟨hst, hp⟩ hb hi,
              TfDce.haltTrunc_readCommand_inv h hph hp hb ((streamInstr_eq_none cmd rest).1 hi)⟩
          | some i => exact step_tf_command_inv heng h hph ⟨hst, hp⟩ hb hi
      · exact ⟨_, step_tf_full heng hph hst hp,
          TfDce.stop_inv h hph (iff_of_true rfl (Nat.le_antisymm hmir.1 hp)) nofun⟩
    · exact ⟨_, step_tf_stopped heng hph hst, TfDce.stop_inv (status := s.tf.status) h hph hdone htrunc⟩

/-! ### LS11: the invariant of each phase -/

section Phase

variable {l : Ls11}

theorem Ls11.inv_fat (h : l.phase = .fat) : l.Inv ↔ l.canonical ∧ l.Loaded ∧ l.entries = [] := by
  simp only [Ls11.Inv, h]

theorem Ls11.inv_validate (h : l.phase = .validate) : l.Inv ↔ l.canonical ∧ l.Loaded ∧ l.entries = [] := by
  simp only [Ls11.Inv, h]

theorem Ls11.inv_entries (h : l.phase = .entries) :
    l.Inv ↔ l.canonical ∧ l.Loaded ∧ l.Validated ∧ l.mode = .decode ∧ l.EntriesFit := by
  simp only [Ls11.Inv, h]

theorem Ls11.inv_symbols (h : l.phase = .symbols) :
    l.Inv ↔ l.canonical ∧ l.Loaded ∧ l.Validated ∧ l.mode = .decode ∧ l.EntriesFit ∧ l.LoopFits := by
  simp only [Ls11.Inv, h]

theorem Ls11.inv_ended (h : l.phase = .ended) : l.Inv ↔ l.canonical ∧ l.ResultFits := by
  simp only [Ls11.Inv, h]

/-- A property of every element by its place is that of the elements before the last and of the last. -/
theorem forall_getElem?_append_singleton {α : Type} {P : Nat → α → Prop} {xs : List α} {x : α}
    (h : ∀ (i : Nat) y, xs[i]? = some y → P i y) (hx : P xs.length x) (i : Nat) (y : α)
    (hy : (xs ++ [x])[i]? = some y) : P i y := by
  rcases Nat.lt_trichotomy i xs.length with hi | rfl | hi
  · rw [List.getElem?_append_left hi] at hy
    exact h i y hy
  · rw [List.getElem?_concat_length] at hy
    exact Option.some.inj hy ▸ hx
  · rw [List.getElem?_eq_none (by rw [List.length_append, List.length_singleton]; omega)] at hy
    cases hy

/-! ### LS11: the start, the FAT and the validation (R141 to R144) -/

/-- A fault ends the call with no entry (R147, R401). -/
theorem Ls11.raise_inv (hc : l.canonical) {x : LsFault} (hx : x ≠ .none) (i : Nat) : (l.raise x i).Inv := by
  obtain ⟨hin, hhdr, hdict, heout, -⟩ := hc
  exact (Ls11.inv_ended rfl).2 ⟨⟨hin, hhdr, hdict, heout, nofun⟩, fun _ => ⟨hx, rfl, rfl⟩, nofun⟩

/-- The header and dictionary load (R141). -/
theorem Ls11.initialise_inv {input : Buffer} (h : input.wf) (mode : LsMode) :
    (Ls11.initialise input mode).Inv := by
  unfold Ls11.initialise
  split
  · exact Ls11.raise_inv (Ls11.atStart_inv h).1 (by decide) 0
  · rename_i hlen
    exact (Ls11.inv_fat rfl).2 ⟨⟨h, Memory.slice_wf h.1, Memory.slice_wf h.1, Memory.wf_nil, nofun⟩,
      ⟨Nat.le_of_not_lt hlen, rfl, rfl, nofun⟩, rfl⟩

/-- A record takes all twelve bytes that the parse looks at (R142). -/
theorem readFatRecord_recordBytes {clen ulen off : Word32} {rest : List Byte}
    (hr : readFatRecord l.recordBytes = .ok ((clen, ulen, off), rest)) (hc : clen ≠ 0) :
    rest = [] ∧ 272 + 12 * l.fat.length + 12 ≤ l.input.len := by
  have hbytes := readFatRecord_ok hr hc
  have hlen : l.recordBytes.length = min 12 (l.input.len - (272 + 12 * l.fat.length)) :=
    Buffer.length_bytesFrom l.input
  exact ⟨List.length_eq_zero_iff.1 (by omega), by omega⟩

/-- The FAT holds one more record of the archive (R142). -/
theorem Ls11.appendRecord_inv (h : l.Inv) (hph : l.phase = .fat) {clen ulen off : Word32} {rest : List Byte}
    (hr : readFatRecord l.recordBytes = .ok ((clen, ulen, off), rest)) (hc : clen ≠ 0) :
    (l.appendRecord ⟨clen, ulen, off⟩).Inv := by
  obtain ⟨hcan, ⟨hlen, hhdr, hdict, hfat⟩, hent⟩ := (Ls11.inv_fat hph).1 h
  obtain ⟨rfl, -⟩ := readFatRecord_recordBytes hr hc
  exact (Ls11.inv_fat (l := l.appendRecord ⟨clen, ulen, off⟩) hph).2
    ⟨hcan, ⟨hlen, hhdr, hdict, forall_getElem?_append_singleton hfat ⟨hc, hr⟩⟩, hent⟩

/-- The sentinel leaves the FAT as it has been read (R143). -/
theorem Ls11.endFat_inv (h : l.Inv) (hph : l.phase = .fat) : l.endFat.Inv :=
  (Ls11.inv_validate rfl).2 ((Ls11.inv_fat hph).1 h)

/-- Everything the validation can do (R144, R146). -/
theorem Ls11.validate_cases (l : Ls11) :
    (∃ i, l.validate = l.raise .fatRange i) ∨
      l.Validated ∧ (l.mode = .count ∧ l.validate = l.finish ∨
        l.mode = .decode ∧ l.validate = { l with phase := .entries }) := by
  cases hf : firstOutOfRange l.input.len 0 l.fat with
  | some i => exact .inl ⟨i, Ls11.validate_some hf⟩
  | none =>
    refine .inr ⟨firstOutOfRange_none.1 hf, ?_⟩
    rw [Ls11.validate_none hf]
    cases l.mode
    · exact .inr ⟨rfl, rfl⟩
    · exact .inl ⟨rfl, rfl⟩

theorem Ls11.validate_inv (h : l.Inv) (hph : l.phase = .validate) : l.validate.Inv := by
  obtain ⟨hcan, hload, hent⟩ := (Ls11.inv_validate hph).1 h
  rcases l.validate_cases with ⟨i, hi⟩ | ⟨hval, ⟨hmode, hv⟩ | ⟨hmode, hv⟩⟩
  · rw [hi]
    exact Ls11.raise_inv hcan (by decide) i
  · rw [hv]
    exact (Ls11.inv_ended rfl).2 ⟨hcan, nofun, fun _ => ⟨rfl, rfl, rfl,
      fun hd => absurd (hmode.symm.trans hd) nofun, fun _ => hent⟩⟩
  · rw [hv]
    refine (Ls11.inv_entries rfl).2 ⟨hcan, hload, hval, hmode, ?_, fun i e he => ?_⟩
    · exact hent ▸ Nat.zero_le _
    · have hnone : ([] : List EntryResult)[i]? = some e := hent ▸ he
      cases hnone

/-! ### LS11: the entries (R145 to R148) -/

/-- The result of a call whose records all have their entry (R147). -/
theorem Ls11.finish_inv (h : l.Inv) (hph : l.phase = .entries) (hg : l.fat[l.entries.length]? = none) :
    l.finish.Inv := by
  obtain ⟨hcan, -, -, hmode, hfit⟩ := (Ls11.inv_entries hph).1 h
  have hlen := Nat.le_antisymm hfit.1 (List.getElem?_eq_none_iff.1 hg)
  exact (Ls11.inv_ended rfl).2 ⟨hcan, nofun, fun _ => ⟨rfl, rfl, rfl, fun _ => ⟨hlen, hfit⟩,
    fun hd => absurd (hmode.symm.trans hd) nofun⟩⟩

/-- A verbatim entry is the slice of its record (R148). -/
theorem Ls11.verbatimEntry_inv (h : l.Inv) (hph : l.phase = .entries) {r : FatRec}
    (hg : l.fat[l.entries.length]? = some r) (hkind : r.clen = r.ulen) : (l.verbatimEntry r.clen r.off).Inv := by
  obtain ⟨⟨hin, hhdr, hdict, heout, hent⟩, hload, hval, hmode, -, hfit⟩ := (Ls11.inv_entries hph).1 h
  have hlt := (List.getElem?_eq_some_iff.1 hg).1
  refine (Ls11.inv_entries (l := l.verbatimEntry r.clen r.off) hph).2
    ⟨⟨hin, hhdr, hdict, heout, ?_⟩, hload, hval, hmode, ?_, forall_getElem?_append_singleton hfit ⟨r, hg, ?_⟩⟩
  · intro e he
    rw [Ls11.verbatimEntry_entries, List.mem_append, List.mem_singleton] at he
    rcases he with he | rfl
    · exact hent e he
    · exact Buffer.slice_wf hin
  · rw [Ls11.verbatimEntry_entries, List.length_append]
    exact hlt
  · exact ⟨congrArg BitVec.toNat hkind, by rw [if_pos hkind]; rfl⟩

/-- The symbol loop starts at the head of its record's slice (R169). -/
theorem Ls11.beginCoded_inv (h : l.Inv) (hph : l.phase = .entries) {r : FatRec}
    (hg : l.fat[l.entries.length]? = some r) (hkind : r.clen ≠ r.ulen) : (l.beginCoded r).Inv := by
  obtain ⟨⟨hin, hhdr, hdict, -, hent⟩, hload, hval, hmode, hfit⟩ := (Ls11.inv_entries hph).1 h
  exact (Ls11.inv_symbols rfl).2 ⟨⟨hin, hhdr, hdict, Memory.wf_nil, hent⟩, hload, hval, hmode, hfit,
    ⟨hg, hkind, Nat.zero_le _, Nat.zero_le _, nofun⟩⟩

/-! ### LS11: the symbol loop (R164 to R171) -/

/-- A symbol has at least two bits, and no more than are pending (R160). -/
theorem symbolBits_bounds {r : SymbolRead} (hr : readSymbol l.pendingBits = some r) :
    2 ≤ symbolBits r ∧ symbolBits r ≤ 8 * l.cur.clen.toNat - l.bc := by
  obtain ⟨used, hused, hlen, htwo, -⟩ := readSymbol_inv hr
  have hpending := l.length_pendingBits
  rw [hused, List.length_append] at hpending
  exact ⟨htwo, by omega⟩

/-- A symbol moves BC, EP, EOUT, EOOB and the transient registers only, and keeps the loop inside its entry. -/
theorem Ls11.symbol_inv (h : l.Inv) (hph : l.phase = .symbols) {bc ep : Nat} {regs : LsRegs} {m : Memory}
    {eoob : Bool} (hbc : bc ≤ 8 * l.cur.clen.toNat) (hep : ep ≤ l.cur.ulen.toNat) (hm : m.wf)
    (hbelow : m.below ep) :
    ({ l with bc := bc, ep := ep, regs := regs, eout := m, eoob := eoob } : Ls11).Inv := by
  obtain ⟨⟨hin, hhdr, hdict, -, hent⟩, hload, hval, hmode, hfit, hcur, hkind, -, -, -⟩ :=
    (Ls11.inv_symbols hph).1 h
  exact (Ls11.inv_symbols (l := { l with bc := bc, ep := ep, regs := regs, eout := m, eoob := eoob }) hph).2
    ⟨⟨hin, hhdr, hdict, hm, hent⟩, hload, hval, hmode, hfit,
    hcur, hkind, hep, hbc, hbelow⟩

theorem Ls11.literal_inv (h : l.Inv) (hph : l.phase = .symbols) (hl : l.symbolsLeft = true) {r : SymbolRead}
    (hr : readSymbol l.pendingBits = some r) (c : Byte) : ((l.consume r).literal c).Inv := by
  obtain ⟨⟨-, -, -, heout, -⟩, -, -, -, -, -, -, -, hbc, hbelow⟩ := (Ls11.inv_symbols hph).1 h
  have hep := (l.symbolsLeft_iff.1 hl).1
  have hbits := (symbolBits_bounds hr).2
  rw [Ls11.literal_eq (l := l.consume r) hep]
  refine Ls11.symbol_inv h hph (eoob := l.eoob) ?_ hep (Memory.write_wf heout)
    (Memory.write_below ?_ (Nat.lt_succ_self _))
  · rw [Ls11.consume_bc]
    omega
  · exact fun x hx => Nat.lt_succ_of_lt (hbelow x hx)

theorem Ls11.matchCopy_inv (h : l.Inv) (hph : l.phase = .symbols) {r : SymbolRead}
    (hr : readSymbol l.pendingBits = some r) (dist len : Nat) : ((l.consume r).matchCopy dist len).Inv := by
  obtain ⟨⟨-, -, -, heout, -⟩, -, -, -, -, -, -, hep, hbc, hbelow⟩ := (Ls11.inv_symbols hph).1 h
  have hbits := (symbolBits_bounds hr).2
  obtain ⟨m, hm, hcopy, hread⟩ := Ls11.matchCopy_eq dist len (l.consume r) heout hep
  rw [hcopy]
  refine Ls11.symbol_inv h hph ?_ ?_ hm (Memory.below_of_read hm fun a ha => ?_)
  · rw [Ls11.consume_bc]
    omega
  · simp only [Ls11.consume_ep, Ls11.consume_cur]
    omega
  · rw [hread a, if_neg (by omega)]
    refine Memory.read_of_below hbelow ?_
    simp only [Ls11.consume_ep] at ha
    omega

theorem Ls11.endEntry_keeps_inv (h : l.Inv) (hph : l.phase = .symbols) : l.endEntry.Inv := by
  obtain ⟨hcan, hload, hval, hmode, hfit, hloop⟩ := (Ls11.inv_symbols hph).1 h
  exact Ls11.endEntry_inv hcan hload hval hmode hfit hloop

/-- A cut symbol ends the entry at the end of its slice (R170). -/
theorem Ls11.cutEntry_inv (h : l.Inv) (hph : l.phase = .symbols) : l.cutEntry.Inv := by
  obtain ⟨⟨-, -, -, heout, -⟩, -, -, -, -, -, -, hep, -, hbelow⟩ := (Ls11.inv_symbols hph).1 h
  exact Ls11.endEntry_keeps_inv (l := { l with bc := l.sliceBits, regs := LsRegs.zero })
    (Ls11.symbol_inv h hph (eoob := l.eoob) (Nat.le_refl _) hep heout hbelow) hph

end Phase

/-! ### LS11: one step -/

/-- Everything a step of the FAT parse can do (R142, R143). -/
theorem step_fat_cases {s : State} (heng : s.engine = .ls11) (hph : s.ls.phase = .fat) :
    step s = .next { s with ls := s.ls.raise .fatTrunc s.ls.fat.length } ∨
      step s = .next { s with ls := s.ls.endFat } ∨
      ∃ clen ulen off rest, readFatRecord s.ls.recordBytes = .ok ((clen, ulen, off), rest) ∧ clen ≠ 0 ∧
        step s = .next { s with ls := s.ls.appendRecord ⟨clen, ulen, off⟩ } := by
  cases hr : readFatRecord s.ls.recordBytes with
  | error e => exact .inl (step_fat_trunc heng hph hr)
  | ok v =>
    obtain ⟨⟨clen, ulen, off⟩, rest⟩ := v
    by_cases hc : clen = 0
    · subst hc
      exact .inr (.inl (step_fat_sentinel heng hph hr))
    · exact .inr (.inr ⟨clen, ulen, off, rest, rfl, hc, step_fat_record heng hph hr hc⟩)

/-- Everything the dispatch of an entry can do from a state with the invariant: no record is the sentinel, and
every slice is there (R144, R145). -/
theorem step_entries_cases {s : State} (heng : s.engine = .ls11) (hph : s.ls.phase = .entries) (h : s.ls.Inv) :
    s.ls.fat[s.ls.entries.length]? = none ∧ step s = .next { s with ls := s.ls.finish } ∨
      ∃ r, s.ls.fat[s.ls.entries.length]? = some r ∧
        (r.clen = r.ulen ∧ step s = .next { s with ls := s.ls.verbatimEntry r.clen r.off } ∨
          r.clen ≠ r.ulen ∧ step s = .next { s with ls := s.ls.beginCoded r }) := by
  obtain ⟨-, ⟨-, -, -, hfat⟩, hval, -, -⟩ := (Ls11.inv_entries hph).1 h
  cases hg : s.ls.fat[s.ls.entries.length]? with
  | none => exact .inl ⟨rfl, step_finish heng hph hg⟩
  | some r =>
    have hinside := hval r (List.mem_of_getElem? hg)
    have hstep := step_record heng hph hg
    rw [recordInstr_of_ne_zero (hfat _ r hg).1] at hstep
    refine .inr ⟨r, rfl, ?_⟩
    by_cases hkind : r.clen = r.ulen
    · rw [if_pos hkind] at hstep
      exact .inl ⟨hkind, hstep.trans (onSlice_inside hinside _)⟩
    · rw [if_neg hkind] at hstep
      exact .inr ⟨hkind, hstep.trans (onSlice_inside hinside _)⟩

/-- A step of the LS11 engine answers, and keeps its invariant. -/
theorem step_ls_inv {s : State} (heng : s.engine = .ls11) (h : s.ls.Inv) :
    ∃ l, step s = .next { s with ls := l } ∧ l.Inv := by
  cases hph : s.ls.phase with
  | start => exact ⟨_, step_ls_start heng hph, Ls11.initialise_inv h.1.1 _⟩
  | fat =>
    rcases step_fat_cases heng hph with hs | hs | ⟨clen, ulen, off, rest, hr, hc, hs⟩
    · exact ⟨_, hs, Ls11.raise_inv h.1 (by decide) _⟩
    · exact ⟨_, hs, Ls11.endFat_inv h hph⟩
    · exact ⟨_, hs, Ls11.appendRecord_inv h hph hr hc⟩
  | validate => exact ⟨_, step_validate heng hph, Ls11.validate_inv h hph⟩
  | entries =>
    rcases step_entries_cases heng hph h with ⟨hg, hs⟩ | ⟨r, hg, ⟨hkind, hs⟩ | ⟨hkind, hs⟩⟩
    · exact ⟨_, hs, Ls11.finish_inv h hph hg⟩
    · exact ⟨_, hs, Ls11.verbatimEntry_inv h hph hg hkind⟩
    · exact ⟨_, hs, Ls11.beginCoded_inv h hph hg hkind⟩
  | symbols =>
    rcases step_symbols_cases heng hph with ⟨-, hs⟩ | ⟨-, -, hs⟩ | ⟨r, hl, hr, ⟨c, hs⟩ | ⟨dist, len, hs⟩⟩
    · exact ⟨_, hs, Ls11.endEntry_keeps_inv h hph⟩
    · exact ⟨_, hs, Ls11.cutEntry_inv h hph⟩
    · exact ⟨_, hs, Ls11.literal_inv h hph hl hr c⟩
    · exact ⟨_, hs, Ls11.matchCopy_inv h hph hr dist len⟩
  | ended => exact ⟨s.ls, step_ended heng hph, h⟩

/-! ### The machine -/

/-- A step from a state with the invariant answers a state with the invariant. -/
theorem step_inv {s : State} (h : s.Inv) : ∃ t, step s = .next t ∧ t.Inv := by
  obtain ⟨htf, hls⟩ := h
  cases heng : s.engine with
  | tfdce =>
    obtain ⟨u, hs, hu⟩ := step_tf_inv heng htf
    exact ⟨_, hs, hu, hls⟩
  | ls11 =>
    obtain ⟨l, hs, hl⟩ := step_ls_inv heng hls
    exact ⟨_, hs, htf, hl⟩

/-- Settles O52: the step answers one state, and `step_inv` says that it has the invariant. -/
theorem stepKeepsInvariant : Obligations.StepKeepsInvariant := by
  unfold Obligations.StepKeepsInvariant
  intro s t h ht
  obtain ⟨t', ht', hinv⟩ := step_inv h
  exact Host.Outcome.next.inj (ht'.symm.trans ht) ▸ hinv

/-- Settles O54: `step_inv` without what it says of the next state. -/
theorem stepAlwaysAnswers : Obligations.StepAlwaysAnswers := by
  unfold Obligations.StepAlwaysAnswers
  intro s h
  obtain ⟨t, ht, -⟩ := step_inv h
  exact ⟨t, ht⟩

/-- No position of the output has plane 3 as its destination (R43, R205). -/
theorem destPlane_ne_three {po : PlaneOrder} (hpo : po.isPermutation) (p : Nat) : destPlane po p ≠ 3 := by
  obtain ⟨h0, h1, h2, -⟩ := hpo
  unfold destPlane PlaneOrder.get
  split
  · exact h0
  · split
    · exact h1
    · exact h2

/-- Settles O55: the planes hold the emitted bytes only, none of them in plane 3 or past column 7. -/
theorem unusedPlaneCells : Obligations.UnusedPlaneCells := by
  unfold Obligations.UnusedPlaneCells
  intro t h hph
  obtain ⟨⟨-, -, hpo⟩, ⟨-, -, -, hzero⟩, -, -⟩ := h.2 hph
  have hperm : t.po.isPermutation := hpo ▸ planeOrderTable_isPermutation _
  refine ⟨fun a => hzero 3 a fun q _ hc => destPlane_ne_three hperm q hc.1,
    fun k a ha => hzero k a fun q _ hc => ?_⟩
  have hcol := (zigzag_row_col q).2
  rw [hc.2] at hcol
  omega

end Sys2Proof.Machine
end

section
/-! SUPPORT. The bounds of an LS11 call (R465): the FAT parse, the symbol loop of an entry, and the call as a
whole, each as a measure that its steps lower. -/

namespace Sys2Proof.Machine

/-! ### The FAT parse -/

/-- The records of the FAT lie inside the archive (R142). -/
theorem Ls11.Loaded.fat_length_le {l : Ls11} (h : l.Loaded) : 272 + 12 * l.fat.length ≤ l.input.len := by
  obtain ⟨hlen, -, -, hfat⟩ := h
  rcases Nat.eq_zero_or_pos l.fat.length with h0 | hpos
  · omega
  · have hlast := List.getElem?_eq_getElem (show l.fat.length - 1 < l.fat.length by omega)
    obtain ⟨hc, hr⟩ := hfat _ _ hlast
    have hbytes := readFatRecord_ok hr hc
    rw [Buffer.length_bytesFrom, List.length_nil] at hbytes
    omega

/-- The records that the parse may still read (R465). -/
def Ls11.recordsLeft (l : Ls11) : Nat :=
  if l.phase = .fat then (l.input.len - 272) / 12 + 1 - l.fat.length else 0

theorem Ls11.recordsLeft_pos {l : Ls11} (h : l.Inv) (hph : l.phase = .fat) : 0 < l.recordsLeft := by
  have hlen := ((Ls11.inv_fat hph).1 h).2.1.fat_length_le
  rw [Ls11.recordsLeft, if_pos hph]
  omega

/-- The call is in the parse, or has just left it. -/
def Ls11.InParse (l : Ls11) : Prop := l.phase = .fat ∨ l.phase = .validate ∨ l.phase = .ended

/-- A step of the parse reads a record, or leaves the parse. -/
theorem step_fat_lt {s : State} (heng : s.engine = .ls11) (h : s.ls.Inv) (hph : s.ls.phase = .fat) :
    ∃ l, step s = .next { s with ls := l } ∧ l.Inv ∧ l.InParse ∧ l.recordsLeft < s.ls.recordsLeft := by
  have hpos := Ls11.recordsLeft_pos h hph
  rcases step_fat_cases heng hph with hs | hs | ⟨clen, ulen, off, rest, hr, hc, hs⟩
  · exact ⟨_, hs, Ls11.raise_inv h.1 (by decide) _, .inr (.inr rfl), hpos⟩
  · exact ⟨_, hs, Ls11.endFat_inv h hph, .inr (.inl rfl), hpos⟩
  · refine ⟨_, hs, Ls11.appendRecord_inv h hph hr hc, .inl hph, ?_⟩
    simp only [Ls11.recordsLeft, Ls11.appendRecord_phase, Ls11.appendRecord_input, Ls11.appendRecord_fat,
      List.length_append, List.length_singleton, if_pos hph] at hpos ⊢
    omega

/-- The parse ends in the validation or in a fault, each of its steps reading one record. -/
theorem fat_run {s : State} (heng : s.engine = .ls11) (h : s.ls.Inv) (hph : s.ls.phase = .fat) :
    ∃ k t, k ≤ s.ls.recordsLeft ∧ Sys2Proof.core.run k s = .next t ∧
      (t : State).engine = .ls11 ∧ t.ls.Inv ∧ (t.ls.phase = .validate ∨ t.ls.phase = .ended) := by
  obtain ⟨k, t, hk, hrun, ⟨heng', hinv, hparse⟩, hgoal⟩ := run_until
    (P := fun u => u.engine = .ls11 ∧ u.ls.Inv ∧ u.ls.InParse) (goal := fun u => u.ls.phase ≠ .fat)
    (measure := fun u => u.ls.recordsLeft)
    (fun u ⟨heng, h, _⟩ hgoal => by
      obtain ⟨l, hs, hinv, hparse, hlt⟩ := step_fat_lt heng h (Classical.not_not.1 hgoal)
      exact ⟨_, hs, ⟨heng, hinv, hparse⟩, hlt⟩) s ⟨heng, h, .inl hph⟩
  exact ⟨k, t, hk, hrun, heng', hinv, hparse.resolve_left hgoal⟩

/-! ### The symbol loop -/

/-- What a step inside the symbol loop does to the call: it ends the entry, or takes two bits or more. -/
structure Ls11.LoopStep (l l' : Ls11) : Prop where
  inv : l'.Inv
  fat : l'.fat = l.fat
  ep_le : l.ep ≤ l'.ep
  ep_le_ulen : l'.ep ≤ l.cur.ulen.toNat
  moves :
    (l'.phase = .entries ∧ l'.entries.length = l.entries.length + 1) ∨
      (l'.phase = .symbols ∧ l'.entries.length = l.entries.length ∧ l'.cur = l.cur ∧ l.bc + 2 ≤ l'.bc ∧
        l'.bc ≤ 8 * l.cur.clen.toNat)

theorem step_loop {s : State} (heng : s.engine = .ls11) (h : s.ls.Inv) (hph : s.ls.phase = .symbols) :
    ∃ l, step s = .next { s with ls := l } ∧ s.ls.LoopStep l := by
  obtain ⟨⟨-, -, -, heout, -⟩, -, -, -, -, -, -, hep, -, -⟩ := (Ls11.inv_symbols hph).1 h
  rcases step_symbols_cases heng hph with ⟨-, hs⟩ | ⟨-, -, hs⟩ | ⟨r, hl, hr, ⟨c, hs⟩ | ⟨dist, len, hs⟩⟩
  · exact ⟨_, hs, Ls11.endEntry_keeps_inv h hph, rfl, Nat.le_refl _, hep, .inl ⟨rfl, List.length_append⟩⟩
  · exact ⟨_, hs, Ls11.cutEntry_inv h hph, rfl, Nat.le_refl _, hep, .inl ⟨rfl, List.length_append⟩⟩
  · have hlt := s.ls.symbolsLeft_iff.1 hl
    obtain ⟨htwo, hle⟩ := symbolBits_bounds hr
    have heq := Ls11.literal_eq (l := s.ls.consume r) hlt.1 c
    have hinv := Ls11.literal_inv h hph hl hr c
    rw [heq] at hs hinv
    refine ⟨_, hs, hinv, rfl, Nat.le_succ _, hlt.1, .inr ⟨hph, rfl, rfl, Nat.add_le_add_left htwo _, ?_⟩⟩
    simp only [Ls11.consume_bc]
    omega
  · have hlt := s.ls.symbolsLeft_iff.1 hl
    obtain ⟨htwo, hle⟩ := symbolBits_bounds hr
    obtain ⟨m, -, heq, -⟩ := Ls11.matchCopy_eq dist len (s.ls.consume r) heout hep
    have hinv := Ls11.matchCopy_inv h hph hr dist len
    rw [heq] at hs hinv
    refine ⟨_, hs, hinv, rfl, Nat.le_add_right _ _, ?_, .inr ⟨hph, rfl, rfl, Nat.add_le_add_left htwo _, ?_⟩⟩
    · simp only [Ls11.consume_ep, Ls11.consume_cur]
      omega
    · simp only [Ls11.consume_bc]
      omega

/-- The steps that the symbol loop may still take: a symbol for every two bits, and the end of the entry (R465). -/
def Ls11.symbolSteps (l : Ls11) : Nat :=
  if l.phase = .symbols then (8 * l.cur.clen.toNat - l.bc) / 2 + 1 else 0

theorem Ls11.LoopStep.symbolSteps_lt {l l' : Ls11} (h : l.LoopStep l') (hph : l.phase = .symbols) :
    l'.symbolSteps < l.symbolSteps := by
  simp only [Ls11.symbolSteps, if_pos hph]
  rcases h.moves with ⟨hp, -⟩ | ⟨hp, -, hcur, hbc, hle⟩
  · rw [hp]
    exact Nat.succ_pos _
  · rw [if_pos hp, hcur]
    omega

/-- The entry ends within its bound, with one more entry result. -/
theorem symbols_run {s : State} (heng : s.engine = .ls11) (h : s.ls.Inv) (hph : s.ls.phase = .symbols) :
    ∃ k t, k ≤ s.ls.symbolSteps ∧ Sys2Proof.core.run k s = .next t ∧
      (t : State).ls.phase = .entries ∧ t.ls.entries.length = s.ls.entries.length + 1 := by
  obtain ⟨k, t, hk, hrun, ⟨-, -, hphase⟩, hgoal⟩ := run_until
    (P := fun u => u.engine = .ls11 ∧ u.ls.Inv ∧
      (u.ls.phase = .symbols ∧ u.ls.entries.length = s.ls.entries.length ∨
        u.ls.phase = .entries ∧ u.ls.entries.length = s.ls.entries.length + 1))
    (goal := fun u => u.ls.phase = .entries) (measure := fun u => u.ls.symbolSteps)
    (fun u ⟨heng, h, hphase⟩ hgoal => by
      obtain ⟨hph, hlen⟩ := hphase.resolve_right fun hc => hgoal hc.1
      obtain ⟨l, hs, hstep⟩ := step_loop heng h hph
      refine ⟨_, hs, ⟨heng, hstep.inv, ?_⟩, hstep.symbolSteps_lt hph⟩
      rcases hstep.moves with ⟨hp, hn⟩ | ⟨hp, hn, -⟩
      · exact .inr ⟨hp, hlen ▸ hn⟩
      · exact .inl ⟨hp, hlen ▸ hn⟩) s ⟨heng, h, .inl ⟨hph, rfl⟩⟩
  refine ⟨k, t, hk, hrun, hgoal, ?_⟩
  rcases hphase with ⟨hp, -⟩ | ⟨-, hn⟩
  · rw [hgoal] at hp
    cases hp
  · exact hn

/-! ### The entries of a call -/

/-- The steps of the entries of the given records: a coded one takes its start, its symbols and its end (R465). -/
def entrySteps (rs : List FatRec) : Nat := (rs.map fun r => 4 * r.clen.toNat + 2).sum

theorem entrySteps_drop_le (rs : List FatRec) (n : Nat) : entrySteps (rs.drop n) ≤ entrySteps rs := by
  have hsum := List.sum_take_add_sum_drop (rs.map fun r => 4 * r.clen.toNat + 2) n
  rw [← List.map_drop] at hsum
  exact Nat.le.intro ((Nat.add_comm _ _).trans hsum)

/-- The records from index n on are record n and those behind it. -/
theorem entrySteps_drop {rs : List FatRec} {n : Nat} {r : FatRec} (hg : rs[n]? = some r) :
    entrySteps (rs.drop n) = 4 * r.clen.toNat + 2 + entrySteps (rs.drop (n + 1)) := by
  obtain ⟨hlt, rfl⟩ := List.getElem?_eq_some_iff.1 hg
  rw [List.drop_eq_getElem_cons hlt, entrySteps, List.map_cons, List.sum_cons]
  rfl

/-- The steps from the entries of a call to its end: those of the records left, and the one that writes the
result. -/
def Ls11.stepsLeft (l : Ls11) : Nat :=
  if l.phase = .entries then entrySteps (l.fat.drop l.entries.length) + 1
  else if l.phase = .symbols then l.symbolSteps + entrySteps (l.fat.drop (l.entries.length + 1)) + 1
  else 0

theorem Ls11.stepsLeft_entries {l : Ls11} (h : l.phase = .entries) :
    l.stepsLeft = entrySteps (l.fat.drop l.entries.length) + 1 := if_pos h

theorem Ls11.stepsLeft_symbols {l : Ls11} (h : l.phase = .symbols) :
    l.stepsLeft = l.symbolSteps + entrySteps (l.fat.drop (l.entries.length + 1)) + 1 := by
  simp only [Ls11.stepsLeft, h, reduceCtorEq, if_false, if_true]

theorem Ls11.stepsLeft_ended {l : Ls11} (h : l.phase = .ended) : l.stepsLeft = 0 := by
  simp only [Ls11.stepsLeft, h, reduceCtorEq, if_false]

/-- The call has come to its entries, or to its end. -/
def Ls11.InEntries (l : Ls11) : Prop := l.phase = .entries ∨ l.phase = .symbols ∨ l.phase = .ended

/-- A step of the entries that does not start from the end of the call comes nearer to it. -/
theorem step_entries_lt {s : State} (heng : s.engine = .ls11) (h : s.ls.Inv)
    (hph : s.ls.phase = .entries ∨ s.ls.phase = .symbols) :
    ∃ l, step s = .next { s with ls := l } ∧ l.Inv ∧ l.fat = s.ls.fat ∧ l.InEntries ∧
      l.stepsLeft < s.ls.stepsLeft := by
  rcases hph with hph | hph
  · rw [Ls11.stepsLeft_entries hph]
    rcases step_entries_cases heng hph h with ⟨hg, hs⟩ | ⟨r, hg, ⟨hkind, hs⟩ | ⟨hkind, hs⟩⟩
    · exact ⟨_, hs, Ls11.finish_inv h hph hg, rfl, .inr (.inr rfl), Nat.succ_pos _⟩
    · refine ⟨_, hs, Ls11.verbatimEntry_inv h hph hg hkind, rfl, .inl hph, ?_⟩
      rw [Ls11.stepsLeft_entries (l := s.ls.verbatimEntry r.clen r.off) hph, entrySteps_drop hg,
        Ls11.verbatimEntry_fat, Ls11.verbatimEntry_entries, List.length_append, List.length_singleton]
      omega
    · refine ⟨_, hs, Ls11.beginCoded_inv h hph hg hkind, rfl, .inr (.inl rfl), ?_⟩
      rw [Ls11.stepsLeft_symbols rfl, entrySteps_drop hg]
      simp only [Ls11.symbolSteps, Ls11.beginCoded_phase, if_true, Ls11.beginCoded_cur, Ls11.beginCoded_bc,
        Ls11.beginCoded_fat, Ls11.beginCoded_entries]
      omega
  · obtain ⟨l, hs, hstep⟩ := step_loop heng h hph
    have hlt := hstep.symbolSteps_lt hph
    rw [Ls11.stepsLeft_symbols hph]
    rcases hstep.moves with ⟨hp, hn⟩ | ⟨hp, hn, -⟩
    · refine ⟨l, hs, hstep.inv, hstep.fat, .inl hp, ?_⟩
      rw [Ls11.stepsLeft_entries hp, hstep.fat, hn]
      omega
    · refine ⟨l, hs, hstep.inv, hstep.fat, .inr (.inl hp), ?_⟩
      rw [Ls11.stepsLeft_symbols hp, hstep.fat, hn]
      omega

/-! ### The whole call -/

/-- The call ends within `n` steps and those of the entries of its FAT. -/
def State.EndsWithin (s : State) (n : Nat) : Prop :=
  ∃ k t, k ≤ n + entrySteps (t : State).ls.fat ∧ Sys2Proof.core.run k s = .next t ∧ t.ls.phase = .ended

theorem State.EndsWithin.mono {s : State} {n m : Nat} (h : s.EndsWithin n) (hle : n ≤ m) : s.EndsWithin m := by
  obtain ⟨k, t, hk, hrun, hend⟩ := h
  exact ⟨k, t, by omega, hrun, hend⟩

theorem State.EndsWithin.of_run {s t : State} {j n : Nat} (hrun : Sys2Proof.core.run j s = .next t)
    (h : t.EndsWithin n) : s.EndsWithin (j + n) := by
  obtain ⟨k, u, hk, hrun', hend⟩ := h
  exact ⟨j + k, u, by omega, (run_add hrun k).trans hrun', hend⟩

theorem State.EndsWithin.of_step {s t : State} {n : Nat} (hs : step s = .next t) (h : t.EndsWithin n) :
    s.EndsWithin (1 + n) :=
  State.EndsWithin.of_run (j := 1) ((run_succ_of_next hs 0).trans rfl) h

theorem endsWithin_ended {s : State} (hph : s.ls.phase = .ended) (n : Nat) : s.EndsWithin n :=
  ⟨0, s, Nat.zero_le _, rfl, hph⟩

/-- The steps left are no more than those of all records, and the result. -/
theorem Ls11.stepsLeft_le {l : Ls11} (h : l.Inv) (hph : l.InEntries) : l.stepsLeft ≤ 1 + entrySteps l.fat := by
  have hdrop := entrySteps_drop_le l.fat l.entries.length
  rcases hph with hph | hph | hph
  · rw [Ls11.stepsLeft_entries hph]
    omega
  · obtain ⟨-, -, -, -, -, hcur, -⟩ := (Ls11.inv_symbols hph).1 h
    rw [entrySteps_drop hcur] at hdrop
    rw [Ls11.stepsLeft_symbols hph, Ls11.symbolSteps, if_pos hph]
    omega
  · rw [Ls11.stepsLeft_ended hph]
    exact Nat.zero_le _

theorem endsWithin_entries {s : State} (heng : s.engine = .ls11) (h : s.ls.Inv) (hph : s.ls.InEntries) :
    s.EndsWithin 1 := by
  obtain ⟨k, t, hk, hrun, ⟨-, -, hfat, -⟩, hgoal⟩ := run_until
    (P := fun u => u.engine = .ls11 ∧ u.ls.Inv ∧ u.ls.fat = s.ls.fat ∧ u.ls.InEntries)
    (goal := fun u => u.ls.phase = .ended) (measure := fun u => u.ls.stepsLeft)
    (fun u ⟨heng, h, hfat, hph⟩ hgoal => by
      have hph' : u.ls.phase = .entries ∨ u.ls.phase = .symbols :=
        (or_assoc.2 hph).resolve_right hgoal
      obtain ⟨l, hs, hinv, hfat', hin, hlt⟩ := step_entries_lt heng h hph'
      exact ⟨_, hs, ⟨heng, hinv, hfat'.trans hfat, hin⟩, hlt⟩) s ⟨heng, h, rfl, hph⟩
  exact ⟨k, t, Nat.le_trans hk (hfat ▸ Ls11.stepsLeft_le h hph), hrun, hgoal⟩

theorem endsWithin_validate {s : State} (heng : s.engine = .ls11) (h : s.ls.Inv) (hph : s.ls.phase = .validate) :
    s.EndsWithin 2 := by
  have hinv := Ls11.validate_inv h hph
  refine State.EndsWithin.of_step (n := 1) (step_validate heng hph)
    (endsWithin_entries (s := { s with ls := s.ls.validate }) heng hinv ?_)
  rcases s.ls.validate_cases with ⟨i, hv⟩ | ⟨-, ⟨-, hv⟩ | ⟨-, hv⟩⟩
  · exact .inr (.inr (congrArg Ls11.phase hv))
  · exact .inr (.inr (congrArg Ls11.phase hv))
  · exact .inl (congrArg Ls11.phase hv)

theorem endsWithin_fat {s : State} (heng : s.engine = .ls11) (h : s.ls.Inv) (hph : s.ls.phase = .fat) :
    s.EndsWithin ((s.ls.input.len - 272) / 12 + 3) := by
  obtain ⟨k, t, hk, hrun, heng', hinv, hphase⟩ := fat_run heng h hph
  have hend : t.EndsWithin 2 := hphase.elim (endsWithin_validate heng' hinv) (endsWithin_ended · 2)
  rw [Ls11.recordsLeft, if_pos hph] at hk
  exact (State.EndsWithin.of_run hrun hend).mono (by omega)

theorem endsWithin_start {s : State} (heng : s.engine = .ls11) (h : s.ls.Inv) (hph : s.ls.phase = .start) :
    s.EndsWithin ((s.ls.input.len - 272) / 12 + 4) := by
  have hinv := Ls11.initialise_inv h.1.1 s.ls.mode
  have hnext : State.EndsWithin { s with ls := Ls11.initialise s.ls.input s.ls.mode }
      ((s.ls.input.len - 272) / 12 + 3) := by
    by_cases hlen : s.ls.input.len < 272
    · exact endsWithin_ended (congrArg Ls11.phase (if_pos hlen)) _
    · have hload : Ls11.initialise s.ls.input s.ls.mode = _ := if_neg hlen
      have hend := endsWithin_fat (s := { s with ls := Ls11.initialise s.ls.input s.ls.mode }) heng hinv
        (congrArg Ls11.phase hload)
      rwa [congrArg Ls11.input hload] at hend
  exact (State.EndsWithin.of_step (step_ls_start heng hph) hnext).mono (by omega)

/-- From any phase, the call ends within the bound of R465. -/
theorem endsWithin_call {s : State} (heng : s.engine = .ls11) (h : s.ls.Inv) :
    s.EndsWithin ((s.ls.input.len - 272) / 12 + 4) := by
  cases hph : s.ls.phase with
  | start => exact endsWithin_start heng h hph
  | fat => exact (endsWithin_fat heng h hph).mono (by omega)
  | validate => exact (endsWithin_validate heng h hph).mono (by omega)
  | entries => exact (endsWithin_entries heng h (.inl hph)).mono (by omega)
  | symbols => exact (endsWithin_entries heng h (.inr (.inl hph))).mono (by omega)
  | ended => exact endsWithin_ended hph _

/-- Settles O60: the parse by `fat_run`, an entry by `symbols_run` and `step_loop`, the call by `endsWithin_call`. -/
theorem archiveCallTerminates : Obligations.ArchiveCallTerminates := by
  unfold Obligations.ArchiveCallTerminates
  intro s heng h
  refine ⟨fun hph => ?_, fun hph => ⟨?_, fun t ht => ?_⟩, endsWithin_call heng h.2⟩
  · obtain ⟨k, t, hk, hrun, -, -, hphase⟩ := fat_run heng h.2 hph
    rw [Ls11.recordsLeft, if_pos hph] at hk
    refine ⟨k, t, hk, hrun, ?_⟩
    rcases hphase with hp | hp <;> rw [hp] <;> nofun
  · obtain ⟨k, t, hk, hend⟩ := symbols_run heng h.2 hph
    rw [Ls11.symbolSteps, if_pos hph] at hk
    exact ⟨k, t, hk, hend⟩
  · obtain ⟨l, hs, hstep⟩ := step_loop heng h.2 hph
    cases hs.symm.trans ht
    exact ⟨hstep.ep_le, hstep.ep_le_ulen⟩

end Sys2Proof.Machine
end
